-- ==== Sys2Proof/Word.lean ====
section
/-! DEFINITION. The word types of DSRSA-CORE: the 32-bit port word and storage word (R7, R39, R56), the 1600-bit
pattern of a big register (R8, R19), the register index (R59) and the error codes' names (R111). -/

namespace Sys2Proof

/-- A 32-bit word: the unit of big-register storage, of every port access and of a command (R7, R39, R56). -/
abbrev Word := BitVec 32

/-- The 1600-bit pattern `u` held by a big register: 50 words of 32 bits, least significant first (R8, R19). -/
abbrev Big := BitVec 1600

/-- A register field: an unsigned index 0..15, every value of which names a register (R59). -/
abbrev Reg := Fin 16

/-- The error kinds a command can complete with (R111). NONE, code 0, is the absence of one. -/
inductive ErrCode where
  | illegal   -- EILLEGAL, code 1
  | divZero   -- EDIVZERO, code 2
  | domain    -- EDOMAIN,  code 3
  | cap       -- ECAP,     code 4
  | noInv     -- ENOINV,   code 5
  | timeout   -- ETIMEOUT, code 6
  deriving DecidableEq, Repr

end Sys2Proof
end

