-- ==== Sys2Proof/Syntax.lean ====
section
/-! DEFINITION. The commands of DSRSA-CORE: one constructor for each row of the opcode map (R60). Operands stand in the
order of the command word's fields, from the low bits up (R57, R58): `rd`, `rs1`, `rs2`, then the field at bits 23:20 and
the field at bits 27:24. -/

namespace Sys2Proof

inductive Instr where
  /-- R67 -/
  | nop
  /-- R68 -/
  | ldi (rd : Reg)
  /-- R69 -/
  | mov (rd rs1 : Reg)
  /-- R72 -/
  | add (rd rs1 rs2 : Reg)
  /-- R73 -/
  | sub (rd rs1 rs2 : Reg)
  /-- R74 -/
  | neg (rd rs1 : Reg)
  /-- R75 -/
  | cmp (rs1 rs2 : Reg)
  /-- R76 -/
  | shl (rd rs1 : Reg) (shamt : BitVec 16)
  /-- R77 -/
  | shr (rd rs1 : Reg) (shamt : BitVec 16)
  /-- R79 -/
  | mul (rd rs1 rs2 : Reg)
  /-- R82 -/
  | div (rd rs1 rs2 : Reg)
  /-- R83 -/
  | rem (rd rs1 rs2 : Reg)
  /-- R84: `rd` takes the quotient, `rd2` the remainder. -/
  | divrem (rd rs1 rs2 rd2 : Reg)
  /-- R89 -/
  | mu (rd rs1 : Reg)
  /-- R90: `rs1` is X, `rs2` is N, `rs3` is MU. -/
  | bred (rd rs1 rs2 rs3 : Reg)
  /-- R91: `rs1` is A, `rs2` is B, `rs3` is N. -/
  | modmul (rd rs1 rs2 rs3 : Reg)
  /-- R93: `rs1` is the base, `rs2` the exponent, `rs3` the modulus. -/
  | modpow (rd rs1 rs2 rs3 : Reg)
  /-- R96 -/
  | gcd (rd rs1 rs2 : Reg)
  /-- R97: `rd` takes g, `rd2` x and `rd3` y. -/
  | extgcd (rd rs1 rs2 rd2 rd3 : Reg)
  /-- R99: `rs1` is E, `rs2` is N. -/
  | modinv (rd rs1 rs2 : Reg)
  /-- R100 -/
  | randbits (rd : Reg)
  /-- R103 -/
  | mrtest (rd rs1 : Reg)
  /-- R105 -/
  | genprime (rd : Reg)
  /-- R107: `rd` takes n, `rd2` e and `rd3` d. -/
  | keygen (rd rd2 rd3 : Reg)
  /-- R108: `rs1` is the digest, `rs2` the private exponent, `rs3` the modulus. -/
  | sign (rd rs1 rs2 rs3 : Reg)
  /-- R109: `rs1` is the signature, `rs2` the public exponent, `rs3` the modulus, `rs4` the digest. -/
  | verify (rd rs1 rs2 rs3 rs4 : Reg)
  deriving DecidableEq, Repr

end Sys2Proof
end

