-- ==== Sys2Proof/WellFormed.lean ====
section
/-! DEFINITION. Which registers a command reads and writes, and when a command is well formed: every register field and
every shift amount is legal (R59), so the one condition is that no two destination fields are equal (R61). -/

namespace Sys2Proof.Instr

/-- The big registers a command names as sources (the `rs` fields of its row in R60), in field order. -/
def sources : Instr → List Reg
  | .nop => []
  | .ldi _ => []
  | .mov _ rs1 => [rs1]
  | .add _ rs1 rs2 => [rs1, rs2]
  | .sub _ rs1 rs2 => [rs1, rs2]
  | .neg _ rs1 => [rs1]
  | .cmp rs1 rs2 => [rs1, rs2]
  | .shl _ rs1 _ => [rs1]
  | .shr _ rs1 _ => [rs1]
  | .mul _ rs1 rs2 => [rs1, rs2]
  | .div _ rs1 rs2 => [rs1, rs2]
  | .rem _ rs1 rs2 => [rs1, rs2]
  | .divrem _ rs1 rs2 _ => [rs1, rs2]
  | .mu _ rs1 => [rs1]
  | .bred _ rs1 rs2 rs3 => [rs1, rs2, rs3]
  | .modmul _ rs1 rs2 rs3 => [rs1, rs2, rs3]
  | .modpow _ rs1 rs2 rs3 => [rs1, rs2, rs3]
  | .gcd _ rs1 rs2 => [rs1, rs2]
  | .extgcd _ rs1 rs2 _ _ => [rs1, rs2]
  | .modinv _ rs1 rs2 => [rs1, rs2]
  | .randbits _ => []
  | .mrtest _ rs1 => [rs1]
  | .genprime _ => []
  | .keygen _ _ _ => []
  | .sign _ rs1 rs2 rs3 => [rs1, rs2, rs3]
  | .verify _ rs1 rs2 rs3 rs4 => [rs1, rs2, rs3, rs4]

/-- The big registers a command names as destinations (the `rd` fields of its row in R60). -/
def dests : Instr → List Reg
  | .nop => []
  | .ldi rd => [rd]
  | .mov rd _ => [rd]
  | .add rd _ _ => [rd]
  | .sub rd _ _ => [rd]
  | .neg rd _ => [rd]
  | .cmp _ _ => []
  | .shl rd _ _ => [rd]
  | .shr rd _ _ => [rd]
  | .mul rd _ _ => [rd]
  | .div rd _ _ => [rd]
  | .rem rd _ _ => [rd]
  | .divrem rd _ _ rd2 => [rd, rd2]
  | .mu rd _ => [rd]
  | .bred rd _ _ _ => [rd]
  | .modmul rd _ _ _ => [rd]
  | .modpow rd _ _ _ => [rd]
  | .gcd rd _ _ => [rd]
  | .extgcd rd _ _ rd2 rd3 => [rd, rd2, rd3]
  | .modinv rd _ _ => [rd]
  | .randbits rd => [rd]
  | .mrtest rd _ => [rd]
  | .genprime rd => [rd]
  | .keygen rd rd2 rd3 => [rd, rd2, rd3]
  | .sign rd _ _ _ => [rd]
  | .verify rd _ _ _ _ => [rd]

/-- A command is well formed when its destination fields are pairwise different (R61: DIVREM, EXTGCD, KEYGEN). -/
def wellFormed (i : Instr) : Bool := decide i.dests.Nodup

/-! ## Classes of commands the rules name -/

/-- The commands that call the random port (R55). -/
def draws : Instr → Bool
  | .nop => false
  | .ldi _ => false
  | .mov _ _ => false
  | .add _ _ _ => false
  | .sub _ _ _ => false
  | .neg _ _ => false
  | .cmp _ _ => false
  | .shl _ _ _ => false
  | .shr _ _ _ => false
  | .mul _ _ _ => false
  | .div _ _ _ => false
  | .rem _ _ _ => false
  | .divrem _ _ _ _ => false
  | .mu _ _ => false
  | .bred _ _ _ _ => false
  | .modmul _ _ _ _ => false
  | .modpow _ _ _ _ => false
  | .gcd _ _ _ => false
  | .extgcd _ _ _ _ _ => false
  | .modinv _ _ _ => false
  | .randbits _ => true
  | .mrtest _ _ => true
  | .genprime _ => true
  | .keygen _ _ _ => true
  | .sign _ _ _ _ => false
  | .verify _ _ _ _ _ => false

/-- The commands that write STATUS.CMP (R33). -/
def writesCmp : Instr → Bool
  | .nop => false
  | .ldi _ => false
  | .mov _ _ => false
  | .add _ _ _ => false
  | .sub _ _ _ => false
  | .neg _ _ => false
  | .cmp _ _ => true
  | .shl _ _ _ => false
  | .shr _ _ _ => false
  | .mul _ _ _ => false
  | .div _ _ _ => false
  | .rem _ _ _ => false
  | .divrem _ _ _ _ => false
  | .mu _ _ => false
  | .bred _ _ _ _ => false
  | .modmul _ _ _ _ => false
  | .modpow _ _ _ _ => false
  | .gcd _ _ _ => false
  | .extgcd _ _ _ _ _ => false
  | .modinv _ _ _ => false
  | .randbits _ => false
  | .mrtest _ _ => false
  | .genprime _ => false
  | .keygen _ _ _ => false
  | .sign _ _ _ _ => false
  | .verify _ _ _ _ _ => false

/-- The commands that write STATUS.RES (R33). -/
def writesRes : Instr → Bool
  | .nop => false
  | .ldi _ => false
  | .mov _ _ => false
  | .add _ _ _ => false
  | .sub _ _ _ => false
  | .neg _ _ => false
  | .cmp _ _ => false
  | .shl _ _ _ => false
  | .shr _ _ _ => false
  | .mul _ _ _ => false
  | .div _ _ _ => false
  | .rem _ _ _ => false
  | .divrem _ _ _ _ => false
  | .mu _ _ => false
  | .bred _ _ _ _ => false
  | .modmul _ _ _ _ => false
  | .modpow _ _ _ _ => false
  | .gcd _ _ _ => false
  | .extgcd _ _ _ _ _ => false
  | .modinv _ _ _ => false
  | .randbits _ => false
  | .mrtest _ _ => true
  | .genprime _ => false
  | .keygen _ _ _ => false
  | .sign _ _ _ _ => false
  | .verify _ _ _ _ _ => true

/-- The commands that can set STATUS.OVF (R33, R71). -/
def mayOverflow : Instr → Bool
  | .nop => false
  | .ldi _ => false
  | .mov _ _ => false
  | .add _ _ _ => true
  | .sub _ _ _ => true
  | .neg _ _ => true
  | .cmp _ _ => false
  | .shl _ _ _ => true
  | .shr _ _ _ => false
  | .mul _ _ _ => true
  | .div _ _ _ => false
  | .rem _ _ _ => false
  | .divrem _ _ _ _ => false
  | .mu _ _ => false
  | .bred _ _ _ _ => false
  | .modmul _ _ _ _ => false
  | .modpow _ _ _ _ => false
  | .gcd _ _ _ => false
  | .extgcd _ _ _ _ _ => false
  | .modinv _ _ _ => false
  | .randbits _ => false
  | .mrtest _ _ => false
  | .genprime _ => false
  | .keygen _ _ _ => false
  | .sign _ _ _ _ => false
  | .verify _ _ _ _ _ => false

/-- The errors a well-formed command can complete with: its entries in the last column of R111's table. -/
def mayRaise : Instr → List ErrCode
  | .nop => []
  | .ldi _ => []
  | .mov _ _ => []
  | .add _ _ _ => []
  | .sub _ _ _ => []
  | .neg _ _ => []
  | .cmp _ _ => []
  | .shl _ _ _ => []
  | .shr _ _ _ => []
  | .mul _ _ _ => []
  | .div _ _ _ => [.divZero, .domain]
  | .rem _ _ _ => [.divZero, .domain]
  | .divrem _ _ _ _ => [.divZero, .domain]
  | .mu _ _ => [.divZero, .domain, .cap]
  | .bred _ _ _ _ => [.divZero, .domain, .cap]
  | .modmul _ _ _ _ => [.divZero, .domain, .cap]
  | .modpow _ _ _ _ => [.divZero, .domain, .cap]
  | .gcd _ _ _ => [.domain]
  | .extgcd _ _ _ _ _ => [.domain]
  | .modinv _ _ _ => [.divZero, .domain, .noInv]
  | .randbits _ => [.domain]
  | .mrtest _ _ => [.cap, .timeout]
  | .genprime _ => [.domain, .timeout]
  | .keygen _ _ _ => [.domain, .timeout]
  | .sign _ _ _ _ => [.divZero, .domain, .cap]
  | .verify _ _ _ _ _ => []

end Sys2Proof.Instr
end

