-- ==== Sys2Proof/Decode.lean ====
section
/-! DEFINITION. Decoding of the 32-bit command word (R56-R63): the opcode map as a table of masks and matches, a total
decoder that rejects by name, and the encoder written from the same formats. -/

namespace Sys2Proof

/-- Why a command word is no command (R61, R62). All three are the one error code EILLEGAL. -/
inductive DecodeError where
  | reservedOpcode   -- bits 7:0 name no row of R60
  | mustBeZero       -- a field the row does not use is not zero
  | equalDestinations -- two destination fields of the row are equal
  deriving DecidableEq, Repr

/-! ## Fields (R57, R58) -/

/-- Bits 7:0, the opcode. -/
def fieldOp (c : Word) : BitVec 8 := c.extractLsb' 0 8
/-- Bits 11:8. -/
def fieldRd (c : Word) : Reg := (c.extractLsb' 8 4).toFin
/-- Bits 15:12. -/
def fieldRs1 (c : Word) : Reg := (c.extractLsb' 12 4).toFin
/-- Bits 19:16. -/
def fieldRs2 (c : Word) : Reg := (c.extractLsb' 16 4).toFin
/-- Bits 23:20: `rs3`, or `rd2` where the opcode uses it as a second destination. -/
def fieldRs3 (c : Word) : Reg := (c.extractLsb' 20 4).toFin
/-- Bits 27:24: `rs4`, or `rd3` where the opcode uses it as a third destination. -/
def fieldRs4 (c : Word) : Reg := (c.extractLsb' 24 4).toFin
/-- Bits 31:16 of format S, the shift amount. -/
def fieldShamt (c : Word) : BitVec 16 := c.extractLsb' 16 16

/-! ## The opcode map (R60) -/

/-- One row of the opcode map: a word `c` selects it when `c AND mask = pattern`; `build` reads the fields it uses. -/
structure OpcodeRow where
  mask    : Word
  pattern : Word
  build   : Word → Instr

/-- NOP, LDI, MOV, and the adder, compare and shift unit. -/
def opcodeRowsLow : List OpcodeRow :=
  [ ⟨0xFFFFFFFF, 0x00000000, fun _ => .nop⟩,
    ⟨0xFFFFF0FF, 0x00000001, fun c => .ldi (fieldRd c)⟩,
    ⟨0xFFFF00FF, 0x00000002, fun c => .mov (fieldRd c) (fieldRs1 c)⟩,
    ⟨0xFFF000FF, 0x00000010, fun c => .add (fieldRd c) (fieldRs1 c) (fieldRs2 c)⟩,
    ⟨0xFFF000FF, 0x00000011, fun c => .sub (fieldRd c) (fieldRs1 c) (fieldRs2 c)⟩,
    ⟨0xFFFF00FF, 0x00000012, fun c => .neg (fieldRd c) (fieldRs1 c)⟩,
    ⟨0xFFF00FFF, 0x00000013, fun c => .cmp (fieldRs1 c) (fieldRs2 c)⟩,
    ⟨0x000000FF, 0x00000014, fun c => .shl (fieldRd c) (fieldRs1 c) (fieldShamt c)⟩,
    ⟨0x000000FF, 0x00000015, fun c => .shr (fieldRd c) (fieldRs1 c) (fieldShamt c)⟩ ]

/-- The multiplier, the divider and the Barrett unit. -/
def opcodeRowsMid : List OpcodeRow :=
  [ ⟨0xFFF000FF, 0x00000018, fun c => .mul (fieldRd c) (fieldRs1 c) (fieldRs2 c)⟩,
    ⟨0xFFF000FF, 0x0000001C, fun c => .div (fieldRd c) (fieldRs1 c) (fieldRs2 c)⟩,
    ⟨0xFFF000FF, 0x0000001D, fun c => .rem (fieldRd c) (fieldRs1 c) (fieldRs2 c)⟩,
    ⟨0xFF0000FF, 0x0000001E, fun c => .divrem (fieldRd c) (fieldRs1 c) (fieldRs2 c) (fieldRs3 c)⟩,
    ⟨0xFFFF00FF, 0x00000020, fun c => .mu (fieldRd c) (fieldRs1 c)⟩,
    ⟨0xFF0000FF, 0x00000021, fun c => .bred (fieldRd c) (fieldRs1 c) (fieldRs2 c) (fieldRs3 c)⟩,
    ⟨0xFF0000FF, 0x00000022, fun c => .modmul (fieldRd c) (fieldRs1 c) (fieldRs2 c) (fieldRs3 c)⟩,
    ⟨0xFF0000FF, 0x00000023, fun c => .modpow (fieldRd c) (fieldRs1 c) (fieldRs2 c) (fieldRs3 c)⟩ ]

/-- Number theory and the RSA datapath. -/
def opcodeRowsHigh : List OpcodeRow :=
  [ ⟨0xFFF000FF, 0x00000028, fun c => .gcd (fieldRd c) (fieldRs1 c) (fieldRs2 c)⟩,
    ⟨0xF00000FF, 0x00000029,
      fun c => .extgcd (fieldRd c) (fieldRs1 c) (fieldRs2 c) (fieldRs3 c) (fieldRs4 c)⟩,
    ⟨0xFFF000FF, 0x0000002A, fun c => .modinv (fieldRd c) (fieldRs1 c) (fieldRs2 c)⟩,
    ⟨0xFFFFF0FF, 0x00000030, fun c => .randbits (fieldRd c)⟩,
    ⟨0xFFFF00FF, 0x00000031, fun c => .mrtest (fieldRd c) (fieldRs1 c)⟩,
    ⟨0xFFFFF0FF, 0x00000032, fun c => .genprime (fieldRd c)⟩,
    ⟨0xF00FF0FF, 0x00000038, fun c => .keygen (fieldRd c) (fieldRs3 c) (fieldRs4 c)⟩,
    ⟨0xFF0000FF, 0x00000039, fun c => .sign (fieldRd c) (fieldRs1 c) (fieldRs2 c) (fieldRs3 c)⟩,
    ⟨0xF00000FF, 0x0000003A,
      fun c => .verify (fieldRd c) (fieldRs1 c) (fieldRs2 c) (fieldRs3 c) (fieldRs4 c)⟩ ]

/-- The 26 rows of R60. -/
def opcodeRows : List OpcodeRow := opcodeRowsLow ++ opcodeRowsMid ++ opcodeRowsHigh

/-- The row whose opcode is `op`, if the map has one (R61, first line). -/
def rowOf (op : BitVec 8) : Option OpcodeRow :=
  opcodeRows.find? fun r => fieldOp r.pattern == op

/-- R61: the row is chosen by the opcode alone, then the must-be-zero fields are checked, then the destinations. -/
def decode (c : Word) : Except DecodeError Instr :=
  match rowOf (fieldOp c) with
  | none => .error .reservedOpcode
  | some r =>
    if c &&& r.mask = r.pattern then
      if (r.build c).wellFormed then .ok (r.build c) else .error .equalDestinations
    else .error .mustBeZero

/-! ## The encoder (R57, R58, R64) -/

/-- Format R with `z = 0`. -/
def encodeR (op : BitVec 8) (rd rs1 rs2 rs3 rs4 : Reg) : Word :=
  0#4 ++ BitVec.ofFin (w := 4) rs4 ++ BitVec.ofFin (w := 4) rs3 ++ BitVec.ofFin (w := 4) rs2
    ++ BitVec.ofFin (w := 4) rs1 ++ BitVec.ofFin (w := 4) rd ++ op

/-- Format S. -/
def encodeS (op : BitVec 8) (rd rs1 : Reg) (shamt : BitVec 16) : Word :=
  shamt ++ BitVec.ofFin (w := 4) rs1 ++ BitVec.ofFin (w := 4) rd ++ op

/-- The command word of a command; a field its row does not use is 0. -/
def encode : Instr → Word
  | .nop => encodeR 0x00 0 0 0 0 0
  | .ldi rd => encodeR 0x01 rd 0 0 0 0
  | .mov rd rs1 => encodeR 0x02 rd rs1 0 0 0
  | .add rd rs1 rs2 => encodeR 0x10 rd rs1 rs2 0 0
  | .sub rd rs1 rs2 => encodeR 0x11 rd rs1 rs2 0 0
  | .neg rd rs1 => encodeR 0x12 rd rs1 0 0 0
  | .cmp rs1 rs2 => encodeR 0x13 0 rs1 rs2 0 0
  | .shl rd rs1 shamt => encodeS 0x14 rd rs1 shamt
  | .shr rd rs1 shamt => encodeS 0x15 rd rs1 shamt
  | .mul rd rs1 rs2 => encodeR 0x18 rd rs1 rs2 0 0
  | .div rd rs1 rs2 => encodeR 0x1C rd rs1 rs2 0 0
  | .rem rd rs1 rs2 => encodeR 0x1D rd rs1 rs2 0 0
  | .divrem rd rs1 rs2 rd2 => encodeR 0x1E rd rs1 rs2 rd2 0
  | .mu rd rs1 => encodeR 0x20 rd rs1 0 0 0
  | .bred rd rs1 rs2 rs3 => encodeR 0x21 rd rs1 rs2 rs3 0
  | .modmul rd rs1 rs2 rs3 => encodeR 0x22 rd rs1 rs2 rs3 0
  | .modpow rd rs1 rs2 rs3 => encodeR 0x23 rd rs1 rs2 rs3 0
  | .gcd rd rs1 rs2 => encodeR 0x28 rd rs1 rs2 0 0
  | .extgcd rd rs1 rs2 rd2 rd3 => encodeR 0x29 rd rs1 rs2 rd2 rd3
  | .modinv rd rs1 rs2 => encodeR 0x2A rd rs1 rs2 0 0
  | .randbits rd => encodeR 0x30 rd 0 0 0 0
  | .mrtest rd rs1 => encodeR 0x31 rd rs1 0 0 0
  | .genprime rd => encodeR 0x32 rd 0 0 0 0
  | .keygen rd rd2 rd3 => encodeR 0x38 rd 0 0 rd2 rd3
  | .sign rd rs1 rs2 rs3 => encodeR 0x39 rd rs1 rs2 rs3 0
  | .verify rd rs1 rs2 rs3 rs4 => encodeR 0x3A rd rs1 rs2 rs3 rs4

/-- The command word made of the low `nbits` bits of `w`, every bit above them 0 (a command is one 32-bit word, R56). -/
def tableWord (nbits w : Nat) : Word := BitVec.ofNat 32 (w % 2 ^ nbits)

/-- The command this decoder reads from a word whose bits are numbered as the opcode table numbers them. -/
def decodeTableWord (nbits w : Nat) : Option Instr :=
  match decode (tableWord nbits w) with
  | .ok i => some i
  | .error _ => none

end Sys2Proof
end

