-- ==== Sys2Proof/Config.lean ====
section
/-! DEFINITION. What is fixed for the machine: the implementation parameters of R6, and the FREE VALUES the spec leaves
open. A free value is an `opaque` constant without a body, so nothing can be proved about the number it stands for. -/

namespace Sys2Proof.Config

/-- `WORD`: bits per word (R6). -/
def wordBits : Nat := 32

/-- `W`: words per big register (R6). -/
def bigWords : Nat := 50

/-- `NBITS = 32 * W`: bits per big register (R6). -/
def bigBits : Nat := 1600

/-- `b`: the radix of the representation (R6). -/
def radix : Nat := 2 ^ 32

/-- `NREG`: the number of big registers (R6). -/
def numRegs : Nat := 16

/-- `KMAX`: the largest modulus length, in words, that the Barrett-based commands accept (R6, R85). -/
def kMax : Nat := 24

/-- `SHW`: the width in bits of the shift-amount field (R6, R58). -/
def shamtBits : Nat := 16

/-- `RNGW`: bits per word delivered by the random port (R6, R14). -/
def rngBits : Nat := 32

/-- `DIGEST_BITS`: the width of the source's digest; only informative, since the hash is outside the block (R6, R53). -/
def digestBits : Nat := 128

/-- `MAXCORR`: the most corrective subtractions the Barrett unit performs (R6, R87). -/
def maxCorr : Nat := 2

/-- The block's version, the top byte of ID (R2, R31). -/
def version : Nat := 1

/-- The size in bytes of the register port, offsets 0x0000 to 0x1FFF (R38). -/
def portSize : Nat := 0x2000

/-- Reset value of CONFIDENCE (R30, R37). -/
def confidenceReset : BitVec 16 := 20

/-- Reset value of RETRY_LIMIT (R30, R37). -/
def retryLimitReset : Word := 16384

/-- FREE VALUE. `PORT_BASE`, the address at which the platform places the register port (R38, 93 I12). -/
opaque portBase : Nat

/-- FREE VALUE. The word the random port delivers as its `n`-th word when the words lined up in the state have run out
(R14, R55, 93 I15): a draw under no law. -/
opaque randomWord : Nat → Word

/-- FREE VALUE. The answer to the `n`-th host read whose result the spec leaves unconstrained: a big-register word not
written since hardware reset, or the LEN of a register that has such a word (R22, 93 I2, I3). -/
opaque readDraw : Nat → Word

end Sys2Proof.Config
end

