-- ==== Sys2Proof/Machine/BigInt.lean ====
section
/-! DEFINITION. The value format of a big register: the three readings of a 1600-bit pattern, its words and its length,
and the spec's helpers on integers (R7-R10, R71). -/

namespace Sys2Proof.Machine

/-! ## Readings of a pattern (R8) -/

/-- `uval(u)`: the unsigned reading. -/
def uval (u : Big) : Nat := u.toNat

/-- `sval(u)`: the two's-complement reading. -/
def sval (u : Big) : Int := u.toInt

/-- `neg?(u)`: bit 1599, bit 31 of word 49, and no other bit (C1). -/
def isNeg (u : Big) : Bool := u.getLsbD 1599

/-- `enc(v) = v mod 2^1600`. -/
def enc (v : Int) : Big := BitVec.ofInt 1600 v

/-! ## Words (R7, R40) -/

/-- `u.w[j] = u[32j+31:32j]`. -/
def wordAt (u : Big) (j : Nat) : Word := u.extractLsb' (32 * j) 32

/-- `u` with word `j` replaced by `v` and the other words kept (R45). -/
def setWordAt (u : Big) (j : Nat) (v : Word) : Big :=
  (u &&& ~~~((BitVec.allOnes 32).setWidth 1600 <<< (32 * j))) ||| (v.setWidth 1600 <<< (32 * j))

/-! ## Length (R9) -/

/-- One more than the index of the most significant non-zero word among words `0 .. n-1`; 0 if all of them are zero. -/
def topWord (u : Big) : Nat → Nat
  | 0 => 0
  | n + 1 => if wordAt u n ≠ 0 then n + 1 else topWord u n

/-- `len(u)`: 50 for a negative pattern, else the count of significant words, at least 1. -/
def len (u : Big) : Nat := if isNeg u then 50 else max 1 (topWord u 50)

/-! ## Integers (R7, R10, R71) -/

/-- `bitLength(v)`. -/
def bitLength (v : Nat) : Nat := if v = 0 then 0 else Nat.log2 v + 1

/-- Trailing zero bits of `v`, looking at `n` bits at most. -/
def trailingZeros : Nat → Nat → Nat
  | 0, _ => 0
  | n + 1, v => if v % 2 = 1 then 0 else 1 + trailingZeros n (v / 2)

/-- `tz(v)` for `v > 0`. -/
def tz (v : Nat) : Nat := trailingZeros (bitLength v) v

/-- `fits(v)`: `v` is the signed value of some pattern. -/
def fits (v : Int) : Bool := decide (-2 ^ 1599 ≤ v) && decide (v < 2 ^ 1599)

/-- `sval64(ARG1 ++ ARG0)` (R29). -/
def sval64 (arg1 arg0 : Word) : Int := (arg1 ++ arg0 : BitVec 64).toInt

/-- `ceil(L / 32)`: the random words that `L` bits take (R15, R16). -/
def wordsFor (L : Nat) : Nat := (L + 31) / 32

end Sys2Proof.Machine
end

