-- ==== Sys2Proof/Machine/State.lean ====
section
/-! DEFINITION. The state of DSRSA-CORE as plain data: the sixteen big registers with their written bits, the control and
status registers, the engine's hidden state, the random port and the host's pending actions (10_state.md, 20_memory.md).
With it stand the reasons a step can stop, and the state after hardware reset. -/

namespace Sys2Proof.Machine

/-- One big register: its 1600-bit pattern (R8, R19) and one written bit per word, bit `j` for word `j` (R22). -/
structure BigReg where
  val     : Big
  written : BitVec 50
  deriving DecidableEq, Repr

/-- The fields of STATUS (R25); bits 3, 11 and 31:14 are reserved and hold nothing. -/
structure Status where
  /-- bit 0, BUSY -/
  busy    : Bool
  /-- bit 1, DONE -/
  done    : Bool
  /-- bit 2, ERR -/
  err     : Bool
  /-- bits 7:4, ERRCODE -/
  errcode : BitVec 4
  /-- bits 9:8, CMP -/
  cmp     : BitVec 2
  /-- bit 10, RES -/
  res     : Bool
  /-- bit 12, OVF -/
  ovf     : Bool
  /-- bit 13, LOST -/
  lost    : Bool
  deriving DecidableEq, Repr

/-- The random port (R14, R55): the words it has lined up, next first, and how many it has delivered. When the line is
empty it delivers `Config.randomWord` of the count. -/
structure Rng where
  queue : List Word
  pos   : Nat
  deriving DecidableEq, Repr

/-- What happens next at the block's boundary (R18, R49, R125): a host access to the register port, with its byte offset
and its width in bytes (R39), the host's wait, a move of the engine, or a hardware reset from the platform. -/
inductive Event where
  /-- `RD off` (R13, R65) -/
  | hostRead (off bytes : Nat)
  /-- `WR off, v` (R13, R65) -/
  | hostWrite (off bytes : Nat) (v : Word)
  /-- `WAIT` (R65): polls of STATUS until one reads BUSY = 0 -/
  | hostWait
  /-- The engine takes one random word for the command in progress (R34, R55). -/
  | engineDraw
  /-- The engine completes the command in progress (R36, R132). -/
  | engineComplete
  /-- Hardware reset (R125). -/
  | hardReset
  deriving DecidableEq, Repr

/-- The whole state of the block. -/
structure State where
  /-- `x0` .. `x15` (R19) -/
  x          : Vector BigReg 16
  /-- CTRL.IE (R28) -/
  ie         : Bool
  /-- STATUS (R25) -/
  status     : Status
  /-- CMD as a host read returns it: the last accepted command word (R24) -/
  cmd        : Word
  /-- ARG0 (R29) -/
  arg0       : Word
  /-- ARG1 (R29) -/
  arg1       : Word
  /-- BITLEN, bits 15:0 (R30) -/
  bitlen     : BitVec 16
  /-- CONFIDENCE, bits 15:0 (R30) -/
  confidence : BitVec 16
  /-- RETRY_LIMIT (R30) -/
  retryLimit : Word
  /-- The engine's latched command word (R24, R34) -/
  latched    : Word
  /-- How many random words the command in progress has consumed (R34) -/
  drawn      : Nat
  /-- The random port, positioned where the command in progress began to draw (R14, R55) -/
  rng        : Rng
  /-- MODEL'S OWN: what happens next, first first (R49) -/
  agenda     : List Event
  /-- MODEL'S OWN: the word the port answered to the last host read -/
  rdata      : Option Word
  /-- MODEL'S OWN: how many unconstrained answers host reads have been given (R22) -/
  drawPos    : Nat
  deriving DecidableEq, Repr

/-- Why the machine stops (R115). Both kinds are safe: where the model stops, no claim holds. -/
inductive Fault where
  /-- Raised by a command that reads a big register some word of which has not been written since hardware reset, in the
  step that would accept its CMD write (log entry 20), and by the meaning of such a command: the program is wrong (R22,
  R115, 93 I1). Safe. -/
  | unwrittenSource
  /-- Raised by a host access that is not 32 bits wide or whose offset is no multiple of 4: the port cannot express it,
  so the model has no step for it (R39, 93 I4). Safe. -/
  | inexpressibleAccess
  /-- Raised by a host access at an offset that does not exist, 0x2000 or more (R38). Safe. -/
  | outsidePort
  deriving DecidableEq, Repr

/-- Why the model gives no answer. -/
inductive Refusal where
  /-- Raised by `exec` alone, for an instruction without a meaning. Safe. No instruction is left so. -/
  | notModelled (mnemonic : String)
  deriving DecidableEq, Repr

/-- STATUS after reset: 0 (R37). -/
def Status.reset : Status :=
  { busy := false, done := false, err := false, errcode := 0, cmp := 0, res := false, ovf := false, lost := false }

/-- The state after hardware reset (R37, R125). The words of the big registers are unspecified with their written bits
clear; the zero they hold here is the model's (log entry 4) and no read and no command can see it. The random port, the
agenda and the answer to the last read lie outside the block's reset: nothing is lined up. -/
def State.reset : State :=
  { x          := Vector.replicate 16 ⟨0, 0⟩
    ie         := false
    status     := Status.reset
    cmd        := 0
    arg0       := 0
    arg1       := 0
    bitlen     := 0
    confidence := Config.confidenceReset
    retryLimit := Config.retryLimitReset
    latched    := 0
    drawn      := 0
    rng        := ⟨[], 0⟩
    agenda     := []
    rdata      := none
    drawPos    := 0 }

end Sys2Proof.Machine
end

