-- ==== Sys2Proof/Machine/Flags.lean ====
section
/-! DEFINITION. STATUS: its word, its error codes, and every change the rules make to it (R24-R27, R33, R48, R111, R112). -/

namespace Sys2Proof.Machine

/-- The code of an error in `STATUS.ERRCODE` (R111). -/
def errCodeBits : ErrCode → BitVec 4
  | .illegal => 1
  | .divZero => 2
  | .domain => 3
  | .cap => 4
  | .noInv => 5
  | .timeout => 6

/-- The code of a signed comparison in `STATUS.CMP` (R27). -/
def cmpBits : Ordering → BitVec 2
  | .eq => 0b00
  | .lt => 0b01
  | .gt => 0b10

/-- STATUS as a host read returns it (R25): the reserved bits are 0. -/
def Status.toWord (t : Status) : Word :=
  0#18 ++ BitVec.ofBool t.lost ++ BitVec.ofBool t.ovf ++ 0#1 ++ BitVec.ofBool t.res ++ t.cmp ++ t.errcode
    ++ 0#1 ++ BitVec.ofBool t.err ++ BitVec.ofBool t.done ++ BitVec.ofBool t.busy

/-- What a command that completes without error writes besides DONE, ERR and ERRCODE (R11, R33): the register writes in
pseudocode order, a new CMP or RES where the command has one, and whether its result did not fit. -/
structure Result where
  writes : List (Reg × Big) := []
  cmp    : Option Ordering := none
  res    : Option Bool := none
  ovf    : Bool := false
  deriving DecidableEq, Repr

/-- An accepted CMD write sets BUSY and clears DONE, ERR and ERRCODE (R24). -/
def Status.accept (t : Status) : Status :=
  { t with busy := true, done := false, err := false, errcode := 0 }

/-- A completion without error (R33, R36): OVF is sticky, CMP and RES change only for the commands that write them. -/
def Status.completed (t : Status) (r : Result) : Status :=
  { t with
    busy := false
    done := true
    err := false
    errcode := 0
    cmp := (r.cmp.map cmpBits).getD t.cmp
    res := r.res.getD t.res
    ovf := t.ovf || r.ovf }

/-- A completion with error `e` (R112): nothing but BUSY, DONE, ERR and ERRCODE changes. -/
def Status.failed (t : Status) (e : ErrCode) : Status :=
  { t with busy := false, done := true, err := true, errcode := errCodeBits e }

/-- A host write of `v` to STATUS clears DONE, OVF and LOST where the bit of `v` is 1; every other bit of `v` is
ignored (R26). -/
def Status.writeOneToClear (t : Status) (v : Word) : Status :=
  { t with
    done := t.done && !v.getLsbD 1
    ovf := t.ovf && !v.getLsbD 12
    lost := t.lost && !v.getLsbD 13 }

/-- A refused host write sets LOST and changes nothing else (R48). -/
def Status.refuse (t : Status) : Status := { t with lost := true }

end Sys2Proof.Machine
end

