-- ==== Sys2Proof/Machine/Operands.lean ====
section
/-! DEFINITION. Operands of a command (R59): reading a big register by its index, the written check on sources (R22), and
the random words of the port with the two helpers that draw them (R14-R16). -/

namespace Sys2Proof.Machine

/-! ## Big registers -/

/-- Big register `r`. -/
def State.reg (s : State) (r : Reg) : BigReg := s.x[r.val]

/-- `x[r]`, its 1600-bit pattern. -/
def State.val (s : State) (r : Reg) : Big := (s.reg r).val

/-- `sval(x[r])`. -/
def State.sval (s : State) (r : Reg) : Int := Machine.sval (s.val r)

/-- Every word of the register has been written since hardware reset (R22). -/
def BigReg.isWritten (b : BigReg) : Bool := b.written == BitVec.allOnes 50

/-- Every named register is wholly written, so that a command may read it (R22). -/
def State.readable (s : State) (rs : List Reg) : Bool := rs.all fun r => (s.reg r).isWritten

/-- Run `k` on a state whose sources `rs` are all written; a command that reads a register with an unwritten word has no
meaning: the program is wrong (R22, R115, R128, 92 D35, 93 I1). -/
def withSources (rs : List Reg) (s : State) (k : State → Host.Outcome State Fault Refusal) :
    Host.Outcome State Fault Refusal :=
  if s.readable rs then k s else .fault .unwrittenSource

/-! ## The random port -/

/-- `RngNext()`: the next word of the port (R14). -/
def Rng.next (g : Rng) : Word × Rng :=
  match g.queue with
  | [] => (Config.randomWord g.pos, { queue := [], pos := g.pos + 1 })
  | w :: q => (w, { queue := q, pos := g.pos + 1 })

/-- The port after `n` words have been taken. -/
def Rng.skip : Nat → Rng → Rng
  | 0, g => g
  | n + 1, g => Rng.skip n g.next.2

/-- `sum_{i<m} RngNext() * 2^(32 i)`: `m` words, the least significant drawn first (R15, R16). -/
def drawWords : Nat → Rng → Nat × Rng
  | 0, g => (0, g)
  | m + 1, g =>
    let w := g.next
    let v := drawWords m w.2
    (w.1.toNat + Config.radix * v.1, v.2)

/-- `RawBits(L)` (R16). -/
def rawBits (L : Nat) (g : Rng) : Nat × Rng :=
  let v := drawWords (wordsFor L) g
  (v.1 % 2 ^ L, v.2)

/-- `RandomBits(L)` (R15): the top requested bit is always set. -/
def randomBits (L : Nat) (g : Rng) : Nat × Rng :=
  let v := drawWords (wordsFor L) g
  ((v.1 % 2 ^ L) ||| 2 ^ (L - 1), v.2)

end Sys2Proof.Machine
end

