-- ==== Sys2Proof/Machine/Ops.lean ====
section
/-! DEFINITION. The named operations on the state that the commands and the port share: register writes, the completion of
a command without and with an error (the block's only exception), acceptance of a command, and the two resets
(R21, R24, R36, R45, R112, R125, R126). -/

namespace Sys2Proof.Machine

/-! ## Register writes -/

/-- A committed command writes all 50 words of `r`, and their written bits are set (R22, R36). -/
def State.setReg (s : State) (r : Reg) (v : Big) : State :=
  { s with x := s.x.set r.val ⟨v, BitVec.allOnes 50⟩ }

/-- The register writes of a command, in pseudocode order. -/
def State.setRegs (s : State) : List (Reg × Big) → State
  | [] => s
  | (r, v) :: ws => (s.setReg r v).setRegs ws

/-- A host write of word `j` of `r`: it sets that word's written bit and leaves the other 49 words (R45). -/
def State.setRegWord (s : State) (r : Reg) (j : Nat) (v : Word) : State :=
  { s with x := s.x.set r.val ⟨setWordAt (s.val r) j v, (s.reg r).written ||| BitVec.twoPow 50 j⟩ }

/-! ## Status, random port -/

def State.setStatus (s : State) (t : Status) : State := { s with status := t }

/-- The port has moved on to `g`: the words taken since stay taken (R55). -/
def State.setRng (s : State) (g : Rng) : State := { s with rng := g }

/-- The command in progress is over: the engine's count of words it has drawn ends with it (R34). -/
def State.endDraws (s : State) : State := { s with drawn := 0 }

/-! ## Completion -/

/-- Completion without error, in one step (R36). -/
def State.commit (s : State) (r : Result) : State :=
  ((s.setRegs r.writes).setStatus (s.status.completed r)).endDraws

/-- `raise E()`: completion with an error, in one step (R12, R112). No register is written and no state is saved; the
record of the error is STATUS and CMD (R118). There is no return from it (R119). -/
def State.raise (s : State) (e : ErrCode) : State :=
  (s.setStatus (s.status.failed e)).endDraws

/-- A command completes with its results or with an error; either is a next state. -/
def finish (s : State) (r : Except ErrCode Result) : Host.Outcome State Fault Refusal :=
  match r with
  | .ok r => .next (s.commit r)
  | .error e => .next (s.raise e)

/-- A command that draws random words completes: the words it took stay taken, with or without error (R55, R112). -/
def finishDraw (s : State) (r : Except ErrCode Result × Rng) : Host.Outcome State Fault Refusal :=
  finish (s.setRng r.2) r.1

/-- The result of an ADD, SUB, NEG, MUL or SHL: the wrapped value, with OVF if the true one does not fit (R71). -/
def wrapped (rd : Reg) (v : Int) : Result := { writes := [(rd, enc v)], ovf := !fits v }

/-- The result of a command that writes one register and no further STATUS field. -/
def oneWrite (rd : Reg) (v : Int) : Result := { writes := [(rd, enc v)] }

/-! ## Acceptance, abandonment, resets -/

/-- An accepted CMD write: four things in one step (R24). -/
def State.acceptCmd (s : State) (c : Word) : State :=
  { s with latched := c, cmd := c, drawn := 0, status := s.status.accept }

/-- The engine may start on the command word `c`: it is no command, and so reads no register (R61), or every source it names
is wholly written (R22). -/
def State.sourcesWritten (s : State) (c : Word) : Bool :=
  match decode c with
  | .ok i => s.readable i.sources
  | .error _ => true

/-- A CMD write to an idle engine. A command that reads an unwritten source is a fault (R22, R115, R128, 92 D35, 93 I1).
DESIGN CHOICE (log entry 20) is only the step: the fault is recorded in the step that would accept the write, since a command
reads its sources at its start (92 D10, R131); so no reset and no further host access can come between. -/
def State.startCmd (s : State) (c : Word) : Host.Outcome State Fault Refusal :=
  if s.sourcesWritten c then .next (s.acceptCmd c) else .fault .unwrittenSource

/-- The command in progress is abandoned with nothing committed; the random words it consumed stay consumed
(R125, R126). -/
def State.abandon (s : State) : State :=
  { s with rng := Rng.skip s.drawn s.rng, drawn := 0 }

/-- A CTRL write with SRST set (R126): everything but the big registers and their written bits takes its reset value. -/
def State.softReset (s : State) : State :=
  { s.abandon with
    ie := false
    status := Status.reset
    cmd := 0
    arg0 := 0
    arg1 := 0
    bitlen := 0
    confidence := Config.confidenceReset
    retryLimit := Config.retryLimitReset
    latched := 0 }

/-- Hardware reset, whatever the block is doing (R125). -/
def State.hardReset (s : State) : State :=
  { State.reset with
    rng := Rng.skip s.drawn s.rng
    agenda := s.agenda
    rdata := s.rdata
    drawPos := s.drawPos }

/-- `irq = CTRL.IE AND STATUS.DONE` (R116). -/
def State.irq (s : State) : Bool := s.ie && s.status.done

/-- The command word the engine runs: the latched one (R24, R51). -/
def State.fetch (s : State) : Word := s.latched

end Sys2Proof.Machine
end

