-- ==== Sys2Proof/Machine/AddSubShift.lean ====
section
/-! DEFINITION. The adder/subtractor, compare and shift commands: ADD, SUB, NEG, CMP, SHL, SHR (R70-R77). Each result is
the encoding of the exact integer its rule names; the carry chain of R70 that yields the same pattern stands in
Datapath.lean. -/

namespace Sys2Proof.Machine

/-- ADD (R72). -/
def execAdd (rd rs1 rs2 : Reg) (s : State) : Host.Outcome State Fault Refusal :=
  withSources [rs1, rs2] s fun s => finish s (.ok (wrapped rd (s.sval rs1 + s.sval rs2)))

/-- SUB (R73). -/
def execSub (rd rs1 rs2 : Reg) (s : State) : Host.Outcome State Fault Refusal :=
  withSources [rs1, rs2] s fun s => finish s (.ok (wrapped rd (s.sval rs1 - s.sval rs2)))

/-- NEG (R74): the negation of 0 is 0 (C3). -/
def execNeg (rd rs1 : Reg) (s : State) : Host.Outcome State Fault Refusal :=
  withSources [rs1] s fun s => finish s (.ok (wrapped rd (-s.sval rs1)))

/-- The unsigned comparison of words `n-1` down to 0 of two patterns: the most significant difference decides (R75). -/
def compareWords (u v : Big) : Nat → Ordering
  | 0 => .eq
  | n + 1 =>
    if wordAt u n ≠ wordAt v n then
      if (wordAt u n).toNat < (wordAt v n).toNat then .lt else .gt
    else compareWords u v n

/-- The source's comparison procedure: the sign indicators dominate, else the words decide (R75). -/
def compareBig (u v : Big) : Ordering :=
  if isNeg u ≠ isNeg v then (if isNeg u then .lt else .gt) else compareWords u v 50

/-- CMP writes STATUS.CMP and no register (R75). -/
def execCmp (rs1 rs2 : Reg) (s : State) : Host.Outcome State Fault Refusal :=
  withSources [rs1, rs2] s fun s => finish s (.ok { cmp := some (compareBig (s.val rs1) (s.val rs2)) })

/-- SHL by any amount 0..65535 (R76). -/
def execShl (rd rs1 : Reg) (shamt : BitVec 16) (s : State) : Host.Outcome State Fault Refusal :=
  withSources [rs1] s fun s => finish s (.ok (wrapped rd (s.sval rs1 * 2 ^ shamt.toNat)))

/-- SHR, arithmetic: the quotient by a positive power of two, rounded toward minus infinity (R77). -/
def execShr (rd rs1 : Reg) (shamt : BitVec 16) (s : State) : Host.Outcome State Fault Refusal :=
  withSources [rs1] s fun s => finish s (.ok (oneWrite rd (s.sval rs1 / 2 ^ shamt.toNat)))

end Sys2Proof.Machine
end

