-- ==== Sys2Proof/Machine/DataMovement.lean ====
section
/-! DEFINITION. Data movement commands: NOP, LDI, MOV (R67-R69). -/

namespace Sys2Proof.Machine

/-- NOP completes with no further effect and reads no register (R67). -/
def execNop (s : State) : Host.Outcome State Fault Refusal := finish s (.ok {})

/-- LDI loads the signed 64-bit constant of ARG1:ARG0, sign-extended over all 1600 bits (R68). -/
def execLdi (rd : Reg) (s : State) : Host.Outcome State Fault Refusal :=
  finish s (.ok (oneWrite rd (sval64 s.arg1 s.arg0)))

/-- MOV copies all 50 words (R69). -/
def execMov (rd rs1 : Reg) (s : State) : Host.Outcome State Fault Refusal :=
  withSources [rs1] s fun s => finish s (.ok { writes := [(rd, s.val rs1)] })

end Sys2Proof.Machine
end

