-- ==== Sys2Proof/Machine/Divide.lean ====
section
/-! DEFINITION. The division commands: DIV, REM, DIVREM (R80-R84). The architectural result of the divide path is the exact
pair (R81); the Knuth datapath that yields it stands in Datapath.lean. -/

namespace Sys2Proof.Machine

/-- `DivMod(A, B)` (R80). The last line is reached only with `A ≥ B > 0`. -/
def divMod (a b : Int) : Except ErrCode (Int × Int) :=
  if b = 0 then .error .divZero
  else if b > a then .ok (0, a)
  else if b < 0 then .error .domain
  else .ok (a / b, a % b)

/-- DIV (R82). -/
def execDiv (rd rs1 rs2 : Reg) (s : State) : Host.Outcome State Fault Refusal :=
  withSources [rs1, rs2] s fun s =>
    finish s ((divMod (s.sval rs1) (s.sval rs2)).map fun qr => oneWrite rd qr.1)

/-- REM (R83). -/
def execRem (rd rs1 rs2 : Reg) (s : State) : Host.Outcome State Fault Refusal :=
  withSources [rs1, rs2] s fun s =>
    finish s ((divMod (s.sval rs1) (s.sval rs2)).map fun qr => oneWrite rd qr.2)

/-- DIVREM (R84): equal destinations raise EILLEGAL before any register is read (R61). -/
def execDivrem (rd rs1 rs2 rd2 : Reg) (s : State) : Host.Outcome State Fault Refusal :=
  if rd = rd2 then finish s (.error .illegal)
  else
    withSources [rs1, rs2] s fun s =>
      finish s ((divMod (s.sval rs1) (s.sval rs2)).map fun qr =>
        { writes := [(rd, enc qr.1), (rd2, enc qr.2)] })

end Sys2Proof.Machine
end

