-- ==== Sys2Proof/Machine/Modular.lean ====
section
/-! DEFINITION. The Barrett unit and modular exponentiation: MU, BRED, MODMUL, MODPOW (R85-R93). -/

namespace Sys2Proof.Machine

/-- A check of a command's pseudocode: raise `e` where the condition holds. -/
def raiseIf (c : Bool) (e : ErrCode) : Except ErrCode Unit := if c then .error e else .ok ()

/-- `Mu(N) = floor(b^(2k) / N)` with `k = len(N)` (R86). -/
def muConst (n : Nat) : Nat := Config.radix ^ (2 * len (enc n)) / n

/-- The corrective subtractions: while `r ≥ N`, at most `c` times (R87). -/
def correct (n : Nat) : Nat → Nat → Nat
  | 0, r => r
  | c + 1, r => if n ≤ r then correct n c (r - n) else r

/-- `BarrettCore(X, N, MU, k)` (R87). The difference `r1 - r2`, raised by `b^(k+1)` where it is negative, stays a natural
number. -/
def barrettCore (x n mu k : Nat) : Except ErrCode Nat :=
  let q1 := x / Config.radix ^ (k - 1)
  let q2 := q1 * mu
  let q3 := q2 / Config.radix ^ (k + 1)
  let r1 := x % Config.radix ^ (k + 1)
  let r2 := (q3 * n) % Config.radix ^ (k + 1)
  let r := if r1 < r2 then r1 + Config.radix ^ (k + 1) - r2 else r1 - r2
  let r := correct n Config.maxCorr r
  if n ≤ r then .error .domain else .ok r

/-- The loop of ModPowCore over exponent bits `i .. i+cnt-1`, least significant first; the accumulator is multiplied before
the base is squared (R92). -/
def modPowLoop (e n mu k : Nat) : (cnt i a r : Nat) → Except ErrCode Nat
  | 0, _, _, r => .ok r
  | cnt + 1, i, a, r => do
    let r' ← if e.testBit i then barrettCore (r * a) n mu k else pure r
    let a' ← barrettCore (a * a) n mu k
    modPowLoop e n mu k cnt (i + 1) a' r'

/-- `ModPowCore(A, E, N)` (R92): the base is reduced first and the accumulator starts at `1 mod N`. -/
def modPowCore (a e n : Nat) : Except ErrCode Nat :=
  modPowLoop e n (muConst n) (len (enc n)) (bitLength e) 0 (a % n) (1 % n)

/-- The checks and the value of MU (R89). -/
def muValue (n : Big) : Except ErrCode Nat := do
  raiseIf (sval n = 0) .divZero
  raiseIf (sval n < 0) .domain
  raiseIf (Config.kMax < len n) .cap
  pure (muConst (sval n).toNat)

/-- The checks and the value of BRED (R90). -/
def bredValue (x n mu : Big) : Except ErrCode Nat := do
  raiseIf (sval n = 0) .divZero
  raiseIf (sval n < 0 ∨ sval x < 0 ∨ sval mu < 0) .domain
  raiseIf (Config.kMax < len n) .cap
  raiseIf ((sval x).toNat ≥ Config.radix ^ (2 * len n) ∨ (sval mu).toNat > Config.radix ^ (len n + 1)) .domain
  barrettCore (sval x).toNat (sval n).toNat (sval mu).toNat (len n)

/-- The checks and the value of MODMUL (R91). -/
def modmulValue (a b n : Big) : Except ErrCode Nat := do
  raiseIf (sval n = 0) .divZero
  raiseIf (sval n < 0 ∨ sval a < 0 ∨ sval b < 0) .domain
  raiseIf (Config.kMax < len n) .cap
  let m := (sval n).toNat
  barrettCore ((sval a).toNat % m * ((sval b).toNat % m)) m (muConst m) (len n)

/-- The checks and the value of MODPOW (R93). -/
def modpowValue (a e n : Big) : Except ErrCode Nat := do
  raiseIf (sval n = 0) .divZero
  raiseIf (sval n < 0) .domain
  raiseIf (sval a < 0 ∨ sval e < 0) .domain
  raiseIf (Config.kMax < len n) .cap
  modPowCore (sval a).toNat (sval e).toNat (sval n).toNat

/-- MU (R89). -/
def execMu (rd rs1 : Reg) (s : State) : Host.Outcome State Fault Refusal :=
  withSources [rs1] s fun s => finish s ((muValue (s.val rs1)).map fun (v : Nat) => oneWrite rd v)

/-- BRED (R90). -/
def execBred (rd rs1 rs2 rs3 : Reg) (s : State) : Host.Outcome State Fault Refusal :=
  withSources [rs1, rs2, rs3] s fun s =>
    finish s ((bredValue (s.val rs1) (s.val rs2) (s.val rs3)).map fun (v : Nat) => oneWrite rd v)

/-- MODMUL (R91). -/
def execModmul (rd rs1 rs2 rs3 : Reg) (s : State) : Host.Outcome State Fault Refusal :=
  withSources [rs1, rs2, rs3] s fun s =>
    finish s ((modmulValue (s.val rs1) (s.val rs2) (s.val rs3)).map fun (v : Nat) => oneWrite rd v)

/-- MODPOW (R93). -/
def execModpow (rd rs1 rs2 rs3 : Reg) (s : State) : Host.Outcome State Fault Refusal :=
  withSources [rs1, rs2, rs3] s fun s =>
    finish s ((modpowValue (s.val rs1) (s.val rs2) (s.val rs3)).map fun (v : Nat) => oneWrite rd v)

end Sys2Proof.Machine
end

