-- ==== Sys2Proof/Machine/Multiply.lean ====
section
/-! DEFINITION. The multiplier command: MUL (R78, R79). The schoolbook datapath of R78, whose value is
`enc(uval(p) * uval(q))`, stands in Datapath.lean. -/

namespace Sys2Proof.Machine

/-- The sign-magnitude procedure of R79: magnitudes are unsigned patterns, so that of `-2^1599` does not overflow. -/
def mulSigned (u v : Big) : Big :=
  let p : Big := enc (sval u).natAbs
  let q : Big := enc (sval v).natAbs
  let r : Big := enc ((uval p * uval q : Nat) : Int)
  if xor (decide (sval u < 0)) (decide (sval v < 0)) then enc (-(uval r : Int)) else r

/-- MUL (R79). -/
def execMul (rd rs1 rs2 : Reg) (s : State) : Host.Outcome State Fault Refusal :=
  withSources [rs1, rs2] s fun s =>
    finish s (.ok { writes := [(rd, mulSigned (s.val rs1) (s.val rs2))], ovf := !fits (s.sval rs1 * s.sval rs2) })

end Sys2Proof.Machine
end

