-- ==== Sys2Proof/Machine/NumberTheory.lean ====
section
/-! DEFINITION. Euclid, the extended Euclid, random bits, the Miller-Rabin engine and the prime search: GCD, EXTGCD, MODINV,
RANDBITS, MRTEST, GENPRIME (R94-R105). Loops that a rule bounds by RETRY_LIMIT or CONFIDENCE recurse on that bound;
Euclid's loops recurse on a bound that the falling remainder never reaches (log entry 15). -/

namespace Sys2Proof.Machine

/-! ## Euclid (R94, R95) -/

/-- Euclid's loop, at most `fuel` times. -/
def euclidLoop : (fuel a b : Nat) → Nat
  | 0, a, _ => a
  | fuel + 1, a, b => if b = 0 then a else euclidLoop fuel b (a % b)

/-- `EuclidCore(a, b)` (R94): `b` falls at every turn, so `b + 1` turns suffice. -/
def euclidCore (a b : Nat) : Nat := euclidLoop (b + 1) a b

/-- The loop of ExtEuclidCore on the remainders `r0, r1` and the coefficients, at most `fuel` times. -/
def extEuclidLoop : (fuel r0 r1 : Nat) → (s0 s1 t0 t1 : Int) → Nat × Int × Int
  | 0, r0, _, s0, _, t0, _ => (r0, s0, t0)
  | fuel + 1, r0, r1, s0, s1, t0, t1 =>
    if r1 = 0 then (r0, s0, t0)
    else
      let q : Int := (r0 / r1 : Nat)
      extEuclidLoop fuel r1 (r0 % r1) s1 (s0 - q * s1) t1 (t0 - q * t1)

/-- `ExtEuclidCore(a, b)` (R95): gcd, coefficient of `a`, coefficient of `b`. -/
def extEuclidCore (a b : Nat) : Nat × Int × Int := extEuclidLoop (b + 1) a b 1 0 0 1

/-- `ModInvCore(E, N)` (R98): no inverse is a tagged failure, never the value 0 (C6). -/
def modInvCore (e n : Nat) : Except ErrCode Int :=
  let r := extEuclidCore e n
  if r.1 ≠ 1 then .error .noInv else .ok (if r.2.1 < 0 then r.2.1 + n else r.2.1)

/-- The check and the value of GCD (R96). -/
def gcdValue (a b : Int) : Except ErrCode Nat := do
  raiseIf (a < 0 ∨ b < 0) .domain
  pure (euclidCore a.toNat b.toNat)

/-- The check and the values of EXTGCD (R97). -/
def extgcdValue (a b : Int) : Except ErrCode (Nat × Int × Int) := do
  raiseIf (a < 0 ∨ b < 0) .domain
  pure (extEuclidCore a.toNat b.toNat)

/-- The checks and the value of MODINV (R99). -/
def modinvValue (e n : Int) : Except ErrCode Int := do
  raiseIf (n = 0) .divZero
  raiseIf (n < 0 ∨ e < 0) .domain
  modInvCore e.toNat n.toNat

/-- GCD (R96). -/
def execGcd (rd rs1 rs2 : Reg) (s : State) : Host.Outcome State Fault Refusal :=
  withSources [rs1, rs2] s fun s => finish s ((gcdValue (s.sval rs1) (s.sval rs2)).map fun (v : Nat) => oneWrite rd v)

/-- EXTGCD (R97): two equal destinations raise EILLEGAL before any register is read (R61). -/
def execExtgcd (rd rs1 rs2 rd2 rd3 : Reg) (s : State) : Host.Outcome State Fault Refusal :=
  if rd = rd2 ∨ rd = rd3 ∨ rd2 = rd3 then finish s (.error .illegal)
  else
    withSources [rs1, rs2] s fun s =>
      finish s ((extgcdValue (s.sval rs1) (s.sval rs2)).map fun v =>
        { writes := [(rd, enc v.1), (rd2, enc v.2.1), (rd3, enc v.2.2)] })

/-- MODINV (R99). -/
def execModinv (rd rs1 rs2 : Reg) (s : State) : Host.Outcome State Fault Refusal :=
  withSources [rs1, rs2] s fun s => finish s ((modinvValue (s.sval rs1) (s.sval rs2)).map fun v => oneWrite rd v)

/-! ## Random bits (R100) -/

/-- The check and the value of RANDBITS (R100): out of range, no word is drawn. -/
def randbitsValue (L : Nat) (g : Rng) : Except ErrCode Nat × Rng :=
  if L < 1 ∨ 1599 < L then (.error .domain, g)
  else
    let v := randomBits L g
    (.ok v.1, v.2)

/-- RANDBITS (R100). -/
def execRandbits (rd : Reg) (s : State) : Host.Outcome State Fault Refusal :=
  let v := randbitsValue s.bitlen.toNat s.rng
  finishDraw s (v.1.map fun (v : Nat) => oneWrite rd v, v.2)

/-! ## Miller-Rabin (R101-R103) -/

/-- `Witness(C)` with `tries` tries left (R101). -/
def witness (c : Nat) : (tries : Nat) → Rng → Except ErrCode Nat × Rng
  | 0, g => (.error .timeout, g)
  | tries + 1, g =>
    let a := rawBits (bitLength c) g
    if 2 ≤ a.1 ∧ a.1 < c then (.ok a.1, a.2) else witness c tries a.2

/-- The squarings `j = 1 .. s-1` of one round: does some one give `C - 1`? (R102) -/
def squarings (c : Nat) : (cnt y : Nat) → Except ErrCode Bool
  | 0, _ => .ok false
  | cnt + 1, y => do
    let y ← modPowCore y 2 c
    if y = c - 1 then pure true else squarings c cnt y

/-- One round of the test with witness `a`, where `C - 1 = 2^s * t` (R102): true where it passes. -/
def roundPasses (c s t a : Nat) : Except ErrCode Bool :=
  if euclidCore a c ≠ 1 then .ok false
  else do
    let y ← modPowCore a t c
    if y = 1 ∨ y = c - 1 then pure true else squarings c (s - 1) y

/-- The rounds of the test; a round that fails ends it and no later one draws words (R102). -/
def mrRounds (c s t limit : Nat) : (rounds : Nat) → Rng → Except ErrCode Bool × Rng
  | 0, g => (.ok true, g)
  | rounds + 1, g =>
    match witness c limit g with
    | (.error e, g) => (.error e, g)
    | (.ok a, g) =>
      match roundPasses c s t a with
      | .error e => (.error e, g)
      | .ok false => (.ok false, g)
      | .ok true => mrRounds c s t limit rounds g

/-- `MR(C)` (R102): true for PRIME, false for COMPOSITE; `conf` is CONFIDENCE and `limit` RETRY_LIMIT. -/
def millerRabin (c : Int) (conf limit : Nat) (g : Rng) : Except ErrCode Bool × Rng :=
  if c < 0 then (.ok false, g)
  else if c = 0 ∨ c = 1 then (.ok false, g)
  else if c = 2 ∨ c = 3 then (.ok true, g)
  else if c % 2 = 0 then (.ok false, g)
  else if Config.kMax < len (enc c) then (.error .cap, g)
  else
    let n := c.toNat
    let s := tz (n - 1)
    mrRounds n s ((n - 1) / 2 ^ s) limit conf g

/-- MRTEST writes its verdict to the destination and to STATUS.RES (R103). -/
def execMrtest (rd rs1 : Reg) (s : State) : Host.Outcome State Fault Refusal :=
  withSources [rs1] s fun s =>
    let v := millerRabin (s.sval rs1) s.confidence.toNat s.retryLimit.toNat s.rng
    finishDraw s (v.1.map fun b => { writes := [(rd, enc (if b then 1 else 0))], res := some b }, v.2)

/-! ## Prime search (R104, R105) -/

/-- The loop of GenPrimeCore with `attempts` candidates left (R104). -/
def genPrimeLoop (L conf limit : Nat) : (attempts : Nat) → Rng → Except ErrCode Nat × Rng
  | 0, g => (.error .timeout, g)
  | attempts + 1, g =>
    let v := randomBits L g
    let c := v.1 ||| 1
    match millerRabin c conf limit v.2 with
    | (.error e, g) => (.error e, g)
    | (.ok true, g) => (.ok c, g)
    | (.ok false, g) => genPrimeLoop L conf limit attempts g

/-- `GenPrimeCore(L)` (R104). -/
def genPrimeCore (L conf limit : Nat) (g : Rng) : Except ErrCode Nat × Rng := genPrimeLoop L conf limit limit g

/-- The check and the value of GENPRIME (R105). -/
def genprimeValue (L conf limit : Nat) (g : Rng) : Except ErrCode Nat × Rng :=
  if L < 2 ∨ 32 * Config.kMax < L then (.error .domain, g) else genPrimeCore L conf limit g

/-- GENPRIME (R105). -/
def execGenprime (rd : Reg) (s : State) : Host.Outcome State Fault Refusal :=
  let v := genprimeValue s.bitlen.toNat s.confidence.toNat s.retryLimit.toNat s.rng
  finishDraw s (v.1.map fun (v : Nat) => oneWrite rd v, v.2)

end Sys2Proof.Machine
end

