-- ==== Sys2Proof/Machine/Rsa.lean ====
section
/-! DEFINITION. The RSA datapath: KEYGEN, SIGN, VERIFY (R106-R109). -/

namespace Sys2Proof.Machine

/-! ## Key generation (R106, R107) -/

/-- The search for a public exponent with `attempts` samples of `eb` bits left, and its private exponent (R106). -/
def exponentLoop (n lam eb : Nat) : (attempts : Nat) → Rng → Except ErrCode (Nat × Int) × Rng
  | 0, g => (.error .timeout, g)
  | attempts + 1, g =>
    let e := randomBits eb g
    if euclidCore e.1 lam = 1 ∧ e.1 ≤ n then ((modInvCore e.1 lam).map fun d => (e.1, d), e.2)
    else exponentLoop n lam eb attempts e.2

/-- `KeyGenCore(L)` (R106): p of `L` bits, then q of `L - 1` bits, then the exponents; the result is `(n, e, d)`. -/
def keyGenCore (L conf limit : Nat) (g : Rng) : Except ErrCode (Nat × Nat × Int) × Rng :=
  match genPrimeCore L conf limit g with
  | (.error e, g) => (.error e, g)
  | (.ok p, g) =>
    match genPrimeCore (L - 1) conf limit g with
    | (.error e, g) => (.error e, g)
    | (.ok q, g) =>
      let n := p * q
      let lam := (p - 1) * (q - 1)
      let r := exponentLoop n lam (bitLength n - 1) limit g
      (r.1.map fun ed => (n, ed.1, ed.2), r.2)

/-- The check and the values of KEYGEN (R107). -/
def keygenValue (L conf limit : Nat) (g : Rng) : Except ErrCode (Nat × Nat × Int) × Rng :=
  if L < 3 ∨ 384 < L then (.error .domain, g) else keyGenCore L conf limit g

/-- KEYGEN (R107): two equal destinations raise EILLEGAL (R61). -/
def execKeygen (rd rd2 rd3 : Reg) (s : State) : Host.Outcome State Fault Refusal :=
  if rd = rd2 ∨ rd = rd3 ∨ rd2 = rd3 then finish s (.error .illegal)
  else
    let v := keygenValue s.bitlen.toNat s.confidence.toNat s.retryLimit.toNat s.rng
    finishDraw s (v.1.map fun k => { writes := [(rd, enc k.1), (rd2, enc k.2.1), (rd3, enc k.2.2)] }, v.2)

/-! ## Sign and verify (R108, R109) -/

/-- SIGN is MODPOW of the digest, the private exponent and the modulus (R108). -/
def execSign (rd rs1 rs2 rs3 : Reg) (s : State) : Host.Outcome State Fault Refusal :=
  withSources [rs1, rs2, rs3] s fun s =>
    finish s ((modpowValue (s.val rs1) (s.val rs2) (s.val rs3)).map fun (v : Nat) => oneWrite rd v)

/-- The verdict of VERIFY (R109): malformed input is false, and the digest is compared as lifted, never reduced. -/
def verifyValue (sig e n h : Big) : Except ErrCode Bool :=
  if sval n ≤ 0 ∨ Config.kMax < len n ∨ sval e < 0 ∨ sval sig < 0 ∨ sval sig ≥ sval n then .ok false
  else (modPowCore (sval sig).toNat (sval e).toNat (sval n).toNat).map fun v => decide ((v : Int) = sval h)

/-- VERIFY writes its verdict to the destination and to STATUS.RES (R109). -/
def execVerify (rd rs1 rs2 rs3 rs4 : Reg) (s : State) : Host.Outcome State Fault Refusal :=
  withSources [rs1, rs2, rs3, rs4] s fun s =>
    finish s ((verifyValue (s.val rs1) (s.val rs2) (s.val rs3) (s.val rs4)).map fun b =>
      { writes := [(rd, enc (if b then 1 else 0))], res := some b })

end Sys2Proof.Machine
end

