-- ==== Sys2Proof/Machine/Dispatch.lean ====
section
/-! DEFINITION. The meaning of each command: its execution from its sources to its completion (R11, R36). -/

namespace Sys2Proof.Machine

def exec (i : Instr) (s : State) : Host.Outcome State Fault Refusal :=
  match i with
  | .nop => Sys2Proof.Machine.execNop s
  | .ldi rd => Sys2Proof.Machine.execLdi rd s
  | .mov rd rs1 => Sys2Proof.Machine.execMov rd rs1 s
  | .add rd rs1 rs2 => Sys2Proof.Machine.execAdd rd rs1 rs2 s
  | .sub rd rs1 rs2 => Sys2Proof.Machine.execSub rd rs1 rs2 s
  | .neg rd rs1 => Sys2Proof.Machine.execNeg rd rs1 s
  | .cmp rs1 rs2 => Sys2Proof.Machine.execCmp rs1 rs2 s
  | .shl rd rs1 shamt => Sys2Proof.Machine.execShl rd rs1 shamt s
  | .shr rd rs1 shamt => Sys2Proof.Machine.execShr rd rs1 shamt s
  | .mul rd rs1 rs2 => Sys2Proof.Machine.execMul rd rs1 rs2 s
  | .div rd rs1 rs2 => Sys2Proof.Machine.execDiv rd rs1 rs2 s
  | .rem rd rs1 rs2 => Sys2Proof.Machine.execRem rd rs1 rs2 s
  | .divrem rd rs1 rs2 rd2 => Sys2Proof.Machine.execDivrem rd rs1 rs2 rd2 s
  | .mu rd rs1 => Sys2Proof.Machine.execMu rd rs1 s
  | .bred rd rs1 rs2 rs3 => Sys2Proof.Machine.execBred rd rs1 rs2 rs3 s
  | .modmul rd rs1 rs2 rs3 => Sys2Proof.Machine.execModmul rd rs1 rs2 rs3 s
  | .modpow rd rs1 rs2 rs3 => Sys2Proof.Machine.execModpow rd rs1 rs2 rs3 s
  | .gcd rd rs1 rs2 => Sys2Proof.Machine.execGcd rd rs1 rs2 s
  | .extgcd rd rs1 rs2 rd2 rd3 => Sys2Proof.Machine.execExtgcd rd rs1 rs2 rd2 rd3 s
  | .modinv rd rs1 rs2 => Sys2Proof.Machine.execModinv rd rs1 rs2 s
  | .randbits rd => Sys2Proof.Machine.execRandbits rd s
  | .mrtest rd rs1 => Sys2Proof.Machine.execMrtest rd rs1 s
  | .genprime rd => Sys2Proof.Machine.execGenprime rd s
  | .keygen rd rd2 rd3 => Sys2Proof.Machine.execKeygen rd rd2 rd3 s
  | .sign rd rs1 rs2 rs3 => Sys2Proof.Machine.execSign rd rs1 rs2 rs3 s
  | .verify rd rs1 rs2 rs3 rs4 => Sys2Proof.Machine.execVerify rd rs1 rs2 rs3 rs4 s

end Sys2Proof.Machine
end

