-- ==== Sys2Proof/Machine/Port.lean ====
section
/-! DEFINITION. The register port, the block's one address space (20_memory.md): the address map, host reads and host
writes with their effects while the engine is idle and busy, and the map from bus addresses to port offsets. -/

namespace Sys2Proof.Machine

/-! ## Address map (R23, R44, R45) -/

/-- What stands at a port offset. -/
inductive PortLoc where
  | id
  | ctrl
  | status
  | cmd
  | arg0
  | arg1
  | bitlen
  | confidence
  | retryLimit
  | len (i : Reg)
  | word (i : Reg) (j : Fin 50)
  | reserved
  deriving DecidableEq, Repr

/-- The location at byte offset `off`, a multiple of 4 below 0x2000. -/
def portLoc (off : Nat) : PortLoc :=
  if off = 0x000 then .id
  else if off = 0x004 then .ctrl
  else if off = 0x008 then .status
  else if off = 0x00C then .cmd
  else if off = 0x010 then .arg0
  else if off = 0x014 then .arg1
  else if off = 0x018 then .bitlen
  else if off = 0x01C then .confidence
  else if off = 0x020 then .retryLimit
  else if off < 0x040 then .reserved
  else if off < 0x080 then .len (Fin.ofNat 16 ((off - 0x040) / 4))
  else if off < 0x1000 then .reserved
  else
    let i := Fin.ofNat 16 ((off - 0x1000) / 0x100)
    let j := off % 0x100 / 4
    if h : j < 50 then .word i ⟨j, h⟩ else .reserved

/-- The offset of word `j` of big register `i` (R45). -/
def wordOffset (i : Reg) (j : Nat) : Nat := 0x1000 + 0x100 * i.val + 4 * j

/-- The offset of LEN[i] (R32). -/
def lenOffset (i : Reg) : Nat := 0x040 + 4 * i.val

/-- Whether the port can express an access, and where it leads: 32 bits at a multiple of 4 (R39) below 0x2000 (R38). -/
def checkAccess (off bytes : Nat) : Except Fault PortLoc :=
  if bytes ≠ 4 ∨ off % 4 ≠ 0 then .error .inexpressibleAccess
  else if Config.portSize ≤ off then .error .outsidePort
  else .ok (portLoc off)

/-! ## Reads (R43, R46, R47) -/

/-- ID: version, KMAX, NREG and W, a byte each (R31). -/
def idWord : Word :=
  BitVec.ofNat 8 Config.version ++ BitVec.ofNat 8 Config.kMax ++ BitVec.ofNat 8 Config.numRegs
    ++ BitVec.ofNat 8 Config.bigWords

/-- CTRL as read: IE in bit 0; SRST reads as 0 (R28). -/
def ctrlWord (s : State) : Word := BitVec.setWidth 32 (BitVec.ofBool s.ie)

/-- Word `j` of the register has been written since hardware reset (R22). -/
def BigReg.wordWritten (b : BigReg) (j : Nat) : Bool := b.written.getLsbD j

/-- The word that stands at a location, or none where the spec leaves the answer unconstrained: a word not written since
hardware reset, the LEN of a register that has one (R22). -/
def State.readLoc (s : State) : PortLoc → Option Word
  | .id => some idWord
  | .ctrl => some (ctrlWord s)
  | .status => some s.status.toWord
  | .cmd => some s.cmd
  | .arg0 => some s.arg0
  | .arg1 => some s.arg1
  | .bitlen => some (s.bitlen.setWidth 32)
  | .confidence => some (s.confidence.setWidth 32)
  | .retryLimit => some s.retryLimit
  | .len i => if (s.reg i).isWritten then some (BitVec.ofNat 32 (len (s.val i))) else none
  | .word i j => if (s.reg i).wordWritten j then some (wordAt (s.val i) j) else none
  | .reserved => some 0

/-- A host read at a location: the answer goes to `rdata`; an unconstrained one is the next free value (R22). -/
def State.answer (s : State) (l : PortLoc) : State :=
  match s.readLoc l with
  | some w => { s with rdata := some w }
  | none => { s with rdata := some (Config.readDraw s.drawPos), drawPos := s.drawPos + 1 }

/-- A host read, honoured busy or not (R47). -/
def hostRead (off bytes : Nat) (s : State) : Host.Outcome State Fault Refusal :=
  match checkAccess off bytes with
  | .error f => .fault f
  | .ok l => .next (s.answer l)

/-! ## Writes (R43, R46, R48) -/

/-- A write that is refused, with LOST, while the engine is busy (R48), and has the outcome `o` while it is idle. -/
def State.unlessBusy (s : State) (o : Host.Outcome State Fault Refusal) : Host.Outcome State Fault Refusal :=
  if s.status.busy then .next (s.setStatus s.status.refuse) else o

/-- A CTRL write: SRST performs a soft reset, else IE is stored (R28, R126). -/
def State.writeCtrl (s : State) (v : Word) : State :=
  if v.getLsbD 1 then s.softReset else { s with ie := v.getLsbD 0 }

/-- A host write of `v` at a location. -/
def State.store (s : State) (l : PortLoc) (v : Word) : Host.Outcome State Fault Refusal :=
  match l with
  | .id => .next s
  | .ctrl => .next (s.writeCtrl v)
  | .status => .next (s.setStatus (s.status.writeOneToClear v))
  | .cmd => s.unlessBusy (s.startCmd v)
  | .arg0 => s.unlessBusy (.next { s with arg0 := v })
  | .arg1 => s.unlessBusy (.next { s with arg1 := v })
  | .bitlen => s.unlessBusy (.next { s with bitlen := v.setWidth 16 })
  | .confidence => s.unlessBusy (.next { s with confidence := v.setWidth 16 })
  | .retryLimit => s.unlessBusy (.next { s with retryLimit := v })
  | .len _ => .next s
  | .word i j => s.unlessBusy (.next (s.setRegWord i j v))
  | .reserved => .next s

/-- A host write. -/
def hostWrite (off bytes : Nat) (v : Word) (s : State) : Host.Outcome State Fault Refusal :=
  match checkAccess off bytes with
  | .error f => .fault f
  | .ok l => s.store l v

/-! ## Bus addresses (R13, R38, R65) -/

/-- The port offset of a bus address, if the address lies in the port. -/
def busOffset (addr : Nat) : Option Nat :=
  if Config.portBase ≤ addr ∧ addr < Config.portBase + Config.portSize then some (addr - Config.portBase) else none

/-- `MemRead(addr, 4)`: the port access it makes, if any (R13). -/
def memRead (addr : Nat) : List Event := (busOffset addr).toList.map fun off => .hostRead off 4

/-- `MemWrite(addr, 4, v)`: the port access it makes, if any (R13). -/
def memWrite (addr : Nat) (v : Word) : List Event := (busOffset addr).toList.map fun off => .hostWrite off 4 v

end Sys2Proof.Machine
end

