-- ==== Sys2Proof/Machine/Engine.lean ====
section
/-! DEFINITION. The engine between acceptance and completion (R24, R34, R36, R55, R61, R132): it runs the latched command
word, and takes random words on the way. -/

namespace Sys2Proof.Machine

/-- The engine runs a command word to its completion; a word that is no command raises EILLEGAL, reads no register and
draws no word (R61). -/
def runWord (c : Word) (s : State) : Host.Outcome State Fault Refusal :=
  match decode c with
  | .ok i => exec i s
  | .error _ => finish s (.error .illegal)

/-- The completion of the command in progress; an idle engine does nothing (R36, R124). -/
def engineComplete (s : State) : Host.Outcome State Fault Refusal :=
  if s.status.busy then runWord s.fetch s else .next s

/-- How many random words the command in progress consumes in all. -/
def wordsNeeded (s : State) : Nat :=
  match runWord s.fetch s with
  | .next t => t.rng.pos - s.rng.pos
  | .fault _ => 0
  | .refused _ => 0

/-- The engine takes its next random word, where the command in progress still needs one (R34, R55). A command that faults
does so here too. -/
def engineDraw (s : State) : Host.Outcome State Fault Refusal :=
  if s.status.busy then
    match runWord s.fetch s with
    | .next _ => .next (if s.drawn < wordsNeeded s then { s with drawn := s.drawn + 1 } else s)
    | .fault f => .fault f
    | .refused r => .refused r
  else .next s

/-! ## The host's wait (R65) -/

/-- After a poll that read BUSY = 1 the host polls again, once the next move of the engine or the platform has been made.
DESIGN CHOICE (log entry 21): where the agenda lines up none, the engine completes. -/
def pollAgain (rest : List Event) : List Event :=
  match rest with
  | .engineDraw :: r => .engineDraw :: .hostWait :: r
  | .engineComplete :: r => .engineComplete :: .hostWait :: r
  | .hardReset :: r => .hardReset :: .hostWait :: r
  | [] => [.engineComplete, .hostWait]
  | .hostRead off bytes :: r => .engineComplete :: .hostWait :: .hostRead off bytes :: r
  | .hostWrite off bytes v :: r => .engineComplete :: .hostWait :: .hostWrite off bytes v :: r
  | .hostWait :: r => .engineComplete :: .hostWait :: .hostWait :: r

/-- One turn of `WAIT`, which is `L: RD 0x008 -> s; if s[0] = 1 goto L` (R65); `s.agenda` lists what comes after it. -/
def hostWait (s : State) : Host.Outcome State Fault Refusal :=
  match hostRead 0x008 4 s with
  | .next t => .next (if (t.rdata.getD 0).getLsbD 0 then { t with agenda := pollAgain s.agenda } else t)
  | .fault f => .fault f
  | .refused r => .refused r

/-! ## Events -/

/-- One event of the agenda. -/
def handle (e : Event) (s : State) : Host.Outcome State Fault Refusal :=
  match e with
  | .hostRead off bytes => hostRead off bytes s
  | .hostWrite off bytes v => hostWrite off bytes v s
  | .hostWait => hostWait s
  | .engineDraw => engineDraw s
  | .engineComplete => engineComplete s
  | .hardReset => .next s.hardReset

/-- `s` with the command word of the low `nbits` bits of `w` accepted and the engine to move next: what an accepted CMD
write leaves behind (R24). A command that reads an unwritten source faults in that next step. -/
def State.loadCommand (s : State) (nbits w : Nat) : State :=
  { s.acceptCmd (tableWord nbits w) with agenda := .engineComplete :: s.agenda }

end Sys2Proof.Machine
end

