-- ==== Sys2Proof/Machine/Step.lean ====
section
/-! DEFINITION. One step of the block: the next event of the agenda; when the agenda is empty a busy engine completes its
command and an idle one does nothing (R49, R124, R132). -/

namespace Sys2Proof.Machine

def step (s : State) : Host.Outcome State Fault Refusal :=
  match s.agenda with
  | [] => engineComplete s
  | e :: rest => handle e { s with agenda := rest }

/-- The block fetches nothing: its next command is the one an accepted CMD write has handed it (R24). So the word is
accepted here, as that write would, and the engine moves next. -/
def State.withFetchWord (s : State) (nbits w : Nat) : State := s.loadCommand nbits w

end Sys2Proof.Machine
end

