-- ==== Sys2Proof/Machine/Datapath.lean ====
section
/-! DEFINITION. The datapaths of the arithmetic units, word by word: the adder's carry chain (R70), the chunked shifts (R76,
R77), the schoolbook multiplier (R78) and the Knuth divider (R81). The rules fix the results these yield, and the commands
compute those results directly (R81, 93 I18); that the datapaths yield them is stated in the obligations. -/

namespace Sys2Proof.Machine

/-! ## The adder (R70) -/

/-- The value of the low `n` result words of `AddWords(u, v, cin)` and the carry into word `n`. -/
def addWordsUpTo (u v : Big) (cin : Nat) : Nat → Nat × Nat
  | 0 => (0, cin)
  | n + 1 =>
    let r := addWordsUpTo u v cin n
    let t := (wordAt u n).toNat + (wordAt v n).toNat + r.2
    (r.1 + t % Config.radix * Config.radix ^ n, t / Config.radix)

/-- `AddWords(u, v, cin)`: the carry out of word 49 is dropped. -/
def addWords (u v : Big) (cin : Nat) : Big := BitVec.ofNat 1600 (addWordsUpTo u v cin 50).1

/-! ## The shifter (R76, R77) -/

/-- A left shift in chunks of at most 32 bits, at most `fuel` of them. -/
def shlChunks : (fuel : Nat) → Big → (amount : Nat) → Big
  | 0, u, _ => u
  | fuel + 1, u, amount =>
    if amount = 0 then u else shlChunks fuel (u <<< min amount 32) (amount - min amount 32)

/-- An arithmetic right shift in chunks of at most 32 bits, at most `fuel` of them. -/
def shrChunks : (fuel : Nat) → Big → (amount : Nat) → Big
  | 0, u, _ => u
  | fuel + 1, u, amount =>
    if amount = 0 then u else shrChunks fuel (u.sshiftRight (min amount 32)) (amount - min amount 32)

/-! ## The multiplier (R78) -/

/-- The significant words of a pattern, least significant first (R9). -/
def sigWords (u : Big) : List Nat := (List.range (len u)).map fun j => (wordAt u j).toNat

/-- One row of the product: `r.w[i..] <- r.w[i..] + pi * q`, the carry ending in the word above (R78). `r` lists the words
from `i` on. -/
def mulRow (pi : Nat) : (q r : List Nat) → (c : Nat) → List Nat
  | [], [], c => [c]
  | [], _ :: rs, c => c :: rs
  | q :: qs, [], c => (pi * q + c) % Config.radix :: mulRow pi qs [] ((pi * q + c) / Config.radix)
  | q :: qs, r :: rs, c =>
    (r + pi * q + c) % Config.radix :: mulRow pi qs rs ((r + pi * q + c) / Config.radix)

/-- The rows for the words `p` in turn; after a row its lowest word is final. -/
def mulRows (q : List Nat) : (p r : List Nat) → List Nat
  | [], r => r
  | pi :: ps, r =>
    match mulRow pi q r 0 with
    | [] => []
    | w :: rs => w :: mulRows q ps rs

/-- The value of a list of words, least significant first. -/
def wordsValue : List Nat → Nat
  | [] => 0
  | w :: ws => w + Config.radix * wordsValue ws

/-- `MulMag(p, q)`: the words at index 50 and above are dropped. -/
def mulMag (p q : Big) : Big :=
  BitVec.ofNat 1600
    (wordsValue (mulRows (sigWords q) (sigWords p) (List.replicate (len p + len q) 0)))

/-! ## The divider (R81) -/

/-- Word `j` of a natural number. -/
def natWord (v j : Nat) : Nat := v / Config.radix ^ j % Config.radix

/-- The number of words of a natural number, at least 1. -/
def natLen (v : Nat) : Nat := max 1 ((bitLength v + 31) / 32)

/-- The single-word fast path over words `j-1` down to 0: the quotient so far and the remainder. -/
def divShort (u d : Nat) : (j q r : Nat) → Nat × Nat
  | 0, q, r => (q, r)
  | j + 1, q, r =>
    let t := r * Config.radix + natWord u j
    divShort u d j (q * Config.radix + t / d) (t % d)

/-- The downward correction of a quotient digit, at most `fuel` times: `vt` and `vs` are the divisor's two top words, `us`
the dividend's third word. -/
def correctDigit (vt vs us : Nat) : (fuel qhat rhat : Nat) → Nat
  | 0, qhat, _ => qhat
  | fuel + 1, qhat, rhat =>
    if Config.radix ≤ qhat ∨ rhat * Config.radix + us < qhat * vs then
      if Config.radix ≤ rhat + vt then qhat - 1 else correctDigit vt vs us fuel (qhat - 1) (rhat + vt)
    else qhat

/-- One quotient digit: the digit and the slice that remains, with the add-back where the trial subtraction is
negative. -/
def divDigit (un vn n j : Nat) : Nat × Nat :=
  let num := natWord un (j + n) * Config.radix + natWord un (j + n - 1)
  let vt := natWord vn (n - 1)
  let q0 := num / vt
  let qhat := correctDigit vt (natWord vn (n - 2)) (natWord un (j + n - 2)) q0 q0 (num % vt)
  let slice := un / Config.radix ^ j % Config.radix ^ (n + 1)
  if slice < qhat * vn then (qhat - 1, slice + vn - qhat * vn) else (qhat, slice - qhat * vn)

/-- The digits `j-1` down to 0 of the quotient: the quotient so far and the dividend that remains. -/
def divDigits (vn n : Nat) : (j un q : Nat) → Nat × Nat
  | 0, un, q => (q, un)
  | j + 1, un, q =>
    let d := divDigit un vn n j
    divDigits vn n j (d.2 * Config.radix ^ j + un % Config.radix ^ j) (q * Config.radix + d.1)

/-- `DivMag(u, v)` as the Knuth engine computes it, for `u ≥ v > 0`. -/
def divMag (u v : Nat) : Nat × Nat :=
  let n := natLen v
  if n = 1 then divShort u v (natLen u) 0 0
  else
    let s := 32 - bitLength (natWord v (n - 1))
    let vn := v * 2 ^ s
    let un := u * 2 ^ s
    let r := divDigits vn n (natLen u - n + 1) un 0
    (r.1, r.2 / 2 ^ s)

end Sys2Proof.Machine
end

