-- ==== Sys2Proof/Machine/HostOps.lean ====
section
/-! DEFINITION. What the host does at the port, as lists of events: the host operations and pseudo-instructions of R65 and
R66, and the values it lifts from bytes and words (R53, R54). Control flow of host programs is the host's own. -/

namespace Sys2Proof.Machine

/-! ## Host operations (R65) -/

/-- `WR off, v` -/
def wr (off : Nat) (v : Word) : List Event := memWrite (Config.portBase + off) v

/-- `RD off` -/
def rd (off : Nat) : List Event := memRead (Config.portBase + off)

/-- `WAIT` -/
def wait : List Event := [.hostWait]

/-- A command mnemonic on a line of a host program: its CMD write, then `WAIT`. -/
def command (i : Instr) : List Event := wr 0x00C (encode i) ++ wait

/-! ## Pseudo-instructions (R66) -/

/-- `LI xd, imm64` -/
def li (d : Reg) (imm : BitVec 64) : List Event :=
  wr 0x010 (imm.extractLsb' 0 32) ++ wr 0x014 (imm.extractLsb' 32 32) ++ command (.ldi d)

/-- `CLR xd` -/
def clr (d : Reg) : List Event := wr 0x010 0 ++ wr 0x014 0 ++ command (.ldi d)

/-- `LDVAL xi, v` -/
def ldval (i : Reg) (v : Int) : List Event :=
  (List.range 50).flatMap fun j => wr (wordOffset i j) (wordAt (enc v) j)

/-- `RDVAL xi` -/
def rdval (i : Reg) : List Event := (List.range 50).flatMap fun j => rd (wordOffset i j)

/-- `SETLEN n` -/
def setLen (n : Word) : List Event := wr 0x018 n

/-- `SETCONF n` -/
def setConf (n : Word) : List Event := wr 0x01C n

/-- `SETRETRY n` -/
def setRetry (n : Word) : List Event := wr 0x020 n

/-- `CLRST`: clears DONE, OVF and LOST. -/
def clrSt : List Event := wr 0x008 0x00003002

/-- `CHKERR L`: the read it makes; the branch is taken where bit 2 of the answer is 1. -/
def chkErr : List Event := rd 0x008

/-- The branch of `CHKERR L`. -/
def chkErrTaken (s : Word) : Bool := s.getLsbD 2

/-! ## Values (R53, R54) -/

/-- `h = sum D[i] * 256^(m-1-i)`: a big-endian byte string as an integer (R53). -/
def liftBytes (d : List (BitVec 8)) : Nat := d.foldl (fun h b => 256 * h + b.toNat) 0

/-- A little-endian word sequence as an integer (R54). -/
def liftWords : List Word → Nat
  | [] => 0
  | w :: ws => w.toNat + Config.radix * liftWords ws

/-- The host may lift a byte string only if it has 1 to 199 bytes (R53). -/
def liftable (d : List (BitVec 8)) : Bool := decide (1 ≤ d.length) && decide (d.length ≤ 199)

end Sys2Proof.Machine
end

