-- ==== Sys2Proof/Safety.lean ====
section
/-! DEFINITION. What a completed command leaves behind, what a sound state of the block is (the invariant every step keeps),
and when two states are alike for everything that the spec lets a command or the host observe. -/

namespace Sys2Proof.Machine

/-! ## What a completion leaves (R33, R36, R112) -/

/-- STATUS after a completion that writes no field but DONE, ERR and ERRCODE. -/
def Status.doneOk (t : Status) : Status := { t with busy := false, done := true, err := false, errcode := 0 }

/-- STATUS after a completion with the error code `c`. -/
def Status.doneErr (t : Status) (c : BitVec 4) : Status := { t with busy := false, done := true, err := true, errcode := c }

/-- `t` is `s` after a command that wrote the registers `ws`, every word of them, and left STATUS as `st` and the random
port at `g`. No other register and no other field has changed; the engine has no words in hand. -/
def State.completedTo (s t : State) (ws : List (Reg × Big)) (st : Status) (g : Rng) : Prop :=
  (∀ p ∈ ws, t.reg p.1 = ⟨p.2, BitVec.allOnes 50⟩) ∧ (∀ r, r ∉ ws.map Prod.fst → t.reg r = s.reg r) ∧
    t = { s with x := t.x, status := st, rng := g, drawn := 0 }

/-- `t` is `s` after a command that ended with the error code `c` and the random port at `g`. -/
def State.failedTo (s t : State) (c : BitVec 4) (g : Rng) : Prop :=
  t = { s with status := s.status.doneErr c, rng := g, drawn := 0 }

/-- The result `v` does not fit a register (R71). -/
def overflows (v : Int) : Bool := decide (v < -2 ^ 1599 ∨ 2 ^ 1599 ≤ v)

/-! ## The extended Euclid (R95) -/

/-- `r`, `x` and `y` list the remainders and the two coefficients that R95 takes `a` and `b` through; the remainder after the
`m`-th is the first to be 0. -/
def euclidTrace (a b : Int) (m : Nat) (r x y : Nat → Int) : Prop :=
  r 0 = a ∧ r 1 = b ∧ x 0 = 1 ∧ x 1 = 0 ∧ y 0 = 0 ∧ y 1 = 1 ∧
  (∀ k, k < m → r (k + 1) ≠ 0 ∧ r (k + 2) = r k - r k / r (k + 1) * r (k + 1) ∧
    x (k + 2) = x k - r k / r (k + 1) * x (k + 1) ∧ y (k + 2) = y k - r k / r (k + 1) * y (k + 1)) ∧
  r (m + 1) = 0

/-! ## Searches over random words (R101, R102, R104, R106)

Each relation says where a search ends and where it leaves the random port. The answer `none` is a search that has reached
RETRY_LIMIT. The values are said by the port's words, bit for bit, and not by the helpers that the commands run. -/

/-- The `j`-th word that the port delivers from `g` on (R14). -/
def portWord (g : Rng) (j : Nat) : Word := (g.skip j).next.1

/-- The number below `2^L` whose bit `b` is bit `b % 32` of word `first + b / 32` (R15, R16). -/
def portBits (first L : Nat) (g : Rng) : Nat :=
  Nat.ofBits fun b : Fin L => (portWord g (first + b.val / 32)).getLsbD (b.val % 32)

/-- How many bits a positive `c` has (R10). -/
def numBits (c : Nat) : Nat := c.log2 + 1

/-- How many words `L` bits take (R15, R16). -/
def portWords (L : Nat) : Nat := (L + 31) / 32

/-- The `k`-th value that the words from `g` on offer as a witness for `c`; no bit of it is forced (R16, R101). -/
def witnessAt (c k : Nat) (g : Rng) : Nat := portBits (k * portWords (numBits c)) (numBits c) g

/-- A witness for `c` lies in `[2, c)`. -/
def witnessInRange (c a : Nat) : Prop := 2 ≤ a ∧ a < c

/-- The first value in range, if there is one among `limit` tries, is `a`. -/
def witnessFound (c limit : Nat) (g : Rng) (a : Nat) (g' : Rng) : Prop :=
  ∃ m, m < limit ∧ (∀ k, k < m → ¬ witnessInRange c (witnessAt c k g)) ∧ witnessInRange c (witnessAt c m g) ∧
    a = witnessAt c m g ∧ g' = g.skip ((m + 1) * portWords (numBits c))

/-- None of `limit` tries is in range. -/
def noWitness (c limit : Nat) (g g' : Rng) : Prop :=
  (∀ k, k < limit → ¬ witnessInRange c (witnessAt c k g)) ∧ g' = g.skip (limit * portWords (numBits c))

/-- `a` is coprime to `c`, and with `c - 1 = 2^s * t`, `t` odd, `a^t` is 1 or some `a^(2^j * t)` with `j < s` is `c - 1`,
modulo `c`: a round with the witness `a` passes (R102). -/
def roundPassed (c a : Nat) : Prop :=
  Nat.gcd a c = 1 ∧ ∃ s t : Nat, c - 1 = 2 ^ s * t ∧ t % 2 = 1 ∧
    (a ^ t % c = 1 ∨ ∃ j, j < s ∧ a ^ (2 ^ j * t) % c = c - 1)

/-- `conf` rounds on an odd `c` of 5 or more: they end at the first round that fails, or has no witness. -/
def roundsRun (c limit : Nat) : (conf : Nat) → Rng → Option Bool → Rng → Prop
  | 0, g, v, g' => v = some true ∧ g' = g
  | conf + 1, g, v, g' =>
    (noWitness c limit g g' ∧ v = none) ∨
    ∃ a g1, witnessFound c limit g a g1 ∧
      ((roundPassed c a ∧ roundsRun c limit conf g1 v g') ∨ (¬ roundPassed c a ∧ v = some false ∧ g' = g1))

/-- The value of exactly `L` bits that the words from `g` on give: its top bit is forced (R15). -/
def sampleAt (L : Nat) (g : Rng) : Nat := portBits 0 L g ||| 2 ^ (L - 1)

/-- The candidate of `L` bits that the words from `g` on give: odd (R104). -/
def candidateAt (L : Nat) (g : Rng) : Nat := sampleAt L g ||| 1

/-- The test of that candidate: 3 passes by table. -/
def candidateTested (L conf limit : Nat) (g : Rng) (v : Option Bool) (g' : Rng) : Prop :=
  (candidateAt L g = 3 ∧ v = some true ∧ g' = g.skip (portWords L)) ∨
  (candidateAt L g ≠ 3 ∧ roundsRun (candidateAt L g) limit conf (g.skip (portWords L)) v g')

/-- A prime search for `L` bits over at most `attempts` candidates: the first that passes is `p`. -/
def primeSearched (L conf limit : Nat) : (attempts : Nat) → Rng → Option Nat → Rng → Prop
  | 0, g, p, g' => p = none ∧ g' = g
  | attempts + 1, g, p, g' =>
    (candidateTested L conf limit g (some true) g' ∧ p = some (candidateAt L g)) ∨
    (candidateTested L conf limit g none g' ∧ p = none) ∨
    ∃ g1, candidateTested L conf limit g (some false) g1 ∧ primeSearched L conf limit attempts g1 p g'

/-- The search for a public exponent of `eb` bits over at most `attempts` samples: the first that is coprime to `lam`. -/
def exponentSearched (lam eb : Nat) : (attempts : Nat) → Rng → Option Nat → Rng → Prop
  | 0, g, e, g' => e = none ∧ g' = g
  | attempts + 1, g, e, g' =>
    (Nat.gcd (sampleAt eb g) lam = 1 ∧ e = some (sampleAt eb g) ∧ g' = g.skip (portWords eb)) ∨
    (Nat.gcd (sampleAt eb g) lam ≠ 1 ∧ exponentSearched lam eb attempts (g.skip (portWords eb)) e g')

/-! ## Sound states -/

/-- STATUS holds what the rules let it hold: ERR says that ERRCODE is not 0 (R25), codes 7 to 15 are never produced (R111),
CMP is never 0b11 (R27), and while BUSY is 1 the bits that acceptance cleared are still 0 (R24). -/
def Status.sound (t : Status) : Bool :=
  (t.err == decide (t.errcode ≠ 0)) && decide (t.errcode.toNat ≤ 6) && decide (t.cmp ≠ 0b11)
    && (!t.busy || (!t.done && !t.err))

/-- A sound state: STATUS is sound, a busy engine runs the word that CMD shows (R24, R51) and reads no unwritten word (R22),
and an idle engine has no random words of a command in hand (R34). -/
def State.sound (s : State) : Bool :=
  s.status.sound && (!s.status.busy || (s.latched == s.cmd && s.sourcesWritten s.latched))
    && (s.status.busy || s.drawn == 0)

/-! ## Unwritten words cannot be seen -/

/-- Two registers alike but for words not written since hardware reset (R22). -/
def BigReg.alike (a b : BigReg) : Prop :=
  a.written = b.written ∧ ∀ j, j < 50 → a.written.getLsbD j = true → wordAt a.val j = wordAt b.val j

/-- Two states alike but for the unspecified words of their big registers. -/
def State.alike (s t : State) : Prop :=
  (∀ r, (s.reg r).alike (t.reg r)) ∧ t = { s with x := t.x }

/-- Two outcomes alike: the same stop, or next states alike. -/
def alikeOutcome : Host.Outcome State Fault Refusal → Host.Outcome State Fault Refusal → Prop
  | .next s, .next t => s.alike t
  | .fault f, .fault g => f = g
  | .refused f, .refused g => f = g
  | _, _ => False

end Sys2Proof.Machine
end

