-- ==== Sys2Proof/Certificates/Slice0/Obligations.lean ====
section
/-! DEFINITION. The statements for the provers. Each formalises rules of spec/; OBLIGATIONS.json says which. -/

open Sys2Proof Sys2Proof.Machine

/-! ## Encoding -/

/-- R57, R58, R60, R61: no bit of any command's encoding is dropped. -/
def Obligations.DecodeOfEncodeIsTheCommand : Prop :=
  ∀ i : Instr, i.wellFormed = true → decode (encode i) = .ok i

/-- R60, R61: a word that decodes is the one encoding of its command, and the command is well formed. -/
def Obligations.AcceptedWordIsItsCommandsEncoding : Prop :=
  ∀ (c : Word) (i : Instr), decode c = .ok i → encode i = c ∧ i.wellFormed = true

/-- R61, R62: no word selects two rows of the opcode map, and the reserved opcodes are exactly the listed ranges, whatever
the other bits of the word. -/
def Obligations.DecodingIsUnambiguousAndReserved : Prop :=
  ∀ c : Word,
    (opcodeRows.Pairwise fun a b => ¬ (c &&& a.mask = a.pattern ∧ c &&& b.mask = b.pattern)) ∧
    (decode c = .error .reservedOpcode ↔
      (0x03 ≤ c.toNat % 256 ∧ c.toNat % 256 ≤ 0x0F) ∨ (0x16 ≤ c.toNat % 256 ∧ c.toNat % 256 ≤ 0x17) ∨
      (0x19 ≤ c.toNat % 256 ∧ c.toNat % 256 ≤ 0x1B) ∨ c.toNat % 256 = 0x1F ∨
      (0x24 ≤ c.toNat % 256 ∧ c.toNat % 256 ≤ 0x27) ∨ (0x2B ≤ c.toNat % 256 ∧ c.toNat % 256 ≤ 0x2F) ∨
      (0x33 ≤ c.toNat % 256 ∧ c.toNat % 256 ≤ 0x37) ∨ 0x3B ≤ c.toNat % 256)

/-- R57, R60, R61, R64: words written out from the spec's tables, one for each of the 26 rows of the opcode map,
decode to the commands they stand for; and words that are no command do not decode. -/
def Obligations.WrittenOutWordsDecode : Prop :=
  decode 0x00000000 = .ok .nop ∧ decode 0x00000401 = .ok (.ldi 4) ∧ decode 0x00007202 = .ok (.mov 2 7) ∧
  decode 0x00021310 = .ok (.add 3 1 2) ∧ decode 0x00021311 = .ok (.sub 3 1 2) ∧ decode 0x00006512 = .ok (.neg 5 6) ∧
  decode 0x000E1013 = .ok (.cmp 1 14) ∧ decode 0x00211214 = .ok (.shl 2 1 33) ∧
  decode 0xFFFE8F15 = .ok (.shr 15 8 65534) ∧ decode 0x000BA918 = .ok (.mul 9 10 11) ∧
  decode 0x0002131C = .ok (.div 3 1 2) ∧ decode 0x0002131D = .ok (.rem 3 1 2) ∧
  decode 0x0042131E = .ok (.divrem 3 1 2 4) ∧ decode 0x00003520 = .ok (.mu 5 3) ∧
  decode 0x00431521 = .ok (.bred 5 1 3 4) ∧ decode 0x00321422 = .ok (.modmul 4 1 2 3) ∧
  decode 0x00321423 = .ok (.modpow 4 1 2 3) ∧ decode 0x00021328 = .ok (.gcd 3 1 2) ∧
  decode 0x05421329 = .ok (.extgcd 3 1 2 4 5) ∧ decode 0x000BAC2A = .ok (.modinv 12 10 11) ∧
  decode 0x00000430 = .ok (.randbits 4) ∧ decode 0x00007431 = .ok (.mrtest 4 7) ∧
  decode 0x00000432 = .ok (.genprime 4) ∧ decode 0x03200138 = .ok (.keygen 1 2 3) ∧
  decode 0x003C1439 = .ok (.sign 4 1 12 3) ∧ decode 0x0135463A = .ok (.verify 6 4 5 3 1) ∧
  decode 0x00000100 = .error .mustBeZero ∧ decode 0x10021310 = .error .mustBeZero ∧
  decode 0x00000003 = .error .reservedOpcode ∧ decode 0x0011111E = .error .equalDestinations ∧
  decode 0x03300138 = .error .equalDestinations

/-! ## One step -/

/-- R24, R34, R36, R49, R65, R124, R132: one step takes the first event of the agenda, and does what that event's agent does:
the engine's move runs the latched word's command, and with nothing lined up it moves by itself; a draw takes one word while
the command needs more; host accesses and polls are the host's; an idle engine does nothing. (The agenda is the model's
own, log entries 1 and 2; what follows a poll that reads BUSY = 1 is log entry 21; that a draw only counts a word, and that
a draw of a command that faults is that fault, is the model's choice, log entries 8 and 20.) -/
def Obligations.StepRunsTheLatchedCommand : Prop :=
  ∀ (s : State) (rest : List Event),
    (∀ i : Instr, decode s.latched = .ok i → s.status.busy = true →
      (s.agenda = .engineComplete :: rest → step s = exec i { s with agenda := rest }) ∧
      (s.agenda = [] → step s = exec i s) ∧
      (s.agenda = .engineDraw :: rest →
        (∀ t, exec i { s with agenda := rest } = .next t →
          step s = .next { s with
            agenda := rest, drawn := if s.rng.pos + s.drawn < t.rng.pos then s.drawn + 1 else s.drawn }) ∧
        (∀ f, exec i { s with agenda := rest } = .fault f → step s = .fault f))) ∧
    (s.status.busy = false →
      (s.agenda = .engineComplete :: rest ∨ s.agenda = .engineDraw :: rest →
        step s = .next { s with agenda := rest }) ∧
      (s.agenda = [] → step s = .next s)) ∧
    (∀ off bytes, s.agenda = .hostRead off bytes :: rest → step s = hostRead off bytes { s with agenda := rest }) ∧
    (∀ off bytes v, s.agenda = .hostWrite off bytes v :: rest →
      step s = hostWrite off bytes v { s with agenda := rest }) ∧
    (s.agenda = .hostWait :: rest → s.status.busy = false →
      step s = .next { s with agenda := rest, rdata := some s.status.toWord }) ∧
    (s.agenda = .hostWait :: rest → s.status.busy = true →
      (∀ (e : Event) (r : List Event), rest = e :: r → e = .engineDraw ∨ e = .engineComplete ∨ e = .hardReset →
        step s = .next { s with agenda := e :: .hostWait :: r, rdata := some s.status.toWord }) ∧
      ((∀ (e : Event) (r : List Event), rest = e :: r →
          e ≠ .engineDraw ∧ e ≠ .engineComplete ∧ e ≠ .hardReset) →
        step s = .next { s with agenda := .engineComplete :: .hostWait :: rest, rdata := some s.status.toWord }))

/-- R61, R62: a latched word that is no command completes with EILLEGAL (code 1); it reads no register, draws no word and
writes nothing but STATUS. -/
def Obligations.IllegalWordCompletesWithEillegal : Prop :=
  ∀ (s : State) (rest : List Event) (e : DecodeError), s.status.busy = true → decode s.latched = .error e →
    (s.agenda = .engineComplete :: rest → ∃ t, step s = .next t ∧ { s with agenda := rest }.failedTo t 1 s.rng) ∧
    (s.agenda = [] → ∃ t, step s = .next t ∧ s.failedTo t 1 s.rng) ∧
    (s.agenda = .engineDraw :: rest → step s = .next { s with agenda := rest })

/-! ## What every command does -/

/-- R36, R132: a well-formed command whose sources are written always completes: BUSY 0, DONE 1, ERR exactly where the code
is not 0. -/
def Obligations.ReadableCommandAlwaysCompletes : Prop :=
  ∀ (i : Instr) (s : State), i.wellFormed = true →
    (∀ r ∈ i.sources, (s.reg r).written = BitVec.allOnes 50) →
    ∃ t, exec i s = .next t ∧ t.status.busy = false ∧ t.status.done = true ∧
      t.status.err = decide (t.status.errcode ≠ 0) ∧ t.status.errcode.toNat ≤ 6

/-- R22: a command faults exactly where some word of some source has not been written. -/
def Obligations.FaultsExactlyOnUnwrittenSources : Prop :=
  ∀ (i : Instr) (s : State) (f : Fault), i.wellFormed = true →
    (exec i s = .fault f ↔
      f = .unwrittenSource ∧ ∃ r ∈ i.sources, ∃ j, j < 50 ∧ (s.reg r).written.getLsbD j = false)

/-- R112: an error leaves every register, every written bit and all of STATUS but BUSY, DONE, ERR and ERRCODE as they were.
The random words already consumed stay consumed: an ETIMEOUT, the one error found after a word is drawn, has taken a word for
each of its RETRY_LIMIT tries at least, every word the engine has drawn stays drawn, and any other error takes none. (The
engine's count of drawn words is the model's form, log entry 8.) -/
def Obligations.ErrorChangesOnlyStatusAndRandomPort : Prop :=
  ∀ (i : Instr) (s t : State), exec i s = .next t → t.status.err = true →
    ∃ (e : ErrCode) (n : Nat), s.failedTo t (errCodeBits e) (s.rng.skip n) ∧
      (e = .timeout → i.draws = true ∧ s.retryLimit.toNat ≤ n) ∧ (e ≠ .timeout → n = 0) ∧
      (decode s.latched = .ok i → s.drawn ≤ wordsNeeded s → s.drawn ≤ n)

/-- R21, R22, R36: without error, exactly the destinations are written, all 50 words of each; every other register and every
field but STATUS and the random port is as before, and only the commands that draw move the port. -/
def Obligations.CommandWritesExactlyItsDestinations : Prop :=
  ∀ (i : Instr) (s t : State), exec i s = .next t → t.status.err = false →
    (∀ r ∈ i.dests, (t.reg r).written = BitVec.allOnes 50) ∧ (∀ r, r ∉ i.dests → t.reg r = s.reg r) ∧
    (i.draws = false → t.rng = s.rng) ∧
    t = { s with x := t.x, status := t.status, rng := t.rng, drawn := 0 }

/-- R33: which STATUS fields each command writes. -/
def Obligations.StatusFieldsWrittenPerCommand : Prop :=
  ∀ (i : Instr) (s t : State), exec i s = .next t →
    t.status.busy = false ∧ t.status.done = true ∧ t.status.lost = s.status.lost ∧
    (t.status.err = false → t.status.errcode = 0) ∧
    ((t.status.err = true ∨ i.writesCmp = false) → t.status.cmp = s.status.cmp) ∧
    ((t.status.err = true ∨ i.writesRes = false) → t.status.res = s.status.res) ∧
    ((t.status.err = true ∨ i.mayOverflow = false) → t.status.ovf = s.status.ovf) ∧
    (s.status.ovf = true → t.status.ovf = true)

/-- R111: no command raises a code that the table does not give it; the codes of the table. -/
def Obligations.EachCommandRaisesOnlyItsErrors : Prop :=
  (∀ (i : Instr) (s t : State), i.wellFormed = true → exec i s = .next t → t.status.err = true →
    ∃ e ∈ i.mayRaise, t.status.errcode = errCodeBits e) ∧
  errCodeBits .illegal = 1 ∧ errCodeBits .divZero = 2 ∧ errCodeBits .domain = 3 ∧ errCodeBits .cap = 4 ∧
  errCodeBits .noInv = 5 ∧ errCodeBits .timeout = 6

/-! ## Data movement -/

/-- R29, R67-R69: NOP completes with DONE and nothing else; LDI writes the signed 64-bit value of ARG1:ARG0, sign-extended;
MOV copies the whole register, and on itself changes no register. -/
def Obligations.DataMovementResults : Prop :=
  ∀ (rd rs1 : Reg) (s : State),
    (∃ t, exec .nop s = .next t ∧ s.completedTo t [] s.status.doneOk s.rng) ∧
    (∃ t, exec (.ldi rd) s = .next t ∧
      s.completedTo t [(rd, (s.arg1 ++ s.arg0 : BitVec 64).signExtend 1600)] s.status.doneOk s.rng) ∧
    (s.readable [rs1] = true →
      ∃ t, exec (.mov rd rs1) s = .next t ∧ s.completedTo t [(rd, s.val rs1)] s.status.doneOk s.rng ∧
        (rd = rs1 → t.x = s.x))

/-! ## Adder, compare, shifts -/

/-- R70-R74: ADD, SUB and NEG write the exact result modulo 2^1600, and set the sticky OVF exactly where the signed result
does not fit. -/
def Obligations.AddSubNegWrapAndFlagOverflow : Prop :=
  ∀ (rd rs1 rs2 : Reg) (s : State),
    (s.readable [rs1, rs2] = true →
      (∃ t, exec (.add rd rs1 rs2) s = .next t ∧
        s.completedTo t [(rd, s.val rs1 + s.val rs2)]
          { s.status.doneOk with ovf := s.status.ovf || overflows (s.sval rs1 + s.sval rs2) } s.rng) ∧
      (∃ t, exec (.sub rd rs1 rs2) s = .next t ∧
        s.completedTo t [(rd, s.val rs1 - s.val rs2)]
          { s.status.doneOk with ovf := s.status.ovf || overflows (s.sval rs1 - s.sval rs2) } s.rng)) ∧
    (s.readable [rs1] = true →
      ∃ t, exec (.neg rd rs1) s = .next t ∧
        s.completedTo t [(rd, -s.val rs1)]
          { s.status.doneOk with ovf := s.status.ovf || decide (s.sval rs1 = -2 ^ 1599) } s.rng)

/-- R27, R75: CMP reports the signed order of its operands and writes no register. -/
def Obligations.CmpReportsTheSignedOrder : Prop :=
  ∀ (rs1 rs2 : Reg) (s : State), s.readable [rs1, rs2] = true →
    ∃ t, exec (.cmp rs1 rs2) s = .next t ∧
      s.completedTo t []
        { s.status.doneOk with
          cmp := if s.sval rs1 = s.sval rs2 then 0b00 else if s.sval rs1 < s.sval rs2 then 0b01 else 0b10 } s.rng

/-- R71, R76: SHL drops the bits above 1599 and sets the sticky OVF exactly where the signed product does not fit. -/
def Obligations.ShlShiftsAndFlagsOverflow : Prop :=
  ∀ (rd rs1 : Reg) (n : BitVec 16) (s : State), s.readable [rs1] = true →
    ∃ t, exec (.shl rd rs1 n) s = .next t ∧
      s.completedTo t [(rd, s.val rs1 <<< n.toNat)]
        { s.status.doneOk with ovf := s.status.ovf || overflows (s.sval rs1 * 2 ^ n.toNat) } s.rng

/-- R77: SHR is the arithmetic right shift, for every amount, and never touches OVF. -/
def Obligations.ShrShiftsArithmetically : Prop :=
  ∀ (rd rs1 : Reg) (n : BitVec 16) (s : State), s.readable [rs1] = true →
    ∃ t, exec (.shr rd rs1 n) s = .next t ∧
      s.completedTo t [(rd, (s.val rs1).sshiftRight n.toNat)] s.status.doneOk s.rng

/-- R70, R76, R77: the carry chain over 50 words adds modulo 2^1600, with the carry in, and subtracts as R73 uses it;
shifting in chunks of at most 32 bits gives the pattern of the whole shift, for every amount. (That the right shift is done
in chunks too is the model's reading, log entry 16.) -/
def Obligations.AdderAndShifterDatapathsAreExact : Prop :=
  ∀ (u v : Big) (c : Bool) (n : Nat),
    addWords u v c.toNat = u + v + BitVec.ofNat 1600 c.toNat ∧ addWords u (~~~v) 1 = u - v ∧
    shlChunks (n + 1) u n = u <<< n ∧ shrChunks (n + 1) u n = u.sshiftRight n

/-! ## Multiplier and divider -/

/-- R71, R79: MUL writes the exact product modulo 2^1600 and sets the sticky OVF exactly where the signed product does not
fit. -/
def Obligations.MulWrapsAndFlagsOverflow : Prop :=
  ∀ (rd rs1 rs2 : Reg) (s : State), s.readable [rs1, rs2] = true →
    ∃ t, exec (.mul rd rs1 rs2) s = .next t ∧
      s.completedTo t [(rd, s.val rs1 * s.val rs2)]
        { s.status.doneOk with ovf := s.status.ovf || overflows (s.sval rs1 * s.sval rs2) } s.rng

/-- R78: the schoolbook multiplier over the significant words gives the product modulo 2^1600. -/
def Obligations.SchoolbookMultiplierIsExact : Prop :=
  ∀ p q : Big, mulMag p q = p * q

/-- R80-R84: where no error applies, DIV, REM and DIVREM write the quotient and the remainder: (0, A) where the divisor is
above the dividend, else the floor pair. -/
def Obligations.DivisionWritesQuotientAndRemainder : Prop :=
  ∀ (rd rd2 rs1 rs2 : Reg) (s : State), s.readable [rs1, rs2] = true → rd ≠ rd2 →
    s.sval rs2 ≠ 0 → (0 < s.sval rs2 ∨ s.sval rs1 < s.sval rs2) →
    ∃ q r : Int, q * s.sval rs2 + r = s.sval rs1 ∧
      (s.sval rs1 < s.sval rs2 → q = 0) ∧ (s.sval rs2 ≤ s.sval rs1 → 0 ≤ r ∧ r < s.sval rs2) ∧
      (∃ t, exec (.div rd rs1 rs2) s = .next t ∧ s.completedTo t [(rd, enc q)] s.status.doneOk s.rng ∧
        t.sval rd = q) ∧
      (∃ t, exec (.rem rd rs1 rs2) s = .next t ∧ s.completedTo t [(rd, enc r)] s.status.doneOk s.rng ∧
        t.sval rd = r) ∧
      (∃ t, exec (.divrem rd rs1 rs2 rd2) s = .next t ∧
        s.completedTo t [(rd, enc q), (rd2, enc r)] s.status.doneOk s.rng)

/-- R80, R82-R84, R111: a zero divisor raises EDIVZERO (2); a negative divisor not above the dividend raises EDOMAIN (3). -/
def Obligations.DivisionRejectsBadDivisors : Prop :=
  ∀ (rd rd2 rs1 rs2 : Reg) (s : State) (i : Instr), s.readable [rs1, rs2] = true → rd ≠ rd2 →
    i = .div rd rs1 rs2 ∨ i = .rem rd rs1 rs2 ∨ i = .divrem rd rs1 rs2 rd2 →
    (s.sval rs2 = 0 → ∃ t, exec i s = .next t ∧ s.failedTo t 2 s.rng) ∧
    (s.sval rs2 < 0 → s.sval rs2 ≤ s.sval rs1 → ∃ t, exec i s = .next t ∧ s.failedTo t 3 s.rng)

/-- R81: the Knuth engine yields the exact pair, on its single-word and its multi-word path. -/
def Obligations.KnuthDividerIsExact : Prop :=
  ∀ u v : Nat, 0 < v → v ≤ u → divMag u v = (u / v, u % v)

/-! ## Barrett unit -/

/-- R86, R89: MU writes floor(b^(2k) / N). -/
def Obligations.MuWritesTheBarrettConstant : Prop :=
  ∀ (rd rs1 : Reg) (s : State), s.readable [rs1] = true → 0 < s.sval rs1 → len (s.val rs1) ≤ 24 →
    ∃ t, exec (.mu rd rs1) s = .next t ∧
      s.completedTo t [(rd, enc ((2 ^ 32) ^ (2 * len (s.val rs1)) / s.sval rs1))] s.status.doneOk s.rng ∧
      t.sval rd = (2 ^ 32) ^ (2 * len (s.val rs1)) / s.sval rs1

/-- R87, R90: with the exact constant, BRED writes X mod N (at most two corrections suffice). -/
def Obligations.BredWithExactConstantIsTheRemainder : Prop :=
  ∀ (rd rs1 rs2 rs3 : Reg) (s : State), s.readable [rs1, rs2, rs3] = true → 0 < s.sval rs2 →
    len (s.val rs2) ≤ 24 → 0 ≤ s.sval rs1 → s.sval rs1 < (2 ^ 32) ^ (2 * len (s.val rs2)) →
    s.sval rs3 = (2 ^ 32) ^ (2 * len (s.val rs2)) / s.sval rs2 →
    ∃ t, exec (.bred rd rs1 rs2 rs3) s = .next t ∧
      s.completedTo t [(rd, enc (s.sval rs1 % s.sval rs2))] s.status.doneOk s.rng

/-- R87, R90: with any constant MU in range, exact or not, let q3 = floor(floor(X / b^(k-1)) * MU / b^(k+1)) and
r0 = (X - q3*N) mod b^(k+1). Where r0 < 3*N, BRED writes r0 less as many N, at most MAXCORR = 2, as bring it into [0, N);
where r0 >= 3*N it raises EDOMAIN (3) and does nothing else. -/
def Obligations.BredWithAnyConstantStaysInRange : Prop :=
  ∀ (rd rs1 rs2 rs3 : Reg) (s : State), s.readable [rs1, rs2, rs3] = true → 0 < s.sval rs2 →
    len (s.val rs2) ≤ 24 → 0 ≤ s.sval rs1 → s.sval rs1 < (2 ^ 32) ^ (2 * len (s.val rs2)) →
    0 ≤ s.sval rs3 → s.sval rs3 ≤ (2 ^ 32) ^ (len (s.val rs2) + 1) →
    ∀ q3 r0 : Int,
      q3 = s.sval rs1 / (2 ^ 32) ^ (len (s.val rs2) - 1) * s.sval rs3 / (2 ^ 32) ^ (len (s.val rs2) + 1) →
      r0 = (s.sval rs1 - q3 * s.sval rs2) % (2 ^ 32) ^ (len (s.val rs2) + 1) →
      ∃ t, exec (.bred rd rs1 rs2 rs3) s = .next t ∧
        (r0 < 3 * s.sval rs2 → ∃ c : Int, 0 ≤ c ∧ c ≤ 2 ∧ 0 ≤ r0 - c * s.sval rs2 ∧ r0 - c * s.sval rs2 < s.sval rs2 ∧
          s.completedTo t [(rd, enc (r0 - c * s.sval rs2))] s.status.doneOk s.rng) ∧
        (3 * s.sval rs2 ≤ r0 → s.failedTo t 3 s.rng)

/-- R91: MODMUL writes A * B mod N. -/
def Obligations.ModmulIsTheModularProduct : Prop :=
  ∀ (rd rs1 rs2 rs3 : Reg) (s : State), s.readable [rs1, rs2, rs3] = true → 0 < s.sval rs3 →
    len (s.val rs3) ≤ 24 → 0 ≤ s.sval rs1 → 0 ≤ s.sval rs2 →
    ∃ t, exec (.modmul rd rs1 rs2 rs3) s = .next t ∧
      s.completedTo t [(rd, enc (s.sval rs1 * s.sval rs2 % s.sval rs3))] s.status.doneOk s.rng

/-- R92, R93, R108: MODPOW and SIGN write A^E mod N, with 0^0 = 1 and 0 for N = 1. -/
def Obligations.ModpowAndSignAreTheModularPower : Prop :=
  ∀ (rd rs1 rs2 rs3 : Reg) (s : State) (i : Instr), s.readable [rs1, rs2, rs3] = true → 0 < s.sval rs3 →
    len (s.val rs3) ≤ 24 → 0 ≤ s.sval rs1 → 0 ≤ s.sval rs2 →
    i = .modpow rd rs1 rs2 rs3 ∨ i = .sign rd rs1 rs2 rs3 →
    ∃ t, exec i s = .next t ∧
      s.completedTo t [(rd, enc (s.sval rs1 ^ (s.sval rs2).toNat % s.sval rs3))] s.status.doneOk s.rng

/-- R85, R89-R93, R108, R111, R113: the operand errors of the Barrett-based commands, in the order of their checks:
EDIVZERO (2), EDOMAIN (3), ECAP (4). -/
def Obligations.BarrettOperandErrorsInOrder : Prop :=
  ∀ (rd rs1 rs2 rs3 : Reg) (s : State),
    (s.readable [rs1] = true →
      (s.sval rs1 = 0 → ∃ t, exec (.mu rd rs1) s = .next t ∧ s.failedTo t 2 s.rng) ∧
      (s.sval rs1 < 0 → ∃ t, exec (.mu rd rs1) s = .next t ∧ s.failedTo t 3 s.rng) ∧
      (0 < s.sval rs1 → 24 < len (s.val rs1) → ∃ t, exec (.mu rd rs1) s = .next t ∧ s.failedTo t 4 s.rng)) ∧
    (s.readable [rs1, rs2, rs3] = true →
      (s.sval rs2 = 0 → ∃ t, exec (.bred rd rs1 rs2 rs3) s = .next t ∧ s.failedTo t 2 s.rng) ∧
      (s.sval rs2 ≠ 0 → (s.sval rs2 < 0 ∨ s.sval rs1 < 0 ∨ s.sval rs3 < 0) →
        ∃ t, exec (.bred rd rs1 rs2 rs3) s = .next t ∧ s.failedTo t 3 s.rng) ∧
      (0 < s.sval rs2 → 0 ≤ s.sval rs1 → 0 ≤ s.sval rs3 → 24 < len (s.val rs2) →
        ∃ t, exec (.bred rd rs1 rs2 rs3) s = .next t ∧ s.failedTo t 4 s.rng) ∧
      (0 < s.sval rs2 → 0 ≤ s.sval rs1 → 0 ≤ s.sval rs3 → len (s.val rs2) ≤ 24 →
        ((2 ^ 32) ^ (2 * len (s.val rs2)) ≤ s.sval rs1 ∨ (2 ^ 32) ^ (len (s.val rs2) + 1) < s.sval rs3) →
        ∃ t, exec (.bred rd rs1 rs2 rs3) s = .next t ∧ s.failedTo t 3 s.rng) ∧
      ∀ i : Instr, i = .modmul rd rs1 rs2 rs3 ∨ i = .modpow rd rs1 rs2 rs3 ∨ i = .sign rd rs1 rs2 rs3 →
        (s.sval rs3 = 0 → ∃ t, exec i s = .next t ∧ s.failedTo t 2 s.rng) ∧
        (s.sval rs3 ≠ 0 → (s.sval rs3 < 0 ∨ s.sval rs1 < 0 ∨ s.sval rs2 < 0) →
          ∃ t, exec i s = .next t ∧ s.failedTo t 3 s.rng) ∧
        (0 < s.sval rs3 → 0 ≤ s.sval rs1 → 0 ≤ s.sval rs2 → 24 < len (s.val rs3) →
          ∃ t, exec i s = .next t ∧ s.failedTo t 4 s.rng))

/-! ## Number theory -/

/-- R94, R96: GCD writes the greatest common divisor of non-negative operands; a negative one raises EDOMAIN (3). -/
def Obligations.GcdIsTheGreatestCommonDivisor : Prop :=
  ∀ (rd rs1 rs2 : Reg) (s : State), s.readable [rs1, rs2] = true →
    (0 ≤ s.sval rs1 → 0 ≤ s.sval rs2 →
      ∃ t, exec (.gcd rd rs1 rs2) s = .next t ∧
        s.completedTo t [(rd, enc (Int.gcd (s.sval rs1) (s.sval rs2)))] s.status.doneOk s.rng) ∧
    ((s.sval rs1 < 0 ∨ s.sval rs2 < 0) → ∃ t, exec (.gcd rd rs1 rs2) s = .next t ∧ s.failedTo t 3 s.rng)

/-- R95, R97: EXTGCD writes the last remainder g and the coefficients x and y of R95's iteration on A and B. They satisfy
A*x + B*y = g = gcd(A, B), are at most max(A, B, 1) in magnitude, and read back as signed values; a negative operand raises
EDOMAIN (3). -/
def Obligations.ExtgcdSatisfiesBezout : Prop :=
  ∀ (rd rd2 rd3 rs1 rs2 : Reg) (s : State), s.readable [rs1, rs2] = true → rd ≠ rd2 → rd ≠ rd3 → rd2 ≠ rd3 →
    (0 ≤ s.sval rs1 → 0 ≤ s.sval rs2 →
      ∃ (m : Nat) (r x y : Nat → Int) (t : State), euclidTrace (s.sval rs1) (s.sval rs2) m r x y ∧
        exec (.extgcd rd rs1 rs2 rd2 rd3) s = .next t ∧
        s.completedTo t [(rd, enc (r m)), (rd2, enc (x m)), (rd3, enc (y m))] s.status.doneOk s.rng ∧
        r m = Int.gcd (s.sval rs1) (s.sval rs2) ∧ s.sval rs1 * x m + s.sval rs2 * y m = r m ∧
        |x m| ≤ max (max (s.sval rs1) (s.sval rs2)) 1 ∧ |y m| ≤ max (max (s.sval rs1) (s.sval rs2)) 1 ∧
        t.sval rd = r m ∧ t.sval rd2 = x m ∧ t.sval rd3 = y m) ∧
    ((s.sval rs1 < 0 ∨ s.sval rs2 < 0) →
      ∃ t, exec (.extgcd rd rs1 rs2 rd2 rd3) s = .next t ∧ s.failedTo t 3 s.rng)

/-- R98, R99, R111: MODINV writes the inverse in [0, N) of coprime operands; a common factor raises ENOINV (5), N = 0
EDIVZERO (2), a negative operand EDOMAIN (3). -/
def Obligations.ModinvIsTheInverseOrAnError : Prop :=
  ∀ (rd rs1 rs2 : Reg) (s : State), s.readable [rs1, rs2] = true →
    (0 ≤ s.sval rs1 → 0 < s.sval rs2 → Int.gcd (s.sval rs1) (s.sval rs2) = 1 →
      ∃ (v : Int) (t : State), exec (.modinv rd rs1 rs2) s = .next t ∧
        s.completedTo t [(rd, enc v)] s.status.doneOk s.rng ∧
        0 ≤ v ∧ v < s.sval rs2 ∧ s.sval rs1 * v % s.sval rs2 = 1 % s.sval rs2 ∧ t.sval rd = v) ∧
    (0 ≤ s.sval rs1 → 0 < s.sval rs2 → Int.gcd (s.sval rs1) (s.sval rs2) ≠ 1 →
      ∃ t, exec (.modinv rd rs1 rs2) s = .next t ∧ s.failedTo t 5 s.rng) ∧
    (s.sval rs2 = 0 → ∃ t, exec (.modinv rd rs1 rs2) s = .next t ∧ s.failedTo t 2 s.rng) ∧
    (s.sval rs2 < 0 ∨ (s.sval rs1 < 0 ∧ s.sval rs2 ≠ 0) →
      ∃ t, exec (.modinv rd rs1 rs2) s = .next t ∧ s.failedTo t 3 s.rng)

/-- R15, R100: RANDBITS writes a value of exactly L bits whose other bits are the port's words, least significant word
first, and takes ceil(L/32) words; out of range it raises EDOMAIN (3) and takes none. -/
def Obligations.RandbitsWritesExactlyLBits : Prop :=
  ∀ (rd : Reg) (s : State),
    (1 ≤ s.bitlen.toNat → s.bitlen.toNat ≤ 1599 →
      ∃ (v : Nat) (t : State), exec (.randbits rd) s = .next t ∧
        s.completedTo t [(rd, enc v)] s.status.doneOk (s.rng.skip ((s.bitlen.toNat + 31) / 32)) ∧
        2 ^ (s.bitlen.toNat - 1) ≤ v ∧ v < 2 ^ s.bitlen.toNat ∧
        ∀ k, k + 1 < s.bitlen.toNat → v.testBit k = ((s.rng.skip (k / 32)).next.1.getLsbD (k % 32))) ∧
    ((s.bitlen.toNat = 0 ∨ 1600 ≤ s.bitlen.toNat) →
      ∃ t, exec (.randbits rd) s = .next t ∧ s.failedTo t 3 s.rng)

/-- R102, R103: MRTEST decides a candidate below 4 or even without a random word: 2 and 3 are prime, every other one
composite. -/
def Obligations.MrtestDecidesSmallAndEvenByTable : Prop :=
  ∀ (rd rs1 : Reg) (s : State), s.readable [rs1] = true → (s.sval rs1 ≤ 3 ∨ s.sval rs1 % 2 = 0) →
    ∃ t, exec (.mrtest rd rs1) s = .next t ∧
      s.completedTo t [(rd, if s.sval rs1 = 2 ∨ s.sval rs1 = 3 then 1 else 0)]
        { s.status.doneOk with res := decide (s.sval rs1 = 2 ∨ s.sval rs1 = 3) } s.rng

/-- R101-R103: MRTEST of an odd candidate C of 5 or more and of at most 24 words. Its verdict, in the destination and in
RES alike, is PRIME exactly where every round passes: its witness, the first value in range among those that the port's
words spell bit for bit (R16), is coprime to C, and with C - 1 = 2^s * t, t odd, its power t is 1, or one of that power's
s - 1 squarings or the power itself is C - 1. It ends at the first round that fails, and takes the words up to
that round's witness. A round that finds no witness in RETRY_LIMIT tries raises ETIMEOUT (6) and has taken their words. A
longer candidate raises ECAP (4) and draws nothing. -/
def Obligations.MrtestCompletesWithAVerdict : Prop :=
  ∀ (rd rs1 : Reg) (s : State) (c : Nat), s.readable [rs1] = true → s.sval rs1 = c → 5 ≤ c → c % 2 = 1 →
    (len (s.val rs1) ≤ 24 → ∀ g : Rng,
      (∀ b : Bool, roundsRun c s.retryLimit.toNat s.confidence.toNat s.rng (some b) g →
        ∃ t, exec (.mrtest rd rs1) s = .next t ∧
          s.completedTo t [(rd, if b then 1 else 0)] { s.status.doneOk with res := b } g) ∧
      (roundsRun c s.retryLimit.toNat s.confidence.toNat s.rng none g →
        ∃ t, exec (.mrtest rd rs1) s = .next t ∧ s.failedTo t 6 g)) ∧
    (24 < len (s.val rs1) → ∃ t, exec (.mrtest rd rs1) s = .next t ∧ s.failedTo t 4 s.rng)

/-- R103 (93 G5): a prime passes with every confidence and every random word: MRTEST never completes without error on a
prime and calls it composite. -/
def Obligations.PrimeNeverTestsComposite : Prop :=
  ∀ (rd rs1 : Reg) (s t : State) (p : Nat), s.sval rs1 = p → p.Prime →
    exec (.mrtest rd rs1) s = .next t → t.status.err = false → t.status.res = true ∧ t.val rd = 1

/-- R104, R105: GENPRIME writes the first candidate that passes its test: a candidate that fails leads to the next one, made
of the next words. It takes exactly the words of the candidates and of their witnesses. After RETRY_LIMIT candidates that
fail, or a round without a witness, it raises ETIMEOUT (6), and the words taken stay taken. -/
def Obligations.GenprimeWritesAPrimeCandidate : Prop :=
  ∀ (rd : Reg) (s : State) (g : Rng), 2 ≤ s.bitlen.toNat → s.bitlen.toNat ≤ 768 →
    (∀ p : Nat, primeSearched s.bitlen.toNat s.confidence.toNat s.retryLimit.toNat s.retryLimit.toNat s.rng (some p) g →
      ∃ t, exec (.genprime rd) s = .next t ∧ s.completedTo t [(rd, enc p)] s.status.doneOk g) ∧
    (primeSearched s.bitlen.toNat s.confidence.toNat s.retryLimit.toNat s.retryLimit.toNat s.rng none g →
      ∃ t, exec (.genprime rd) s = .next t ∧ s.failedTo t 6 g)

/-- R104, R105, R111: whatever the random words, a GENPRIME without error writes an odd value of exactly BITLEN bits and has
taken that candidate's words at least; its errors are EDOMAIN (3) exactly where BITLEN is out of range, which takes no
word, and ETIMEOUT (6), which has taken a word for each of RETRY_LIMIT tries at least. -/
def Obligations.GenprimeResultIsOddOfExactLength : Prop :=
  ∀ (rd : Reg) (s : State), ∃ (t : State) (n : Nat), exec (.genprime rd) s = .next t ∧ t.rng = s.rng.skip n ∧
    ((2 ≤ s.bitlen.toNat ∧ s.bitlen.toNat ≤ 768 ∧ t.status.err = false ∧ t.sval rd % 2 = 1 ∧
        2 ^ (s.bitlen.toNat - 1) ≤ t.sval rd ∧ t.sval rd < 2 ^ s.bitlen.toNat ∧ portWords s.bitlen.toNat ≤ n) ∨
      (2 ≤ s.bitlen.toNat ∧ s.bitlen.toNat ≤ 768 ∧ s.failedTo t 6 (s.rng.skip n) ∧ s.retryLimit.toNat ≤ n) ∨
      ((s.bitlen.toNat < 2 ∨ 768 < s.bitlen.toNat) ∧ s.failedTo t 3 s.rng))

/-! ## RSA -/

/-- R106, R107: KEYGEN writes n = p*q, e and d with e*d = 1 mod (p-1)(q-1), where p is the prime search's candidate of
BITLEN bits, q that of BITLEN-1 bits from the words that follow, and e, from the words after those, the first sample of
bitLength(n)-1 bits that is coprime to (p-1)(q-1). A search that reaches RETRY_LIMIT raises ETIMEOUT (6), and the words
taken stay taken. -/
def Obligations.KeygenWritesTheKeyOfItsWords : Prop :=
  ∀ (rd rd2 rd3 : Reg) (s : State) (L conf limit : Nat), rd ≠ rd2 → rd ≠ rd3 → rd2 ≠ rd3 →
    L = s.bitlen.toNat → conf = s.confidence.toNat → limit = s.retryLimit.toNat → 3 ≤ L → L ≤ 384 →
    (∀ g1 : Rng, primeSearched L conf limit limit s.rng none g1 →
      ∃ t, exec (.keygen rd rd2 rd3) s = .next t ∧ s.failedTo t 6 g1) ∧
    ∀ (p : Nat) (g1 : Rng), primeSearched L conf limit limit s.rng (some p) g1 →
      (∀ g2 : Rng, primeSearched (L - 1) conf limit limit g1 none g2 →
        ∃ t, exec (.keygen rd rd2 rd3) s = .next t ∧ s.failedTo t 6 g2) ∧
      ∀ (q : Nat) (g2 g3 : Rng), primeSearched (L - 1) conf limit limit g1 (some q) g2 →
        (exponentSearched ((p - 1) * (q - 1)) (p * q).log2 limit g2 none g3 →
          ∃ t, exec (.keygen rd rd2 rd3) s = .next t ∧ s.failedTo t 6 g3) ∧
        ∀ e : Nat, exponentSearched ((p - 1) * (q - 1)) (p * q).log2 limit g2 (some e) g3 →
          ∃ (d : Nat) (t : State), exec (.keygen rd rd2 rd3) s = .next t ∧
            s.completedTo t [(rd, enc (p * q : Nat)), (rd2, enc e), (rd3, enc d)] s.status.doneOk g3 ∧
            d < (p - 1) * (q - 1) ∧ e * d % ((p - 1) * (q - 1)) = 1

/-- R106, R107: whatever the random words, a KEYGEN without error writes an n of two odd factors of BITLEN and BITLEN-1
bits, an e of bitLength(n)-1 bits and a d with e*d = 1 mod (p-1)(q-1), and has taken the words of p, q and e at least; its
error in range is ETIMEOUT (6), which has taken a word for each of RETRY_LIMIT tries at least; BITLEN out of range raises
EDOMAIN (3) and takes none. -/
def Obligations.KeygenResultIsAKeyPair : Prop :=
  ∀ (rd rd2 rd3 : Reg) (s : State), rd ≠ rd2 → rd ≠ rd3 → rd2 ≠ rd3 →
    ∃ (t : State) (n : Nat), exec (.keygen rd rd2 rd3) s = .next t ∧ t.rng = s.rng.skip n ∧
      (3 ≤ s.bitlen.toNat → s.bitlen.toNat ≤ 384 → t.status.err = false →
        ∃ p q e d : Nat, t.sval rd = (p * q : Nat) ∧ t.sval rd2 = e ∧ t.sval rd3 = d ∧
          2 ^ (s.bitlen.toNat - 1) ≤ p ∧ p < 2 ^ s.bitlen.toNat ∧
          2 ^ (s.bitlen.toNat - 2) ≤ q ∧ q < 2 ^ (s.bitlen.toNat - 1) ∧ p % 2 = 1 ∧ q % 2 = 1 ∧
          2 ^ ((p * q).log2 - 1) ≤ e ∧ e < 2 ^ (p * q).log2 ∧ e < p * q ∧ d < (p - 1) * (q - 1) ∧
          e * d % ((p - 1) * (q - 1)) = 1 ∧
          portWords s.bitlen.toNat + portWords (s.bitlen.toNat - 1) + portWords (p * q).log2 ≤ n) ∧
      (3 ≤ s.bitlen.toNat → s.bitlen.toNat ≤ 384 → t.status.err = true →
        s.failedTo t 6 (s.rng.skip n) ∧ s.retryLimit.toNat ≤ n) ∧
      (s.bitlen.toNat < 3 ∨ 384 < s.bitlen.toNat → s.failedTo t 3 s.rng)

/-- R109: VERIFY never raises an error: malformed input and a mismatch alike give 0, and a match gives 1, in the destination
and in RES. -/
def Obligations.VerifyGivesTheVerdictWithoutError : Prop :=
  ∀ (rd rs1 rs2 rs3 rs4 : Reg) (s : State) (b : Bool), s.readable [rs1, rs2, rs3, rs4] = true →
    (b = true ↔ 0 < s.sval rs3 ∧ len (s.val rs3) ≤ 24 ∧ 0 ≤ s.sval rs2 ∧ 0 ≤ s.sval rs1 ∧ s.sval rs1 < s.sval rs3 ∧
      s.sval rs1 ^ (s.sval rs2).toNat % s.sval rs3 = s.sval rs4) →
    ∃ t, exec (.verify rd rs1 rs2 rs3 rs4) s = .next t ∧
      s.completedTo t [(rd, if b then 1 else 0)] { s.status.doneOk with res := b } s.rng

/-- R106, R108, R109, R110 (93 G6): with a key of two distinct primes, a signature that SIGN has made of a digest below n
passes VERIFY. -/
def Obligations.SignedDigestVerifies : Prop :=
  ∀ (sig h d e n res : Reg) (s : State) (p q : Nat),
    s.readable [h, d, e, n] = true → sig ≠ h → sig ≠ e → sig ≠ n →
    p.Prime → q.Prime → p ≠ q → s.sval n = (p * q : Nat) → len (s.val n) ≤ 24 →
    0 ≤ s.sval h → s.sval h < s.sval n → 0 ≤ s.sval d → 0 ≤ s.sval e →
    s.sval e * s.sval d % ((p - 1) * (q - 1) : Nat) = 1 % ((p - 1) * (q - 1) : Nat) →
    ∃ t u, exec (.sign sig h d n) s = .next t ∧ exec (.verify res sig e n h) t = .next u ∧
      u.status.err = false ∧ u.status.res = true ∧ u.val res = 1

/-! ## The register port -/

/-- R22, R45: while idle, a host write of a word stores it, sets its written bit and leaves the other 49 words and every
other register; a read returns a written word; words 50 to 63 of a slot are reserved. -/
def Obligations.BigRegisterWordsReadAndWrite : Prop :=
  ∀ (i : Reg) (j : Nat) (v : Word) (s : State), j < 50 →
    (s.status.busy = false → ∃ t, hostWrite (0x1000 + 0x100 * i.val + 4 * j) 4 v s = .next t ∧
      wordAt (t.val i) j = v ∧ (t.reg i).written.getLsbD j = true ∧
      (∀ k, k < 50 → k ≠ j → wordAt (t.val i) k = wordAt (s.val i) k ∧
        (t.reg i).written.getLsbD k = (s.reg i).written.getLsbD k) ∧
      (∀ r, r ≠ i → t.reg r = s.reg r) ∧ t = { s with x := t.x }) ∧
    ((s.reg i).written.getLsbD j = true →
      hostRead (0x1000 + 0x100 * i.val + 4 * j) 4 s = .next { s with rdata := some (wordAt (s.val i) j) }) ∧
    (∀ k, 50 ≤ k → k < 64 →
      hostRead (0x1000 + 0x100 * i.val + 4 * k) 4 s = .next { s with rdata := some 0 } ∧
      hostWrite (0x1000 + 0x100 * i.val + 4 * k) 4 v s = .next s)

/-- R48: while busy, a write to CMD, ARG0, ARG1, BITLEN, CONFIDENCE, RETRY_LIMIT or a big register word changes nothing but
LOST; writes to CTRL and STATUS are honoured; writes to reserved and read-only offsets are ignored without setting LOST. -/
def Obligations.BusyWritesAreRefusedAndSetLost : Prop :=
  ∀ (off : Nat) (v : Word) (s : State), s.status.busy = true →
    ((off ∈ [0x00C, 0x010, 0x014, 0x018, 0x01C, 0x020] ∨
        ∃ (i : Reg) (j : Nat), j < 50 ∧ off = 0x1000 + 0x100 * i.val + 4 * j) →
      hostWrite off 4 v s = .next { s with status := { s.status with lost := true } }) ∧
    (off = 0x004 → v.getLsbD 1 = false → hostWrite off 4 v s = .next { s with ie := v.getLsbD 0 }) ∧
    (off = 0x004 → v.getLsbD 1 = true → ∃ t, hostWrite off 4 v s = .next t ∧ t.status.toWord = 0 ∧ t.ie = false ∧
      t.x = s.x) ∧
    (off = 0x008 → ∃ t, hostWrite off 4 v s = .next t ∧ t = { s with status := t.status } ∧ t.status.busy = true ∧
      t.status.done = (s.status.done && !v.getLsbD 1) ∧ t.status.ovf = (s.status.ovf && !v.getLsbD 12) ∧
      t.status.lost = (s.status.lost && !v.getLsbD 13)) ∧
    ((off % 4 = 0 ∧ off < 0x2000 ∧ (off = 0 ∨ (0x024 ≤ off ∧ off < 0x1000) ∨ (0x1000 ≤ off ∧ 0xC8 ≤ off % 0x100))) →
      hostWrite off 4 v s = .next s)

/-- R46: reserved offsets read 0, and writes to them and to ID and LEN are ignored and set no bit, busy or not. -/
def Obligations.ReservedAndReadOnlyOffsetsIgnoreWrites : Prop :=
  ∀ (off : Nat) (v : Word) (s : State), off % 4 = 0 → off < 0x2000 →
    (((0x024 ≤ off ∧ off < 0x040) ∨ (0x080 ≤ off ∧ off < 0x1000) ∨ (0x1000 ≤ off ∧ 0xC8 ≤ off % 0x100)) →
      hostRead off 4 s = .next { s with rdata := some 0 } ∧ hostWrite off 4 v s = .next s) ∧
    (off = 0 ∨ (0x040 ≤ off ∧ off < 0x080) → hostWrite off 4 v s = .next s)

/-- R23, R25, R28-R31, R43, R47: what a read of each control register returns, busy or not: ID is 0x01181032, reserved bits
are 0, and CMD is the last accepted word. While idle, a write to ARG0, ARG1, BITLEN, CONFIDENCE or RETRY_LIMIT stores the
value, its low 16 bits for BITLEN and CONFIDENCE, and changes nothing else. -/
def Obligations.ControlRegistersReadTheirFields : Prop :=
  ∀ s : State,
    hostRead 0x000 4 s = .next { s with rdata := some 0x01181032 } ∧
    hostRead 0x004 4 s = .next { s with rdata := some (BitVec.ofNat 32 s.ie.toNat) } ∧
    (∃ w : Word, hostRead 0x008 4 s = .next { s with rdata := some w } ∧
      w.toNat = s.status.busy.toNat + 2 * s.status.done.toNat + 4 * s.status.err.toNat + 16 * s.status.errcode.toNat +
        256 * s.status.cmp.toNat + 1024 * s.status.res.toNat + 4096 * s.status.ovf.toNat + 8192 * s.status.lost.toNat) ∧
    hostRead 0x00C 4 s = .next { s with rdata := some s.cmd } ∧
    hostRead 0x010 4 s = .next { s with rdata := some s.arg0 } ∧
    hostRead 0x014 4 s = .next { s with rdata := some s.arg1 } ∧
    hostRead 0x018 4 s = .next { s with rdata := some (BitVec.ofNat 32 s.bitlen.toNat) } ∧
    hostRead 0x01C 4 s = .next { s with rdata := some (BitVec.ofNat 32 s.confidence.toNat) } ∧
    hostRead 0x020 4 s = .next { s with rdata := some s.retryLimit } ∧
    ∀ v : Word, s.status.busy = false →
      hostWrite 0x010 4 v s = .next { s with arg0 := v } ∧
      hostWrite 0x014 4 v s = .next { s with arg1 := v } ∧
      hostWrite 0x018 4 v s = .next { s with bitlen := BitVec.ofNat 16 v.toNat } ∧
      hostWrite 0x01C 4 v s = .next { s with confidence := BitVec.ofNat 16 v.toNat } ∧
      hostWrite 0x020 4 v s = .next { s with retryLimit := v }

/-- R9, R32: LEN[i] of a written register reads the count of significant words: 50 for a negative value, else the least
count, at least 1, whose words hold the value. -/
def Obligations.LenReadsTheSignificantWords : Prop :=
  ∀ (i : Reg) (s : State), (s.reg i).written = BitVec.allOnes 50 →
    ∃ n : Nat, hostRead (0x040 + 4 * i.val) 4 s = .next { s with rdata := some (BitVec.ofNat 32 n) } ∧
      1 ≤ n ∧ n ≤ 50 ∧ (s.sval i < 0 → n = 50) ∧
      (0 ≤ s.sval i → s.sval i < (2 ^ 32) ^ n ∧ (1 < n → (2 ^ 32) ^ (n - 1) ≤ s.sval i))

/-- R22, R43: a host read changes nothing but the answer (and the model's own count of unconstrained answers, log entry 6),
and two reads in a row of a location whose contents the spec gives agree. A read of an unwritten word, and of LEN of a
register with one, answers any value (I2, I3): the next free value of the count, which goes up by one (log entry 6). -/
def Obligations.ReadsHaveNoSideEffect : Prop :=
  (∀ (off : Nat) (s t u : State), hostRead off 4 s = .next t → hostRead off 4 t = .next u →
    t = { s with rdata := t.rdata, drawPos := t.drawPos } ∧
    (t.drawPos = s.drawPos → u = t) ∧
    (s.drawPos < t.drawPos →
      (∃ (i : Reg) (j : Nat), j < 50 ∧ off = 0x1000 + 0x100 * i.val + 4 * j ∧ (s.reg i).written.getLsbD j = false) ∨
      (∃ i : Reg, off = 0x040 + 4 * i.val ∧ (s.reg i).written ≠ BitVec.allOnes 50))) ∧
  (∀ (i : Reg) (j : Nat) (s : State), j < 50 → (s.reg i).written.getLsbD j = false →
    hostRead (0x1000 + 0x100 * i.val + 4 * j) 4 s =
      .next { s with rdata := some (Config.readDraw s.drawPos), drawPos := s.drawPos + 1 }) ∧
  (∀ (i : Reg) (s : State), (s.reg i).written ≠ BitVec.allOnes 50 →
    hostRead (0x040 + 4 * i.val) 4 s =
      .next { s with rdata := some (Config.readDraw s.drawPos), drawPos := s.drawPos + 1 })

/-- R38, R39: an access that is not 32 bits wide or not at a multiple of 4 has no step, nor has one outside the port; every
other read has one, and so has every other write, but for a CMD write to an idle engine whose command would read an unwritten
source: it is the model fault of R22 and R115 (in this step: the model's choice, log entry 20). -/
def Obligations.AccessesTheBlockHasNoStepFor : Prop :=
  ∀ (off bytes : Nat) (v : Word) (s : State),
    ((bytes ≠ 4 ∨ off % 4 ≠ 0) → hostRead off bytes s = .fault .inexpressibleAccess ∧
      hostWrite off bytes v s = .fault .inexpressibleAccess) ∧
    (bytes = 4 → off % 4 = 0 → 0x2000 ≤ off → hostRead off bytes s = .fault .outsidePort ∧
      hostWrite off bytes v s = .fault .outsidePort) ∧
    (bytes = 4 → off % 4 = 0 → off < 0x2000 → (∃ t, hostRead off bytes s = .next t) ∧
      ((off ≠ 0x00C ∨ s.status.busy = true ∨
          ∀ i, decode v = .ok i → ∀ r ∈ i.sources, (s.reg r).written = BitVec.allOnes 50) →
        ∃ t, hostWrite off bytes v s = .next t) ∧
      (off = 0x00C → s.status.busy = false →
        (∃ i, decode v = .ok i ∧ ∃ r ∈ i.sources, (s.reg r).written ≠ BitVec.allOnes 50) →
        hostWrite off bytes v s = .fault .unwrittenSource))

/-- R22, R24: an accepted CMD write latches the word, sets BUSY, clears DONE, ERR and ERRCODE and is what CMD then reads; it
changes no register and draws nothing. The step faults instead where the word is a command that reads a register with an
unwritten word (the fault is R22's and R115's, the step in which it falls is the model's choice, log entry 20). -/
def Obligations.AcceptedCmdWriteStartsTheCommand : Prop :=
  ∀ (s : State) (c : Word) (rest : List Event), s.agenda = .hostWrite 0x00C 4 c :: rest → s.status.busy = false →
    ((∀ i, decode c = .ok i → ∀ r ∈ i.sources, (s.reg r).written = BitVec.allOnes 50) →
      ∃ t, step s = .next t ∧ t.latched = c ∧ t.cmd = c ∧
        t.status = { s.status with busy := true, done := false, err := false, errcode := 0 } ∧ t.drawn = 0 ∧
        t = { s with agenda := rest, latched := t.latched, cmd := t.cmd, status := t.status, drawn := 0 }) ∧
    (∀ i, decode c = .ok i → (∃ r ∈ i.sources, ∃ j, j < 50 ∧ (s.reg r).written.getLsbD j = false) →
      step s = .fault .unwrittenSource)

/-- R26: a STATUS write clears those of DONE, OVF and LOST that it names, busy or not, and nothing else. -/
def Obligations.StatusWriteClearsTheNamedBits : Prop :=
  ∀ (v : Word) (s : State), ∃ t, hostWrite 0x008 4 v s = .next t ∧
    t = { s with status := { s.status with done := t.status.done, ovf := t.status.ovf, lost := t.status.lost } } ∧
    (t.status.done = true ↔ s.status.done = true ∧ v.toNat / 2 % 2 = 0) ∧
    (t.status.ovf = true ↔ s.status.ovf = true ∧ v.toNat / 4096 % 2 = 0) ∧
    (t.status.lost = true ↔ s.status.lost = true ∧ v.toNat / 8192 % 2 = 0)

/-- R28, R126: a CTRL write with SRST set, busy or not, abandons the command, resets every control register and keeps every
big register and written bit; the words drawn stay drawn. The events that follow, the last answer and the count of free
answers stay as they are (the model's own fields, log entry 17). A write with SRST clear only stores IE. -/
def Obligations.SoftResetKeepsTheRegisters : Prop :=
  ∀ (v : Word) (s : State),
    (v.toNat / 2 % 2 = 1 →
      ∃ t, hostWrite 0x004 4 v s = .next t ∧ t.x = s.x ∧ t.status.toWord = 0 ∧ t.ie = false ∧ t.irq = false ∧
        t.cmd = 0 ∧ t.arg0 = 0 ∧ t.arg1 = 0 ∧ t.bitlen = 0 ∧ t.confidence = 20 ∧ t.retryLimit = 16384 ∧
        t.rng = s.rng.skip s.drawn ∧ t.drawn = 0 ∧ t.agenda = s.agenda ∧ t.rdata = s.rdata ∧ t.drawPos = s.drawPos) ∧
    (v.toNat / 2 % 2 = 0 → hostWrite 0x004 4 v s = .next { s with ie := decide (v.toNat % 2 = 1) })

/-- R37, R125: hardware reset, whatever the block is doing: the control registers' reset values, every written bit clear,
the words drawn stay drawn. The events that follow, the last answer and the count of free answers stay as they are (the
model's own fields, log entries 1 and 17). -/
def Obligations.HardResetGivesTheResetValues : Prop :=
  ∀ (s : State) (rest : List Event), s.agenda = .hardReset :: rest →
    ∃ t, step s = .next t ∧ t.status.toWord = 0 ∧ t.ie = false ∧ t.irq = false ∧ t.cmd = 0 ∧ t.arg0 = 0 ∧ t.arg1 = 0 ∧
      t.bitlen = 0 ∧ t.confidence = 20 ∧ t.retryLimit = 16384 ∧ (∀ r, (t.reg r).written = 0) ∧
      t.rng = s.rng.skip s.drawn ∧ t.drawn = 0 ∧ t.agenda = rest ∧ t.rdata = s.rdata ∧ t.drawPos = s.drawPos

/-- R116: irq is the level IE and DONE. Its one source is command completion: DONE rises only in a step in which a busy engine
completes, and every completion, with or without error and of a word that is no command too, leaves irq equal to IE. A
DONE clear, an accepted command and either reset lower it, and IE 0 masks it without clearing DONE. (The agenda is the model's own, log entries 1
and 2.) -/
def Obligations.InterruptFollowsEnableAndDone : Prop :=
  ∀ (s t : State),
    (s.irq = true ↔ s.ie = true ∧ s.status.done = true) ∧
    (step s = .next t → s.status.done = false → t.status.done = true →
      s.status.busy = true ∧ (s.agenda = [] ∨ ∃ rest, s.agenda = .engineComplete :: rest)) ∧
    (step s = .next t → s.status.busy = true → (s.agenda = [] ∨ ∃ rest, s.agenda = .engineComplete :: rest) →
      t.status.done = true ∧ t.irq = s.ie) ∧
    (∀ i : Instr, exec i s = .next t → t.irq = s.ie) ∧
    (∀ v : Word, v.getLsbD 1 = true → hostWrite 0x008 4 v s = .next t → t.irq = false) ∧
    (∀ c : Word, s.status.busy = false → hostWrite 0x00C 4 c s = .next t → t.irq = false) ∧
    (∀ v : Word, v.getLsbD 1 = true → hostWrite 0x004 4 v s = .next t → t.irq = false) ∧
    (∀ v : Word, v.getLsbD 1 = false → v.getLsbD 0 = false → hostWrite 0x004 4 v s = .next t →
      t.irq = false ∧ t.status.done = s.status.done) ∧
    s.hardReset.irq = false

/-! ## The whole machine -/

/-- R22, R24, R25, R27, R34, R111: every step keeps a state sound. (That a busy engine reads no unwritten word rests on log
entry 20, the count of drawn words on log entry 8.) -/
def Obligations.StepKeepsTheStateSound : Prop :=
  ∀ s t : State, s.sound = true → step s = .next t → t.sound = true

/-- R37: the state after hardware reset is sound. -/
def Obligations.ResetStateIsSound : Prop := State.reset.sound = true

/-- R24, R36, R125, R126, R132: a busy period ends in no way but a completion, a soft reset or a hardware reset; until it
ends, every big register and the command stay as they were, and no words are given back. In a sound state the completion is
always a next state. (The agenda is the model's own, log entry 1; that an empty one completes the command is log entry 2; that
the words of a busy engine are counted and the port itself stays until the end is log entry 8.) -/
def Obligations.BusyPeriodEndsOnlyByCompletionOrReset : Prop :=
  ∀ s : State, s.status.busy = true →
    (∀ t : State, step s = .next t →
      (t.status.busy = true → t.x = s.x ∧ t.cmd = s.cmd ∧ t.latched = s.latched ∧ t.rng = s.rng ∧
        s.drawn ≤ t.drawn ∧ t.arg0 = s.arg0 ∧ t.arg1 = s.arg1 ∧ t.bitlen = s.bitlen ∧
        t.confidence = s.confidence ∧ t.retryLimit = s.retryLimit) ∧
      (t.status.busy = false → s.agenda = [] ∨ ∃ (e : Event) (rest : List Event), s.agenda = e :: rest ∧
        (e = .engineComplete ∨ e = .hardReset ∨ ∃ v : Word, e = .hostWrite 0x004 4 v ∧ v.getLsbD 1 = true))) ∧
    (s.sound = true → (s.agenda = [] ∨ ∃ rest, s.agenda = .engineComplete :: rest) →
      ∃ t, step s = .next t ∧ t.status.busy = false ∧ t.status.done = true)

/-- R34, R55: the engine never holds more random words than its command consumes. -/
def Obligations.EngineDrawsOnlyWordsItNeeds : Prop :=
  ∀ s t : State, (s.status.busy = true → s.drawn ≤ wordsNeeded s) → (s.status.busy = false → s.drawn = 0) →
    step s = .next t →
    (t.status.busy = true → t.drawn ≤ wordsNeeded t) ∧ (t.status.busy = false → t.drawn = 0)

/-- R22: no step and no answer depends on what an unwritten word holds: states that differ only in such words step to
states that differ only in such words. -/
def Obligations.UnwrittenWordsCannotBeSeen : Prop :=
  ∀ s t : State, s.alike t → alikeOutcome (step s) (step t)

/-- R54, R66: on an idle block, the 50 writes of `LDVAL xi, v` leave the whole of x[i] written with the pattern of v, and
no other register changed. -/
def Obligations.LdvalLoadsTheValue : Prop :=
  ∀ (i : Reg) (v : Int) (s : State), s.status.busy = false → s.agenda = ldval i v →
    ∃ t, Sys2Proof.core.run 50 s = .next t ∧ t.reg i = ⟨enc v, BitVec.allOnes 50⟩ ∧
      (∀ r, r ≠ i → t.reg r = s.reg r) ∧ t = { s with x := t.x, agenda := [] }
end

