-- ==== Sys2Proof/Laws/BigInt.lean ====
section
/-! SUPPORT. The small lemmas of the value format: encoding and its readings, words, length, integer helpers. -/

set_option exponentiation.threshold 2000

namespace Sys2Proof.Machine

/-! ## Encoding -/

@[simp] theorem enc_sval (u : Big) : enc (sval u) = u := BitVec.ofInt_toInt

theorem sval_enc_bmod (v : Int) : sval (enc v) = v.bmod (2 ^ 1600) := BitVec.toInt_ofInt v

theorem fits_iff (v : Int) : fits v = true ↔ -2 ^ 1599 ≤ v ∧ v < 2 ^ 1599 := by
  unfold fits
  rw [Bool.and_eq_true, decide_eq_true_iff, decide_eq_true_iff]

theorem fits_sval (u : Big) : fits (sval u) = true :=
  (fits_iff _).2 ⟨BitVec.le_toInt u, BitVec.toInt_lt⟩

theorem sval_enc {v : Int} (h : fits v = true) : sval (enc v) = v := by
  obtain ⟨h1, h2⟩ := (fits_iff v).1 h
  exact BitVec.toInt_ofInt_eq_self (by decide) h1 h2

theorem enc_add (a b : Int) : enc (a + b) = enc a + enc b := BitVec.ofInt_add a b

theorem enc_mul (a b : Int) : enc (a * b) = enc a * enc b := BitVec.ofInt_mul a b

theorem enc_neg (a : Int) : enc (-a) = -enc a := by
  have h : enc (-a) + enc a = 0 := by
    rw [← enc_add, Int.add_left_neg]
    exact BitVec.ofInt_ofNat 1600 0
  exact eq_neg_of_add_eq_zero_left h

theorem enc_sub (a b : Int) : enc (a - b) = enc a - enc b := by
  rw [Int.sub_eq_add_neg, enc_add, enc_neg, BitVec.sub_eq_add_neg]

theorem enc_natCast (n : Nat) : enc (n : Int) = BitVec.ofNat 1600 n := BitVec.ofInt_natCast 1600 n

@[simp] theorem enc_uval (u : Big) : enc (uval u : Int) = u := by
  rw [enc_natCast]
  exact BitVec.eq_of_toNat_eq (Nat.mod_eq_of_lt u.isLt)

theorem uval_enc_natCast (n : Nat) : uval (enc (n : Int)) = n % 2 ^ 1600 := by
  rw [enc_natCast]
  exact BitVec.toNat_ofNat n 1600

theorem uval_enc_of_lt {n : Nat} (h : n < 2 ^ 1600) : uval (enc (n : Int)) = n := by
  rw [uval_enc_natCast, Nat.mod_eq_of_lt h]

/-! ## Sign -/

theorem isNeg_eq_msb (u : Big) : isNeg u = u.msb := rfl

theorem isNeg_iff (u : Big) : isNeg u = true ↔ sval u < 0 := by
  rw [isNeg_eq_msb, sval, BitVec.msb_eq_toInt]; simp

theorem sval_of_nonneg {u : Big} (h : 0 ≤ sval u) : sval u = uval u := by
  have hn : isNeg u = false := by
    cases hb : isNeg u with
    | false => rfl
    | true => exact absurd ((isNeg_iff u).1 hb) (by omega)
  rw [isNeg_eq_msb] at hn
  exact BitVec.toInt_eq_toNat_of_msb hn

theorem toNat_sval {u : Big} (h : 0 ≤ sval u) : (sval u).toNat = uval u := by
  rw [sval_of_nonneg h]; rfl

/-! ## Words -/

theorem getLsbD_wordAt (u : Big) (j i : Nat) (h : i < 32) : (wordAt u j).getLsbD i = u.getLsbD (32 * j + i) := by
  simp [wordAt, h]

theorem getLsbD_setWordAt (u : Big) (j i : Nat) (v : Word) (hi : i < 1600) :
    (setWordAt u j v).getLsbD i
      = if 32 * j ≤ i ∧ i < 32 * j + 32 then v.getLsbD (i - 32 * j) else u.getLsbD i := by
  simp only [setWordAt, BitVec.getLsbD_or, BitVec.getLsbD_and, BitVec.getLsbD_not, BitVec.getLsbD_shiftLeft,
    BitVec.getLsbD_setWidth, BitVec.getLsbD_allOnes, hi, decide_true, Bool.true_and]
  by_cases h1 : i < 32 * j
  · have h2 : ¬ (32 * j ≤ i ∧ i < 32 * j + 32) := by omega
    simp [h1, h2]
  · have h0 : i - 32 * j < 1600 := by omega
    by_cases h3 : i < 32 * j + 32
    · have h4 : i - 32 * j < 32 := by omega
      have h5 : 32 * j ≤ i ∧ i < 32 * j + 32 := by omega
      simp [h1, h0, h4, h5]
    · have h4 : ¬ (i - 32 * j < 32) := by omega
      have h5 : v.getLsbD (i - 32 * j) = false := BitVec.getLsbD_of_ge _ _ (by omega)
      simp [h1, h4, h3, h5]

theorem wordAt_setWordAt_same (u : Big) (j : Nat) (v : Word) (hj : j < 50) : wordAt (setWordAt u j v) j = v := by
  apply BitVec.eq_of_getLsbD_eq
  intro i hi
  rw [getLsbD_wordAt _ _ _ hi, getLsbD_setWordAt _ _ _ _ (by omega), if_pos (by omega), Nat.add_sub_cancel_left]

theorem wordAt_setWordAt_other (u : Big) (j k : Nat) (v : Word) (hk : k < 50) (h : k ≠ j) :
    wordAt (setWordAt u j v) k = wordAt u k := by
  apply BitVec.eq_of_getLsbD_eq
  intro i hi
  rw [getLsbD_wordAt _ _ _ hi, getLsbD_wordAt _ _ _ hi, getLsbD_setWordAt _ _ _ _ (by omega), if_neg (by omega)]

/-- Two patterns with the same 50 words are equal. -/
theorem eq_of_wordAt_eq {u v : Big} (h : ∀ j, j < 50 → wordAt u j = wordAt v j) : u = v := by
  apply BitVec.eq_of_getLsbD_eq
  intro i hi
  have e := congrArg (fun w : Word => w.getLsbD (i % 32)) (h (i / 32) (by omega))
  simp only [getLsbD_wordAt _ _ _ (Nat.mod_lt i (by omega : 0 < 32))] at e
  rwa [Nat.div_add_mod] at e

theorem wordAt_toNat (u : Big) (j : Nat) : (wordAt u j).toNat = uval u / Config.radix ^ j % Config.radix := by
  simp [wordAt, uval, Config.radix, Nat.shiftRight_eq_div_pow, Nat.pow_mul]

/-! ## Integers -/

theorem lt_two_pow_bitLength (v : Nat) : v < 2 ^ bitLength v := by
  unfold bitLength
  split
  · simp_all
  · exact Nat.lt_log2_self

theorem two_pow_bitLength_le {v : Nat} (h : v ≠ 0) : 2 ^ (bitLength v - 1) ≤ v := by
  simp only [bitLength, h, if_false, Nat.add_sub_cancel]
  exact Nat.log2_self_le h

theorem bitLength_le_iff (v n : Nat) : bitLength v ≤ n ↔ v < 2 ^ n := by
  constructor
  · intro h
    exact lt_of_lt_of_le (lt_two_pow_bitLength v) (Nat.pow_le_pow_right (by omega) h)
  · intro h
    by_cases hv : v = 0
    · simp [bitLength, hv]
    · have := lt_of_le_of_lt (two_pow_bitLength_le hv) h
      have := (Nat.pow_lt_pow_iff_right (by omega : 1 < 2)).1 this
      have : bitLength v ≠ 0 := by simp [bitLength, hv]
      omega

/-- `tz` names the odd part: `v = 2^tz(v) * t` with `t` odd. -/
theorem trailingZeros_spec (n v : Nat) (hv : v ≠ 0) (h : v < 2 ^ n) :
    2 ^ trailingZeros n v * (v / 2 ^ trailingZeros n v) = v ∧ (v / 2 ^ trailingZeros n v) % 2 = 1 := by
  induction n generalizing v with
  | zero => simp at h; omega
  | succ n ih =>
    unfold trailingZeros
    split
    · simp_all
    · have hv2 : v / 2 ≠ 0 := by omega
      have h2 : v / 2 < 2 ^ n := by rw [Nat.pow_succ] at h; omega
      obtain ⟨h1, h3⟩ := ih (v / 2) hv2 h2
      have e : v / 2 ^ (1 + trailingZeros n (v / 2)) = v / 2 / 2 ^ trailingZeros n (v / 2) := by
        rw [Nat.pow_add, Nat.pow_one, Nat.div_div_eq_div_mul]
      rw [e]
      refine ⟨?_, h3⟩
      rw [Nat.pow_add, Nat.pow_one, Nat.mul_assoc, h1]
      omega

theorem tz_spec {v : Nat} (hv : v ≠ 0) : 2 ^ tz v * (v / 2 ^ tz v) = v ∧ (v / 2 ^ tz v) % 2 = 1 :=
  trailingZeros_spec _ v hv (lt_two_pow_bitLength v)

/-! ## Length -/

theorem topWord_le (u : Big) (n : Nat) : topWord u n ≤ n := by
  induction n with
  | zero => simp [topWord]
  | succ n ih => unfold topWord; split <;> omega

theorem len_pos (u : Big) : 1 ≤ len u := by unfold len; split <;> omega

theorem len_le (u : Big) : len u ≤ 50 := by
  have := topWord_le u 50
  unfold len; split <;> omega

/-- The value below word `topWord u n` holds everything that the low `n` words hold. -/
theorem mod_lt_topWord (u : Big) (n : Nat) : uval u % Config.radix ^ n < Config.radix ^ topWord u n := by
  induction n with
  | zero => simp [topWord, Nat.mod_one]
  | succ n ih =>
    unfold topWord
    split
    · exact Nat.mod_lt _ (by simp [Config.radix])
    · rename_i h
      have hw : wordAt u n = 0 := by simpa using h
      have hz : uval u / Config.radix ^ n % Config.radix = 0 := by rw [← wordAt_toNat, hw]; rfl
      have e : uval u % Config.radix ^ (n + 1) = uval u % Config.radix ^ n := by
        rw [Nat.pow_succ, Nat.mod_mul, hz]; simp
      rw [e]; exact ih

theorem topWord_pow_le (u : Big) (n : Nat) (h : topWord u n ≠ 0) : Config.radix ^ (topWord u n - 1) ≤ uval u := by
  induction n with
  | zero => simp [topWord] at h
  | succ n ih =>
    unfold topWord at h ⊢
    split
    · rename_i hw
      have hz : uval u / Config.radix ^ n % Config.radix ≠ 0 := by
        rw [← wordAt_toNat]
        intro e
        exact hw (BitVec.eq_of_toNat_eq e)
      have : uval u / Config.radix ^ n ≠ 0 := fun e => hz (by rw [e]; rfl)
      simp only [Nat.add_sub_cancel]
      exact (Nat.le_div_iff_mul_le (by simp [Config.radix])).1 (Nat.one_le_iff_ne_zero.2 this) |>.trans' (by simp)
    · rename_i hw
      simp only [hw] at h
      exact ih h

theorem uval_lt (u : Big) : uval u < Config.radix ^ 50 := by
  have e : Config.radix ^ 50 = 2 ^ 1600 := (Nat.pow_mul 2 32 50).symm
  rw [e]
  exact u.isLt

/-- A non-negative pattern lies below `b^len`. -/
theorem uval_lt_pow_len {u : Big} (h : isNeg u = false) : uval u < Config.radix ^ len u := by
  have h1 := mod_lt_topWord u 50
  rw [Nat.mod_eq_of_lt (uval_lt u)] at h1
  refine lt_of_lt_of_le h1 (Nat.pow_le_pow_right (by simp [Config.radix]) ?_)
  simp [len, h]

/-- A positive pattern is at least `b^(len-1)`. -/
theorem pow_len_le_uval {u : Big} (h : isNeg u = false) (h0 : uval u ≠ 0) :
    Config.radix ^ (len u - 1) ≤ uval u := by
  have h1 := mod_lt_topWord u 50
  rw [Nat.mod_eq_of_lt (uval_lt u)] at h1
  have ht : topWord u 50 ≠ 0 := by
    intro e
    rw [e] at h1
    simp at h1
    exact h0 h1
  have hl : len u = topWord u 50 := by
    simp only [len, h, Bool.false_eq_true, if_false]; omega
  rw [hl]
  exact topWord_pow_le u 50 ht

end Sys2Proof.Machine
end

