-- ==== Sys2Proof/Laws/Config.lean ====
section
/-! SUPPORT. The parameters of R6 are the widths that the model's types and fields have. -/

namespace Sys2Proof.Machine

theorem word_width : Word = BitVec Config.wordBits := rfl
theorem big_width : Big = BitVec Config.bigBits := rfl
theorem bigBits_eq : Config.bigBits = Config.wordBits * Config.bigWords := rfl
theorem radix_eq : Config.radix = 2 ^ Config.wordBits := rfl
theorem reg_count : Reg = Fin Config.numRegs := rfl
theorem kMax_eq : Config.kMax = (Config.bigWords - 2) / 2 := rfl

/-- The shift amount of format S is a field of SHW bits. -/
theorem fieldShamt_width (c : Word) : fieldShamt c = c.extractLsb' 16 Config.shamtBits := rfl

/-- The random port delivers words of RNGW bits. -/
theorem next_width (g : Rng) : g.next.1.toNat < 2 ^ Config.rngBits := g.next.1.isLt

theorem liftBytes_append (d : List (BitVec 8)) (x : BitVec 8) : liftBytes (d ++ [x]) = 256 * liftBytes d + x.toNat := by
  simp [liftBytes]

theorem liftBytes_lt (d : List (BitVec 8)) : liftBytes d < 256 ^ d.length := by
  induction d using List.reverseRecOn with
  | nil => simp [liftBytes]
  | append_singleton d x ih =>
    rw [liftBytes_append, List.length_append, List.length_singleton, Nat.pow_succ]
    have := x.isLt
    omega

/-- A digest of DIGEST_BITS bits is lifted to a value below `2^DIGEST_BITS`. -/
theorem liftBytes_digest (d : List (BitVec 8)) (h : 8 * d.length = Config.digestBits) :
    liftBytes d < 2 ^ Config.digestBits := by
  rw [← h, Nat.pow_mul]
  exact liftBytes_lt d

end Sys2Proof.Machine
end

