-- ==== Sys2Proof/Laws/State.lean ====
section
/-! SUPPORT. One lemma for each field under each named update of the state, and the register accessors under them, so that
no proof unfolds a record update. -/

namespace Sys2Proof.Machine.State

variable (s : State)

/-! ## setReg -/

@[simp] theorem setReg_x (r : Reg) (v : Big) : (s.setReg r v).x = s.x.set r.val ⟨v, BitVec.allOnes 50⟩ := rfl
@[simp] theorem setReg_ie (r : Reg) (v : Big) : (s.setReg r v).ie = s.ie := rfl
@[simp] theorem setReg_status (r : Reg) (v : Big) : (s.setReg r v).status = s.status := rfl
@[simp] theorem setReg_cmd (r : Reg) (v : Big) : (s.setReg r v).cmd = s.cmd := rfl
@[simp] theorem setReg_arg0 (r : Reg) (v : Big) : (s.setReg r v).arg0 = s.arg0 := rfl
@[simp] theorem setReg_arg1 (r : Reg) (v : Big) : (s.setReg r v).arg1 = s.arg1 := rfl
@[simp] theorem setReg_bitlen (r : Reg) (v : Big) : (s.setReg r v).bitlen = s.bitlen := rfl
@[simp] theorem setReg_confidence (r : Reg) (v : Big) : (s.setReg r v).confidence = s.confidence := rfl
@[simp] theorem setReg_retryLimit (r : Reg) (v : Big) : (s.setReg r v).retryLimit = s.retryLimit := rfl
@[simp] theorem setReg_latched (r : Reg) (v : Big) : (s.setReg r v).latched = s.latched := rfl
@[simp] theorem setReg_drawn (r : Reg) (v : Big) : (s.setReg r v).drawn = s.drawn := rfl
@[simp] theorem setReg_rng (r : Reg) (v : Big) : (s.setReg r v).rng = s.rng := rfl
@[simp] theorem setReg_agenda (r : Reg) (v : Big) : (s.setReg r v).agenda = s.agenda := rfl
@[simp] theorem setReg_rdata (r : Reg) (v : Big) : (s.setReg r v).rdata = s.rdata := rfl
@[simp] theorem setReg_drawPos (r : Reg) (v : Big) : (s.setReg r v).drawPos = s.drawPos := rfl

/-! ## setRegWord -/

@[simp] theorem setRegWord_x (r : Reg) (j : Nat) (v : Word) : (s.setRegWord r j v).x = s.x.set r.val ⟨setWordAt (s.val r) j v, (s.reg r).written ||| BitVec.twoPow 50 j⟩ := rfl
@[simp] theorem setRegWord_ie (r : Reg) (j : Nat) (v : Word) : (s.setRegWord r j v).ie = s.ie := rfl
@[simp] theorem setRegWord_status (r : Reg) (j : Nat) (v : Word) : (s.setRegWord r j v).status = s.status := rfl
@[simp] theorem setRegWord_cmd (r : Reg) (j : Nat) (v : Word) : (s.setRegWord r j v).cmd = s.cmd := rfl
@[simp] theorem setRegWord_arg0 (r : Reg) (j : Nat) (v : Word) : (s.setRegWord r j v).arg0 = s.arg0 := rfl
@[simp] theorem setRegWord_arg1 (r : Reg) (j : Nat) (v : Word) : (s.setRegWord r j v).arg1 = s.arg1 := rfl
@[simp] theorem setRegWord_bitlen (r : Reg) (j : Nat) (v : Word) : (s.setRegWord r j v).bitlen = s.bitlen := rfl
@[simp] theorem setRegWord_confidence (r : Reg) (j : Nat) (v : Word) : (s.setRegWord r j v).confidence = s.confidence := rfl
@[simp] theorem setRegWord_retryLimit (r : Reg) (j : Nat) (v : Word) : (s.setRegWord r j v).retryLimit = s.retryLimit := rfl
@[simp] theorem setRegWord_latched (r : Reg) (j : Nat) (v : Word) : (s.setRegWord r j v).latched = s.latched := rfl
@[simp] theorem setRegWord_drawn (r : Reg) (j : Nat) (v : Word) : (s.setRegWord r j v).drawn = s.drawn := rfl
@[simp] theorem setRegWord_rng (r : Reg) (j : Nat) (v : Word) : (s.setRegWord r j v).rng = s.rng := rfl
@[simp] theorem setRegWord_agenda (r : Reg) (j : Nat) (v : Word) : (s.setRegWord r j v).agenda = s.agenda := rfl
@[simp] theorem setRegWord_rdata (r : Reg) (j : Nat) (v : Word) : (s.setRegWord r j v).rdata = s.rdata := rfl
@[simp] theorem setRegWord_drawPos (r : Reg) (j : Nat) (v : Word) : (s.setRegWord r j v).drawPos = s.drawPos := rfl

/-! ## setStatus -/

@[simp] theorem setStatus_x (t : Status) : (s.setStatus t).x = s.x := rfl
@[simp] theorem setStatus_ie (t : Status) : (s.setStatus t).ie = s.ie := rfl
@[simp] theorem setStatus_status (t : Status) : (s.setStatus t).status = t := rfl
@[simp] theorem setStatus_cmd (t : Status) : (s.setStatus t).cmd = s.cmd := rfl
@[simp] theorem setStatus_arg0 (t : Status) : (s.setStatus t).arg0 = s.arg0 := rfl
@[simp] theorem setStatus_arg1 (t : Status) : (s.setStatus t).arg1 = s.arg1 := rfl
@[simp] theorem setStatus_bitlen (t : Status) : (s.setStatus t).bitlen = s.bitlen := rfl
@[simp] theorem setStatus_confidence (t : Status) : (s.setStatus t).confidence = s.confidence := rfl
@[simp] theorem setStatus_retryLimit (t : Status) : (s.setStatus t).retryLimit = s.retryLimit := rfl
@[simp] theorem setStatus_latched (t : Status) : (s.setStatus t).latched = s.latched := rfl
@[simp] theorem setStatus_drawn (t : Status) : (s.setStatus t).drawn = s.drawn := rfl
@[simp] theorem setStatus_rng (t : Status) : (s.setStatus t).rng = s.rng := rfl
@[simp] theorem setStatus_agenda (t : Status) : (s.setStatus t).agenda = s.agenda := rfl
@[simp] theorem setStatus_rdata (t : Status) : (s.setStatus t).rdata = s.rdata := rfl
@[simp] theorem setStatus_drawPos (t : Status) : (s.setStatus t).drawPos = s.drawPos := rfl

/-! ## setRng -/

@[simp] theorem setRng_x (g : Rng) : (s.setRng g).x = s.x := rfl
@[simp] theorem setRng_ie (g : Rng) : (s.setRng g).ie = s.ie := rfl
@[simp] theorem setRng_status (g : Rng) : (s.setRng g).status = s.status := rfl
@[simp] theorem setRng_cmd (g : Rng) : (s.setRng g).cmd = s.cmd := rfl
@[simp] theorem setRng_arg0 (g : Rng) : (s.setRng g).arg0 = s.arg0 := rfl
@[simp] theorem setRng_arg1 (g : Rng) : (s.setRng g).arg1 = s.arg1 := rfl
@[simp] theorem setRng_bitlen (g : Rng) : (s.setRng g).bitlen = s.bitlen := rfl
@[simp] theorem setRng_confidence (g : Rng) : (s.setRng g).confidence = s.confidence := rfl
@[simp] theorem setRng_retryLimit (g : Rng) : (s.setRng g).retryLimit = s.retryLimit := rfl
@[simp] theorem setRng_latched (g : Rng) : (s.setRng g).latched = s.latched := rfl
@[simp] theorem setRng_drawn (g : Rng) : (s.setRng g).drawn = s.drawn := rfl
@[simp] theorem setRng_rng (g : Rng) : (s.setRng g).rng = g := rfl
@[simp] theorem setRng_agenda (g : Rng) : (s.setRng g).agenda = s.agenda := rfl
@[simp] theorem setRng_rdata (g : Rng) : (s.setRng g).rdata = s.rdata := rfl
@[simp] theorem setRng_drawPos (g : Rng) : (s.setRng g).drawPos = s.drawPos := rfl

/-! ## endDraws -/

@[simp] theorem endDraws_x : (s.endDraws).x = s.x := rfl
@[simp] theorem endDraws_ie : (s.endDraws).ie = s.ie := rfl
@[simp] theorem endDraws_status : (s.endDraws).status = s.status := rfl
@[simp] theorem endDraws_cmd : (s.endDraws).cmd = s.cmd := rfl
@[simp] theorem endDraws_arg0 : (s.endDraws).arg0 = s.arg0 := rfl
@[simp] theorem endDraws_arg1 : (s.endDraws).arg1 = s.arg1 := rfl
@[simp] theorem endDraws_bitlen : (s.endDraws).bitlen = s.bitlen := rfl
@[simp] theorem endDraws_confidence : (s.endDraws).confidence = s.confidence := rfl
@[simp] theorem endDraws_retryLimit : (s.endDraws).retryLimit = s.retryLimit := rfl
@[simp] theorem endDraws_latched : (s.endDraws).latched = s.latched := rfl
@[simp] theorem endDraws_drawn : (s.endDraws).drawn = 0 := rfl
@[simp] theorem endDraws_rng : (s.endDraws).rng = s.rng := rfl
@[simp] theorem endDraws_agenda : (s.endDraws).agenda = s.agenda := rfl
@[simp] theorem endDraws_rdata : (s.endDraws).rdata = s.rdata := rfl
@[simp] theorem endDraws_drawPos : (s.endDraws).drawPos = s.drawPos := rfl

/-! ## acceptCmd -/

@[simp] theorem acceptCmd_x (c : Word) : (s.acceptCmd c).x = s.x := rfl
@[simp] theorem acceptCmd_ie (c : Word) : (s.acceptCmd c).ie = s.ie := rfl
@[simp] theorem acceptCmd_status (c : Word) : (s.acceptCmd c).status = s.status.accept := rfl
@[simp] theorem acceptCmd_cmd (c : Word) : (s.acceptCmd c).cmd = c := rfl
@[simp] theorem acceptCmd_arg0 (c : Word) : (s.acceptCmd c).arg0 = s.arg0 := rfl
@[simp] theorem acceptCmd_arg1 (c : Word) : (s.acceptCmd c).arg1 = s.arg1 := rfl
@[simp] theorem acceptCmd_bitlen (c : Word) : (s.acceptCmd c).bitlen = s.bitlen := rfl
@[simp] theorem acceptCmd_confidence (c : Word) : (s.acceptCmd c).confidence = s.confidence := rfl
@[simp] theorem acceptCmd_retryLimit (c : Word) : (s.acceptCmd c).retryLimit = s.retryLimit := rfl
@[simp] theorem acceptCmd_latched (c : Word) : (s.acceptCmd c).latched = c := rfl
@[simp] theorem acceptCmd_drawn (c : Word) : (s.acceptCmd c).drawn = 0 := rfl
@[simp] theorem acceptCmd_rng (c : Word) : (s.acceptCmd c).rng = s.rng := rfl
@[simp] theorem acceptCmd_agenda (c : Word) : (s.acceptCmd c).agenda = s.agenda := rfl
@[simp] theorem acceptCmd_rdata (c : Word) : (s.acceptCmd c).rdata = s.rdata := rfl
@[simp] theorem acceptCmd_drawPos (c : Word) : (s.acceptCmd c).drawPos = s.drawPos := rfl

/-! ## abandon -/

@[simp] theorem abandon_x : (s.abandon).x = s.x := rfl
@[simp] theorem abandon_ie : (s.abandon).ie = s.ie := rfl
@[simp] theorem abandon_status : (s.abandon).status = s.status := rfl
@[simp] theorem abandon_cmd : (s.abandon).cmd = s.cmd := rfl
@[simp] theorem abandon_arg0 : (s.abandon).arg0 = s.arg0 := rfl
@[simp] theorem abandon_arg1 : (s.abandon).arg1 = s.arg1 := rfl
@[simp] theorem abandon_bitlen : (s.abandon).bitlen = s.bitlen := rfl
@[simp] theorem abandon_confidence : (s.abandon).confidence = s.confidence := rfl
@[simp] theorem abandon_retryLimit : (s.abandon).retryLimit = s.retryLimit := rfl
@[simp] theorem abandon_latched : (s.abandon).latched = s.latched := rfl
@[simp] theorem abandon_drawn : (s.abandon).drawn = 0 := rfl
@[simp] theorem abandon_rng : (s.abandon).rng = Rng.skip s.drawn s.rng := rfl
@[simp] theorem abandon_agenda : (s.abandon).agenda = s.agenda := rfl
@[simp] theorem abandon_rdata : (s.abandon).rdata = s.rdata := rfl
@[simp] theorem abandon_drawPos : (s.abandon).drawPos = s.drawPos := rfl

/-! ## Registers -/

theorem reg_def (r : Reg) : s.reg r = s.x[r.val] := rfl

@[simp] theorem reg_setReg_same (r : Reg) (v : Big) : (s.setReg r v).reg r = ⟨v, BitVec.allOnes 50⟩ := by
  simp [reg]

theorem reg_setReg_other (r q : Reg) (v : Big) (h : q ≠ r) : (s.setReg r v).reg q = s.reg q := by
  have hv : r.val ≠ q.val := fun e => h (Fin.ext e.symm)
  simp [reg, hv]

@[simp] theorem reg_setRegWord_same (r : Reg) (j : Nat) (v : Word) :
    (s.setRegWord r j v).reg r
      = ⟨setWordAt (s.val r) j v, (s.reg r).written ||| BitVec.twoPow 50 j⟩ := by
  simp [reg]

theorem reg_setRegWord_other (r q : Reg) (j : Nat) (v : Word) (h : q ≠ r) :
    (s.setRegWord r j v).reg q = s.reg q := by
  have hv : r.val ≠ q.val := fun e => h (Fin.ext e.symm)
  simp [reg, hv]

@[simp] theorem reg_setStatus (t : Status) (r : Reg) : (s.setStatus t).reg r = s.reg r := rfl
@[simp] theorem reg_setRng (g : Rng) (r : Reg) : (s.setRng g).reg r = s.reg r := rfl
@[simp] theorem reg_endDraws (r : Reg) : s.endDraws.reg r = s.reg r := rfl
@[simp] theorem reg_acceptCmd (c : Word) (r : Reg) : (s.acceptCmd c).reg r = s.reg r := rfl
@[simp] theorem reg_abandon (r : Reg) : s.abandon.reg r = s.reg r := rfl
@[simp] theorem val_setRng (g : Rng) (r : Reg) : (s.setRng g).val r = s.val r := rfl
@[simp] theorem sval_setRng (g : Rng) (r : Reg) : (s.setRng g).sval r = s.sval r := rfl
@[simp] theorem val_setReg_same (r : Reg) (v : Big) : (s.setReg r v).val r = v := by simp [val]

/-- Two states with the same registers and the same other fields are equal: registers compare one by one. -/
theorem x_ext {s t : State} (h : ∀ r, s.reg r = t.reg r) : s.x = t.x := by
  apply Vector.ext
  intro i hi
  exact h ⟨i, hi⟩

/-! ## Several register writes -/

theorem setRegs_eq_x (ws : List (Reg × Big)) (s : State) : s.setRegs ws = { s with x := (s.setRegs ws).x } := by
  induction ws generalizing s with
  | nil => rfl
  | cons p ws ih =>
    obtain ⟨r, v⟩ := p
    have h := ih (s.setReg r v)
    calc (s.setReg r v).setRegs ws = { s.setReg r v with x := ((s.setReg r v).setRegs ws).x } := h
      _ = _ := rfl

/-- A register that no write names keeps its contents and its written bits. -/
theorem reg_setRegs_other (ws : List (Reg × Big)) (s : State) (q : Reg) (h : q ∉ ws.map Prod.fst) :
    (s.setRegs ws).reg q = s.reg q := by
  induction ws generalizing s with
  | nil => rfl
  | cons p ws ih =>
    obtain ⟨r, v⟩ := p
    simp only [List.map_cons, List.mem_cons, not_or] at h
    exact (ih (s.setReg r v) h.2).trans (reg_setReg_other s r q v h.1)

/-- A register written once holds the value written, every word of it written. -/
theorem reg_setRegs_of_mem (ws : List (Reg × Big)) (s : State) (hn : (ws.map Prod.fst).Nodup) (r : Reg) (v : Big)
    (h : (r, v) ∈ ws) : (s.setRegs ws).reg r = ⟨v, BitVec.allOnes 50⟩ := by
  induction ws generalizing s with
  | nil => cases h
  | cons p ws ih =>
    obtain ⟨q, w⟩ := p
    simp only [List.map_cons, List.nodup_cons] at hn
    cases h with
    | head => exact (reg_setRegs_other ws _ r hn.1).trans (reg_setReg_same s r v)
    | tail _ h => exact ih (s.setReg q w) hn.2 h

end Sys2Proof.Machine.State
end

