-- ==== Sys2Proof/Laws/Ops.lean ====
section
/-! SUPPORT. What each shared operation can do, said once: completion, the written check, the random port. -/

namespace Sys2Proof.Machine

/-! ## Completion -/

theorem State.commit_eq (s : State) (r : Result) :
    s.commit r = { s with x := (s.setRegs r.writes).x, status := s.status.completed r, drawn := 0 } := by
  unfold State.commit
  rw [State.setRegs_eq_x]
  rfl

theorem State.raise_eq (s : State) (e : ErrCode) :
    s.raise e = { s with status := s.status.failed e, drawn := 0 } := rfl

@[simp] theorem State.commit_status (s : State) (r : Result) : (s.commit r).status = s.status.completed r := rfl
@[simp] theorem State.commit_drawn (s : State) (r : Result) : (s.commit r).drawn = 0 := rfl
@[simp] theorem State.commit_rng (s : State) (r : Result) : (s.commit r).rng = s.rng := by rw [State.commit_eq]
@[simp] theorem State.raise_status (s : State) (e : ErrCode) : (s.raise e).status = s.status.failed e := rfl
@[simp] theorem State.raise_drawn (s : State) (e : ErrCode) : (s.raise e).drawn = 0 := rfl
@[simp] theorem State.raise_rng (s : State) (e : ErrCode) : (s.raise e).rng = s.rng := rfl
@[simp] theorem State.raise_reg (s : State) (e : ErrCode) (r : Reg) : (s.raise e).reg r = s.reg r := rfl

theorem State.commit_reg (s : State) (res : Result) (r : Reg) : (s.commit res).reg r = (s.setRegs res.writes).reg r := by
  rw [State.commit_eq]; rfl

theorem State.commit_reg_other (s : State) (res : Result) (r : Reg) (h : r ∉ res.writes.map Prod.fst) :
    (s.commit res).reg r = s.reg r := by
  rw [State.commit_reg, State.reg_setRegs_other _ _ _ h]

theorem State.commit_reg_of_mem (s : State) (res : Result) (hn : (res.writes.map Prod.fst).Nodup) (r : Reg) (v : Big)
    (h : (r, v) ∈ res.writes) : (s.commit res).reg r = ⟨v, BitVec.allOnes 50⟩ := by
  rw [State.commit_reg, State.reg_setRegs_of_mem _ _ hn _ _ h]

@[simp] theorem finish_ok (s : State) (r : Result) : finish s (.ok r) = .next (s.commit r) := rfl
@[simp] theorem finish_error (s : State) (e : ErrCode) : finish s (.error e) = .next (s.raise e) := rfl

/-- A command that finishes always gives a next state. -/
theorem finish_cases (s : State) (r : Except ErrCode Result) :
    (∃ x, r = .ok x ∧ finish s r = .next (s.commit x)) ∨ (∃ e, r = .error e ∧ finish s r = .next (s.raise e)) := by
  cases r with
  | ok x => exact .inl ⟨x, rfl, rfl⟩
  | error e => exact .inr ⟨e, rfl, rfl⟩

theorem withSources_of_readable {rs : List Reg} {s : State} (h : s.readable rs = true)
    (k : State → Host.Outcome State Fault Refusal) : withSources rs s k = k s := if_pos h

theorem withSources_of_unwritten {rs : List Reg} {s : State} (h : s.readable rs = false)
    (k : State → Host.Outcome State Fault Refusal) : withSources rs s k = .fault .unwrittenSource := by
  simp [withSources, h]

theorem readable_iff (s : State) (rs : List Reg) :
    s.readable rs = true ↔ ∀ r ∈ rs, (s.reg r).written = BitVec.allOnes 50 := by
  simp [State.readable, BigReg.isWritten]

/-! ## Status -/

@[simp] theorem completed_busy (t : Status) (r : Result) : (t.completed r).busy = false := rfl
@[simp] theorem completed_done (t : Status) (r : Result) : (t.completed r).done = true := rfl
@[simp] theorem completed_err (t : Status) (r : Result) : (t.completed r).err = false := rfl
@[simp] theorem completed_errcode (t : Status) (r : Result) : (t.completed r).errcode = 0 := rfl
@[simp] theorem completed_lost (t : Status) (r : Result) : (t.completed r).lost = t.lost := rfl
@[simp] theorem failed_busy (t : Status) (e : ErrCode) : (t.failed e).busy = false := rfl
@[simp] theorem failed_done (t : Status) (e : ErrCode) : (t.failed e).done = true := rfl
@[simp] theorem failed_err (t : Status) (e : ErrCode) : (t.failed e).err = true := rfl
@[simp] theorem failed_errcode (t : Status) (e : ErrCode) : (t.failed e).errcode = errCodeBits e := rfl

theorem errCodeBits_ne_zero (e : ErrCode) : errCodeBits e ≠ 0 := by cases e <;> decide
theorem errCodeBits_injective {e f : ErrCode} (h : errCodeBits e = errCodeBits f) : e = f := by
  cases e <;> cases f <;> first | rfl | exact absurd h (by decide)

/-! ## The random port -/

theorem next_pos (g : Rng) : g.next.2.pos = g.pos + 1 := by
  unfold Rng.next; split <;> rfl

theorem skip_pos (n : Nat) (g : Rng) : (g.skip n).pos = g.pos + n := by
  induction n generalizing g with
  | zero => rfl
  | succ n ih => rw [Rng.skip, ih, next_pos]; omega

theorem drawWords_succ (m : Nat) (g : Rng) :
    drawWords (m + 1) g
      = (g.next.1.toNat + Config.radix * (drawWords m g.next.2).1, (drawWords m g.next.2).2) := rfl

theorem drawWords_rng (m : Nat) (g : Rng) : (drawWords m g).2 = g.skip m := by
  induction m generalizing g with
  | zero => rfl
  | succ m ih => rw [drawWords_succ, Rng.skip]; exact ih _

theorem drawWords_lt (m : Nat) (g : Rng) : (drawWords m g).1 < Config.radix ^ m := by
  induction m generalizing g with
  | zero => simp [drawWords]
  | succ m ih =>
    rw [drawWords_succ, Nat.pow_succ']
    show g.next.1.toNat + Config.radix * (drawWords m g.next.2).1 < _
    have h1 : g.next.1.toNat < Config.radix := g.next.1.isLt
    have h2 := Nat.mul_le_mul_left Config.radix (Nat.succ_le_of_lt (ih g.next.2))
    rw [Nat.mul_succ] at h2
    omega

theorem rawBits_eq (L : Nat) (g : Rng) : rawBits L g = ((drawWords (wordsFor L) g).1 % 2 ^ L, g.skip (wordsFor L)) := by
  rw [← drawWords_rng]; rfl

theorem randomBits_eq (L : Nat) (g : Rng) :
    randomBits L g = ((drawWords (wordsFor L) g).1 % 2 ^ L ||| 2 ^ (L - 1), g.skip (wordsFor L)) := by
  rw [← drawWords_rng]; rfl

theorem rawBits_lt (L : Nat) (g : Rng) : (rawBits L g).1 < 2 ^ L := by
  rw [rawBits_eq]; exact Nat.mod_lt _ (by positivity)

/-- `RandomBits(L)` has exactly `L` bits (R15). -/
theorem randomBits_bounds {L : Nat} (hL : 1 ≤ L) (g : Rng) :
    2 ^ (L - 1) ≤ (randomBits L g).1 ∧ (randomBits L g).1 < 2 ^ L := by
  rw [randomBits_eq]
  refine ⟨Nat.right_le_or, Nat.or_lt_two_pow (Nat.mod_lt _ (by positivity)) ?_⟩
  exact Nat.pow_lt_pow_right (by omega) (by omega)

end Sys2Proof.Machine
end

