-- ==== Sys2Proof/Laws/Exec.lean ====
section
/-! SUPPORT. What executing a command can do, said once for all 26: it faults on an unwritten source, raises EILLEGAL on equal
destinations, or completes with results for exactly its destinations, or completes with an error. Frames, flags and the
invariant follow from this one lemma. -/

namespace Sys2Proof.Machine

/-- A command's results are for its own destinations and its own STATUS fields. -/
structure Result.fitsCommand (r : Result) (i : Instr) : Prop where
  dests : r.writes.map Prod.fst = i.dests
  cmp   : r.cmp ≠ none → i.writesCmp = true
  res   : r.res ≠ none → i.writesRes = true
  ovf   : r.ovf = true → i.mayOverflow = true

/-- The two ways a command runs to its completion, with the random port moving only for the commands that draw. -/
def completes (i : Instr) (s : State) (o : Host.Outcome State Fault Refusal) : Prop :=
  ∃ g : Rng, (i.draws = false → g = s.rng) ∧
    ((∃ r : Result, r.fitsCommand i ∧ o = .next ((s.setRng g).commit r)) ∨ ∃ e, o = .next ((s.setRng g).raise e))

theorem completes_finish (i : Instr) (s : State) (v : Except ErrCode Result)
    (h : ∀ r, v = .ok r → r.fitsCommand i) : completes i s (finish s v) := by
  refine ⟨s.rng, fun _ => rfl, ?_⟩
  cases v with
  | ok r => exact .inl ⟨r, h r rfl, rfl⟩
  | error e => exact .inr ⟨e, rfl⟩

theorem completes_ok (i : Instr) (s : State) (r : Result) (h : r.fitsCommand i) : completes i s (finish s (.ok r)) :=
  completes_finish i s _ fun x hx => by cases hx; exact h

theorem completes_finishDraw (i : Instr) (s : State) (v : Except ErrCode Result × Rng) (hd : i.draws = true)
    (h : ∀ r, v.1 = .ok r → r.fitsCommand i) : completes i s (finishDraw s v) := by
  obtain ⟨v, g⟩ := v
  refine ⟨g, fun hf => by simp [hd] at hf, ?_⟩
  cases v with
  | ok r => exact .inl ⟨r, h r rfl, rfl⟩
  | error e => exact .inr ⟨e, rfl⟩

/-- A value that is mapped into a result of one shape gives a result of that shape. -/
theorem map_ok_shape {α : Type} {v : Except ErrCode α} {f : α → Result} {P : Result → Prop} (h : ∀ a, P (f a)) :
    ∀ r, v.map f = .ok r → P r := by
  intro r hr
  cases v with
  | ok a =>
    cases hr
    exact h a
  | error e => cases hr

/-- A command that draws a value and makes its results of it. -/
theorem completes_draw {α : Type} {i : Instr} {s : State} (v : Except ErrCode α × Rng) (f : α → Result)
    (hd : i.draws = true) (h : ∀ a, (f a).fitsCommand i) : completes i s (finishDraw s (v.1.map f, v.2)) :=
  completes_finishDraw i s _ hd (map_ok_shape h)

theorem oneWrite_fits {i : Instr} {rd : Reg} (hd : i.dests = [rd]) (v : Int) : (oneWrite rd v).fitsCommand i :=
  ⟨by simp [oneWrite, hd], by simp [oneWrite], by simp [oneWrite], by simp [oneWrite]⟩

theorem wrapped_fits {i : Instr} {rd : Reg} (hd : i.dests = [rd]) (ho : i.mayOverflow = true) (v : Int) :
    (wrapped rd v).fitsCommand i :=
  ⟨by simp [wrapped, hd], by simp [wrapped], by simp [wrapped], fun _ => ho⟩

theorem distinct_of_nodup {a b c : Reg} (h : ([a, b, c] : List Reg).Nodup) : ¬ (a = b ∨ a = c ∨ b = c) := by
  simp at h
  tauto

theorem readable_nil (s : State) : s.readable [] = true := rfl

/-- A well-formed command on written sources runs to its completion. -/
theorem exec_completes (i : Instr) (s : State) (hw : i.wellFormed = true) (hr : s.readable i.sources = true) :
    completes i s (exec i s) := by
  cases i with
  | nop => exact completes_ok _ _ _ ⟨rfl, by simp, by simp, by simp⟩
  | ldi rd => exact completes_ok _ _ _ (oneWrite_fits rfl _)
  | mov rd rs1 =>
    simp only [Instr.sources] at hr
    rw [exec, execMov, withSources_of_readable hr]
    exact completes_ok _ _ _ ⟨rfl, by simp, by simp, by simp⟩
  | add rd rs1 rs2 =>
    simp only [Instr.sources] at hr
    rw [exec, execAdd, withSources_of_readable hr]
    exact completes_ok _ _ _ (wrapped_fits rfl rfl _)
  | sub rd rs1 rs2 =>
    simp only [Instr.sources] at hr
    rw [exec, execSub, withSources_of_readable hr]
    exact completes_ok _ _ _ (wrapped_fits rfl rfl _)
  | neg rd rs1 =>
    simp only [Instr.sources] at hr
    rw [exec, execNeg, withSources_of_readable hr]
    exact completes_ok _ _ _ (wrapped_fits rfl rfl _)
  | cmp rs1 rs2 =>
    simp only [Instr.sources] at hr
    rw [exec, execCmp, withSources_of_readable hr]
    exact completes_ok _ _ _ ⟨rfl, fun _ => rfl, by simp, by simp⟩
  | shl rd rs1 shamt =>
    simp only [Instr.sources] at hr
    rw [exec, execShl, withSources_of_readable hr]
    exact completes_ok _ _ _ (wrapped_fits rfl rfl _)
  | shr rd rs1 shamt =>
    simp only [Instr.sources] at hr
    rw [exec, execShr, withSources_of_readable hr]
    exact completes_ok _ _ _ (oneWrite_fits rfl _)
  | mul rd rs1 rs2 =>
    simp only [Instr.sources] at hr
    rw [exec, execMul, withSources_of_readable hr]
    exact completes_ok _ _ _ ⟨rfl, by simp, by simp, fun _ => rfl⟩
  | div rd rs1 rs2 =>
    simp only [Instr.sources] at hr
    rw [exec, execDiv, withSources_of_readable hr]
    exact completes_finish _ _ _ (map_ok_shape fun _ => oneWrite_fits rfl _)
  | rem rd rs1 rs2 =>
    simp only [Instr.sources] at hr
    rw [exec, execRem, withSources_of_readable hr]
    exact completes_finish _ _ _ (map_ok_shape fun _ => oneWrite_fits rfl _)
  | divrem rd rs1 rs2 rd2 =>
    have hn : rd ≠ rd2 := by simpa [Instr.wellFormed, Instr.dests] using hw
    simp only [Instr.sources] at hr
    rw [exec, execDivrem, if_neg hn, withSources_of_readable hr]
    refine completes_finish _ _ _ (map_ok_shape fun _ => ?_)
    exact ⟨rfl, by simp, by simp, by simp⟩
  | mu rd rs1 =>
    simp only [Instr.sources] at hr
    rw [exec, execMu, withSources_of_readable hr]
    exact completes_finish _ _ _ (map_ok_shape fun _ => oneWrite_fits rfl _)
  | bred rd rs1 rs2 rs3 =>
    simp only [Instr.sources] at hr
    rw [exec, execBred, withSources_of_readable hr]
    exact completes_finish _ _ _ (map_ok_shape fun _ => oneWrite_fits rfl _)
  | modmul rd rs1 rs2 rs3 =>
    simp only [Instr.sources] at hr
    rw [exec, execModmul, withSources_of_readable hr]
    exact completes_finish _ _ _ (map_ok_shape fun _ => oneWrite_fits rfl _)
  | modpow rd rs1 rs2 rs3 =>
    simp only [Instr.sources] at hr
    rw [exec, execModpow, withSources_of_readable hr]
    exact completes_finish _ _ _ (map_ok_shape fun _ => oneWrite_fits rfl _)
  | gcd rd rs1 rs2 =>
    simp only [Instr.sources] at hr
    rw [exec, execGcd, withSources_of_readable hr]
    exact completes_finish _ _ _ (map_ok_shape fun _ => oneWrite_fits rfl _)
  | extgcd rd rs1 rs2 rd2 rd3 =>
    have hn : ¬ (rd = rd2 ∨ rd = rd3 ∨ rd2 = rd3) :=
      distinct_of_nodup (by simpa [Instr.wellFormed, Instr.dests] using hw)
    simp only [Instr.sources] at hr
    rw [exec, execExtgcd, if_neg hn, withSources_of_readable hr]
    refine completes_finish _ _ _ (map_ok_shape fun _ => ?_)
    exact ⟨rfl, by simp, by simp, by simp⟩
  | modinv rd rs1 rs2 =>
    simp only [Instr.sources] at hr
    rw [exec, execModinv, withSources_of_readable hr]
    exact completes_finish _ _ _ (map_ok_shape fun _ => oneWrite_fits rfl _)
  | randbits rd =>
    rw [exec, execRandbits]
    exact completes_draw (i := .randbits rd) _ _ rfl fun v => oneWrite_fits rfl v
  | mrtest rd rs1 =>
    simp only [Instr.sources] at hr
    rw [exec, execMrtest, withSources_of_readable hr]
    exact completes_draw (i := .mrtest rd rs1) _ _ rfl fun _ => ⟨rfl, by simp, fun _ => rfl, by simp⟩
  | genprime rd =>
    rw [exec, execGenprime]
    exact completes_draw (i := .genprime rd) _ _ rfl fun v => oneWrite_fits rfl v
  | keygen rd rd2 rd3 =>
    have hn : ¬ (rd = rd2 ∨ rd = rd3 ∨ rd2 = rd3) :=
      distinct_of_nodup (by simpa [Instr.wellFormed, Instr.dests] using hw)
    rw [exec, execKeygen, if_neg hn]
    exact completes_draw (i := .keygen rd rd2 rd3) _ _ rfl fun _ => ⟨rfl, by simp, by simp, by simp⟩
  | sign rd rs1 rs2 rs3 =>
    simp only [Instr.sources] at hr
    rw [exec, execSign, withSources_of_readable hr]
    exact completes_finish _ _ _ (map_ok_shape fun _ => oneWrite_fits rfl _)
  | verify rd rs1 rs2 rs3 rs4 =>
    simp only [Instr.sources] at hr
    rw [exec, execVerify, withSources_of_readable hr]
    refine completes_finish _ _ _ (map_ok_shape fun _ => ?_)
    exact ⟨rfl, by simp, fun _ => rfl, by simp⟩

/-- Equal destinations raise EILLEGAL whatever the sources hold. -/
theorem exec_illFormed (i : Instr) (s : State) (hw : i.wellFormed = false) : exec i s = .next (s.raise .illegal) := by
  cases i with
  | divrem rd rs1 rs2 rd2 =>
    have hn : rd = rd2 := by simpa [Instr.wellFormed, Instr.dests] using hw
    exact (if_pos hn : execDivrem rd rs1 rs2 rd2 s = finish s (.error .illegal))
  | extgcd rd rs1 rs2 rd2 rd3 =>
    have hn : rd = rd2 ∨ rd = rd3 ∨ rd2 = rd3 := by
      simp [Instr.wellFormed, Instr.dests] at hw; tauto
    exact (if_pos hn : execExtgcd rd rs1 rs2 rd2 rd3 s = finish s (.error .illegal))
  | keygen rd rd2 rd3 =>
    have hn : rd = rd2 ∨ rd = rd3 ∨ rd2 = rd3 := by
      simp [Instr.wellFormed, Instr.dests] at hw; tauto
    exact (if_pos hn : execKeygen rd rd2 rd3 s = finish s (.error .illegal))
  | _ => simp [Instr.wellFormed, Instr.dests] at hw

/-- A well-formed command that reads an unwritten word faults. -/
theorem exec_unwritten (i : Instr) (s : State) (hw : i.wellFormed = true) (hr : s.readable i.sources = false) :
    exec i s = .fault .unwrittenSource := by
  cases i with
  | mov rd rs1 => rw [exec, execMov, withSources_of_unwritten (by simpa only [Instr.sources] using hr)]
  | add rd rs1 rs2 => rw [exec, execAdd, withSources_of_unwritten (by simpa only [Instr.sources] using hr)]
  | sub rd rs1 rs2 => rw [exec, execSub, withSources_of_unwritten (by simpa only [Instr.sources] using hr)]
  | neg rd rs1 => rw [exec, execNeg, withSources_of_unwritten (by simpa only [Instr.sources] using hr)]
  | cmp rs1 rs2 => rw [exec, execCmp, withSources_of_unwritten (by simpa only [Instr.sources] using hr)]
  | shl rd rs1 shamt => rw [exec, execShl, withSources_of_unwritten (by simpa only [Instr.sources] using hr)]
  | shr rd rs1 shamt => rw [exec, execShr, withSources_of_unwritten (by simpa only [Instr.sources] using hr)]
  | mul rd rs1 rs2 => rw [exec, execMul, withSources_of_unwritten (by simpa only [Instr.sources] using hr)]
  | div rd rs1 rs2 => rw [exec, execDiv, withSources_of_unwritten (by simpa only [Instr.sources] using hr)]
  | rem rd rs1 rs2 => rw [exec, execRem, withSources_of_unwritten (by simpa only [Instr.sources] using hr)]
  | mu rd rs1 => rw [exec, execMu, withSources_of_unwritten (by simpa only [Instr.sources] using hr)]
  | bred rd rs1 rs2 rs3 => rw [exec, execBred, withSources_of_unwritten (by simpa only [Instr.sources] using hr)]
  | modmul rd rs1 rs2 rs3 => rw [exec, execModmul, withSources_of_unwritten (by simpa only [Instr.sources] using hr)]
  | modpow rd rs1 rs2 rs3 => rw [exec, execModpow, withSources_of_unwritten (by simpa only [Instr.sources] using hr)]
  | gcd rd rs1 rs2 => rw [exec, execGcd, withSources_of_unwritten (by simpa only [Instr.sources] using hr)]
  | modinv rd rs1 rs2 => rw [exec, execModinv, withSources_of_unwritten (by simpa only [Instr.sources] using hr)]
  | mrtest rd rs1 => rw [exec, execMrtest, withSources_of_unwritten (by simpa only [Instr.sources] using hr)]
  | sign rd rs1 rs2 rs3 => rw [exec, execSign, withSources_of_unwritten (by simpa only [Instr.sources] using hr)]
  | verify rd rs1 rs2 rs3 rs4 => rw [exec, execVerify, withSources_of_unwritten (by simpa only [Instr.sources] using hr)]
  | nop => simp [Instr.sources, State.readable] at hr
  | ldi rd => simp [Instr.sources, State.readable] at hr
  | randbits rd => simp [Instr.sources, State.readable] at hr
  | genprime rd => simp [Instr.sources, State.readable] at hr
  | keygen rd rd2 rd3 => simp [Instr.sources, State.readable] at hr
  | divrem rd rs1 rs2 rd2 =>
    have hn : rd ≠ rd2 := by simpa [Instr.wellFormed, Instr.dests] using hw
    rw [exec, execDivrem, if_neg hn, withSources_of_unwritten (by simpa only [Instr.sources] using hr)]
  | extgcd rd rs1 rs2 rd2 rd3 =>
    have hn : ¬ (rd = rd2 ∨ rd = rd3 ∨ rd2 = rd3) :=
      distinct_of_nodup (by simpa [Instr.wellFormed, Instr.dests] using hw)
    rw [exec, execExtgcd, if_neg hn, withSources_of_unwritten (by simpa only [Instr.sources] using hr)]

/-- What `exec` can do, for every command and every state. -/
theorem exec_cases (i : Instr) (s : State) :
    (i.wellFormed = false ∧ exec i s = .next (s.raise .illegal)) ∨
    (i.wellFormed = true ∧ s.readable i.sources = false ∧ exec i s = .fault .unwrittenSource) ∨
    (i.wellFormed = true ∧ s.readable i.sources = true ∧ completes i s (exec i s)) := by
  cases hw : i.wellFormed with
  | false => exact .inl ⟨rfl, exec_illFormed i s hw⟩
  | true =>
    cases hr : s.readable i.sources with
    | false => exact .inr (.inl ⟨rfl, rfl, exec_unwritten i s hw hr⟩)
    | true => exact .inr (.inr ⟨rfl, rfl, exec_completes i s hw hr⟩)

end Sys2Proof.Machine
end

