-- ==== Sys2Proof/Laws/Port.lean ====
section
/-! SUPPORT. The register port: where each offset leads, and what an access that the port can express does. -/

namespace Sys2Proof.Machine

/-! ## The address map -/

theorem portLoc_wordOffset (i : Reg) (j : Fin 50) : portLoc (wordOffset i j) = .word i j := by
  obtain ⟨i, hi⟩ := i
  obtain ⟨j, hj⟩ := j
  have h1 : (0x1000 + 0x100 * i + 4 * j - 0x1000) / 0x100 = i := by omega
  have h2 : (0x1000 + 0x100 * i + 4 * j) % 0x100 / 4 = j := by omega
  simp only [wordOffset, portLoc, h1, h2, dif_pos hj]
  repeat rw [if_neg (by omega)]
  simp [Fin.ofNat, Nat.mod_eq_of_lt hi]

theorem portLoc_lenOffset (i : Reg) : portLoc (lenOffset i) = .len i := by
  revert i; decide

theorem wordOffset_lt (i : Reg) (j : Fin 50) : wordOffset i j < Config.portSize := by
  obtain ⟨i, hi⟩ := i
  obtain ⟨j, hj⟩ := j
  simp only [wordOffset, Config.portSize]
  omega

theorem wordOffset_aligned (i : Reg) (j : Nat) : wordOffset i j % 4 = 0 := by simp only [wordOffset]; omega

/-! ## Accesses -/

theorem checkAccess_ok {off : Nat} (ha : off % 4 = 0) (hl : off < Config.portSize) :
    checkAccess off 4 = .ok (portLoc off) := by
  simp [checkAccess, ha, Nat.not_le.2 hl]

theorem hostRead_ok {off : Nat} (ha : off % 4 = 0) (hl : off < Config.portSize) (s : State) :
    hostRead off 4 s = .next (s.answer (portLoc off)) := by
  rw [hostRead, checkAccess_ok ha hl]

theorem hostWrite_ok {off : Nat} (ha : off % 4 = 0) (hl : off < Config.portSize) (v : Word) (s : State) :
    hostWrite off 4 v s = s.store (portLoc off) v := by
  rw [hostWrite, checkAccess_ok ha hl]

theorem hostWrite_word (i : Reg) (j : Fin 50) (v : Word) (s : State) :
    hostWrite (wordOffset i j) 4 v s = s.unlessBusy (.next (s.setRegWord i j v)) := by
  rw [hostWrite_ok (wordOffset_aligned i j) (wordOffset_lt i j), portLoc_wordOffset]
  rfl

/-- A read changes the answer and the count of unconstrained answers, nothing else (R43). -/
theorem answer_eq (s : State) (l : PortLoc) :
    s.answer l = { s with rdata := (s.answer l).rdata, drawPos := (s.answer l).drawPos } := by
  unfold State.answer
  split <;> rfl

/-- Where the spec leaves the answer unconstrained, it is the next free value (R22). -/
theorem answer_free {s : State} {l : PortLoc} (h : s.readLoc l = none) :
    s.answer l = { s with rdata := some (Config.readDraw s.drawPos), drawPos := s.drawPos + 1 } := by
  rw [State.answer, h]

theorem unlessBusy_busy {s : State} (h : s.status.busy = true) (o : Host.Outcome State Fault Refusal) :
    s.unlessBusy o = .next (s.setStatus s.status.refuse) := if_pos h

theorem unlessBusy_idle {s : State} (h : s.status.busy = false) (o : Host.Outcome State Fault Refusal) :
    s.unlessBusy o = o := by
  simp [State.unlessBusy, h]

/-! ## Starting a command -/

theorem sourcesWritten_ok {c : Word} {i : Instr} (h : decode c = .ok i) (s : State) :
    s.sourcesWritten c = s.readable i.sources := by
  simp [State.sourcesWritten, h]

theorem sourcesWritten_error {c : Word} {e : DecodeError} (h : decode c = .error e) (s : State) :
    s.sourcesWritten c = true := by
  simp [State.sourcesWritten, h]

/-- The two outcomes of a CMD write to an idle engine. -/
theorem startCmd_cases (s : State) (c : Word) :
    (s.sourcesWritten c = true ∧ s.startCmd c = .next (s.acceptCmd c)) ∨
    (s.sourcesWritten c = false ∧ s.startCmd c = .fault .unwrittenSource) := by
  unfold State.startCmd
  cases h : s.sourcesWritten c <;> simp

end Sys2Proof.Machine
end

