-- ==== Sys2Proof/Laws/Engine.lean ====
section
/-! SUPPORT. What the engine, the host's wait and one step can do. -/

namespace Sys2Proof.Machine

theorem runWord_ok {c : Word} {i : Instr} (h : decode c = .ok i) (s : State) : runWord c s = exec i s := by
  simp [runWord, h]

theorem runWord_error {c : Word} {e : DecodeError} (h : decode c = .error e) (s : State) :
    runWord c s = .next (s.raise .illegal) := by
  simp [runWord, h]

/-- A command word that may start runs to its completion. -/
theorem runWord_completes {c : Word} {s : State} (h : s.sourcesWritten c = true) :
    (∃ e, decode c = .error e ∧ runWord c s = .next (s.raise .illegal)) ∨
    ∃ i, decode c = .ok i ∧ completes i s (runWord c s) := by
  cases hd : decode c with
  | error e => exact .inl ⟨e, rfl, runWord_error hd s⟩
  | ok i =>
    rw [sourcesWritten_ok hd] at h
    refine .inr ⟨i, rfl, ?_⟩
    rw [runWord_ok hd]
    rcases exec_cases i s with ⟨hw, he⟩ | ⟨_, hr, _⟩ | ⟨_, _, hc⟩
    · exact ⟨s.rng, fun _ => rfl, .inr ⟨.illegal, he⟩⟩
    · rw [h] at hr; cases hr
    · exact hc

theorem engineComplete_idle {s : State} (h : s.status.busy = false) : engineComplete s = .next s := by
  simp [engineComplete, h]

theorem engineComplete_busy {s : State} (h : s.status.busy = true) : engineComplete s = runWord s.fetch s := if_pos h

theorem engineDraw_idle {s : State} (h : s.status.busy = false) : engineDraw s = .next s := by
  simp [engineDraw, h]

/-- A draw of the engine changes nothing but the count of words drawn, by at most one. -/
theorem engineDraw_next {s t : State} (h : engineDraw s = .next t) :
    t = s ∨ (s.status.busy = true ∧ s.drawn < wordsNeeded s ∧ t = { s with drawn := s.drawn + 1 }) := by
  unfold engineDraw at h
  split at h
  · next hb =>
    split at h
    · cases h
      split
      · next hl => exact .inr ⟨hb, hl, rfl⟩
      · exact .inl rfl
    · cases h
    · cases h
  · cases h; exact .inl rfl

/-! ## The wait -/

@[simp] theorem toWord_busy (t : Status) : t.toWord[0] = t.busy := by
  unfold Status.toWord
  rw [BitVec.getElem_append]
  simp

/-- A poll that reads BUSY = 0 ends the wait. -/
theorem hostWait_idle {s : State} (h : s.status.busy = false) :
    hostWait s = .next { s with rdata := some s.status.toWord } := by
  show Host.Outcome.next _ = _
  rw [if_neg]
  · rfl
  · show ¬ s.status.toWord.getLsbD 0 = true
    simp [h]

/-- A poll that reads BUSY = 1 is followed by a move of the engine or the platform and another poll. -/
theorem hostWait_busy {s : State} (h : s.status.busy = true) :
    hostWait s = .next { s with rdata := some s.status.toWord, agenda := pollAgain s.agenda } := by
  show Host.Outcome.next _ = _
  rw [if_pos]
  · rfl
  · show s.status.toWord.getLsbD 0 = true
    simp [h]

/-! ## One step -/

theorem step_empty {s : State} (h : s.agenda = []) : step s = engineComplete s := by
  simp [step, h]

theorem step_event {s : State} {e : Event} {rest : List Event} (h : s.agenda = e :: rest) :
    step s = handle e { s with agenda := rest } := by
  simp [step, h]

end Sys2Proof.Machine
end

