-- ==== Sys2Proof/Laws/Modular.lean ====
section
/-! SUPPORT. What the Barrett unit's corrections and core can do, said once: the core's outcome is a matter of one integer,
the difference it corrects. -/

namespace Sys2Proof.Machine

/-- What two corrections leave: `r` modulo `n` where `r < 3 * n`, and a value not below `n` where they are too few. -/
theorem correct_maxCorr (n r : Nat) (hn : 0 < n) :
    (r < 3 * n → correct n Config.maxCorr r = r % n) ∧ (3 * n ≤ r → n ≤ correct n Config.maxCorr r) := by
  simp only [Config.maxCorr, correct]
  constructor
  · intro h
    have := Nat.div_add_mod r n
    have hm := Nat.mod_lt r hn
    have hq : r / n < 3 := Nat.div_lt_of_lt_mul (by omega)
    interval_cases hh : r / n <;> (split <;> [split; skip]) <;> omega
  · intro h
    split <;> [split; skip] <;> omega

/-- A difference taken modulo `m`, raised by `m` where it is negative, is the integer difference modulo `m`. -/
theorem subMod_eq (x y m : Nat) (hm : 0 < m) :
    (if x % m < y % m then x % m + m - y % m else x % m - y % m) = (((x : Int) - y) % m).toNat := by
  have h1 := Nat.mod_lt x hm
  have h2 := Nat.mod_lt y hm
  rw [Int.sub_emod, ← Int.natCast_mod, ← Int.natCast_mod]
  generalize x % m = a at *
  generalize y % m = b at *
  split
  · have : ((a : Int) - b) % m = a - b + m := by rw [← Int.add_emod_right, Int.emod_eq_of_lt] <;> omega
    omega
  · rw [Int.emod_eq_of_lt] <;> omega

/-- `q3`, the core's estimate of the quotient (R87). -/
def barrettQuotient (x mu k : Nat) : Nat := x / Config.radix ^ (k - 1) * mu / Config.radix ^ (k + 1)

/-- The core's difference before the corrections, `(X - q3 * N) mod b^(k+1)` (R87). -/
def barrettDiff (x n mu k : Nat) : Nat :=
  (((x : Int) - (barrettQuotient x mu k * n : Nat)) % (Config.radix ^ (k + 1) : Nat)).toNat

/-- The core succeeds exactly where two corrections suffice. -/
theorem barrettCore_eq (x n mu k : Nat) (hn : 0 < n) : barrettCore x n mu k =
    if barrettDiff x n mu k < 3 * n then .ok (barrettDiff x n mu k % n) else .error .domain := by
  have hd := subMod_eq x (barrettQuotient x mu k * n) (Config.radix ^ (k + 1)) (Nat.pow_pos (by decide))
  obtain ⟨ha, hb⟩ := correct_maxCorr n (barrettDiff x n mu k) hn
  unfold barrettCore
  rw [barrettQuotient] at hd
  simp only [hd]
  change (if n ≤ correct n Config.maxCorr (barrettDiff x n mu k) then Except.error ErrCode.domain
    else .ok (correct n Config.maxCorr (barrettDiff x n mu k))) = _
  by_cases h : barrettDiff x n mu k < 3 * n
  · rw [if_pos h, ha h, if_neg (Nat.not_le.2 (Nat.mod_lt _ hn))]
  · rw [if_neg h, if_pos (hb (Nat.le_of_not_lt h))]

end Sys2Proof.Machine
end

