-- ==== Sys2Proof/Laws/NumberTheory.lean ====
section
/-! SUPPORT. What Euclid's loops yield: the bound they recurse on is never reached (log entry 15), the first component is the
greatest common divisor, and the coefficients are those of R95. -/

namespace Sys2Proof.Machine

theorem euclidLoop_eq_gcd (fuel a b : Nat) (h : b < fuel) : euclidLoop fuel a b = Nat.gcd a b := by
  induction fuel generalizing a b with
  | zero => omega
  | succ fuel ih =>
    unfold euclidLoop
    split
    · next hb => rw [hb, Nat.gcd_zero_right]
    · next hb =>
      have hlt : a % b < b := Nat.mod_lt a (by omega)
      rw [ih b (a % b) (by omega), Nat.gcd_comm b, ← Nat.gcd_rec, Nat.gcd_comm]

/-- `EuclidCore` computes the greatest common divisor (R94). -/
theorem euclidCore_eq_gcd (a b : Nat) : euclidCore a b = Nat.gcd a b := euclidLoop_eq_gcd _ _ _ (by omega)

theorem extEuclidLoop_fst (fuel r0 r1 : Nat) (s0 s1 t0 t1 : Int) (h : r1 < fuel) :
    (extEuclidLoop fuel r0 r1 s0 s1 t0 t1).1 = Nat.gcd r0 r1 := by
  induction fuel generalizing r0 r1 s0 s1 t0 t1 with
  | zero => omega
  | succ fuel ih =>
    unfold extEuclidLoop
    split
    · next hb => rw [hb, Nat.gcd_zero_right]
    · next hb =>
      have hlt : r0 % r1 < r1 := Nat.mod_lt r0 (by omega)
      show (extEuclidLoop fuel r1 (r0 % r1) s1 _ t1 _).1 = _
      rw [ih _ _ _ _ _ _ (by omega), Nat.gcd_comm r1, ← Nat.gcd_rec, Nat.gcd_comm]

/-- `ExtEuclidCore` computes the greatest common divisor (R95). -/
theorem extEuclidCore_fst (a b : Nat) : (extEuclidCore a b).1 = Nat.gcd a b := extEuclidLoop_fst _ _ _ _ _ _ _ (by omega)

/-- Every turn of the loop keeps `r0 = a * s0 + b * t0` and `r1 = a * s1 + b * t1`. -/
theorem extEuclidLoop_combination (a b : Int) (fuel r0 r1 : Nat) (s0 s1 t0 t1 : Int)
    (h0 : (r0 : Int) = a * s0 + b * t0) (h1 : (r1 : Int) = a * s1 + b * t1) :
    ((extEuclidLoop fuel r0 r1 s0 s1 t0 t1).1 : Int)
      = a * (extEuclidLoop fuel r0 r1 s0 s1 t0 t1).2.1 + b * (extEuclidLoop fuel r0 r1 s0 s1 t0 t1).2.2 := by
  induction fuel generalizing r0 r1 s0 s1 t0 t1 with
  | zero => exact h0
  | succ fuel ih =>
    unfold extEuclidLoop
    split
    · exact h0
    · refine ih _ _ _ _ _ _ h1 ?_
      have hm : ((r0 % r1 : Nat) : Int) = r0 - (r0 / r1 : Nat) * r1 := by
        have := Int.emod_add_mul_ediv (r0 : Int) r1
        push_cast
        linarith
      rw [hm, h0, h1]
      ring

/-- The coefficients of `ExtEuclidCore` combine to its greatest common divisor (R95). -/
theorem extEuclidCore_combination (a b : Nat) :
    ((extEuclidCore a b).1 : Int) = a * (extEuclidCore a b).2.1 + b * (extEuclidCore a b).2.2 :=
  extEuclidLoop_combination a b _ _ _ _ _ _ _ (by ring) (by ring)

end Sys2Proof.Machine
end

