-- ==== Sys2Proof/Laws/PerInstr.lean ====
section
/-! SUPPORT. Facts about every command as syntax, said command by command. The family `EncodeSelectsRow`: the encoding of a
command selects a row of the opcode map by its opcode and leaves every must-be-zero field of that row zero (R57, R58, R61). -/

namespace Sys2Proof.Laws

/-- The opcode of a word of format R is the one it was made with. -/
theorem fieldOp_encodeR (op : BitVec 8) (rd rs1 rs2 rs3 rs4 : Reg) : fieldOp (encodeR op rd rs1 rs2 rs3 rs4) = op := by
  exact BitVec.extractLsb'_append_eq_right

/-- The opcode of a word of format S is the one it was made with. -/
theorem fieldOp_encodeS (op : BitVec 8) (rd rs1 : Reg) (shamt : BitVec 16) :
    fieldOp (encodeS op rd rs1 shamt) = op := by
  exact BitVec.extractLsb'_append_eq_right

/-- The row that the encoding of `i` selects accepts it. -/
def EncodeSelectsRow.Statement (i : Instr) : Prop :=
  ∃ row, rowOf (fieldOp (encode i)) = some row ∧ encode i &&& row.mask = row.pattern

/-- A command whose word has the opcode of `row` and fits its mask. -/
theorem EncodeSelectsRow.of_row {i : Instr} {op : BitVec 8} (row : OpcodeRow) (ho : fieldOp (encode i) = op)
    (hr : rowOf op = some row) (hm : encode i &&& row.mask = row.pattern) : EncodeSelectsRow.Statement i :=
  ⟨row, ho ▸ hr, hm⟩

theorem EncodeSelectsRow.nop : EncodeSelectsRow.Statement .nop := by
  refine EncodeSelectsRow.of_row _ (fieldOp_encodeR ..) rfl ?_
  ext k hk
  simp only [encode, encodeR, BitVec.getElem_and, BitVec.getElem_append]
  interval_cases k <;> simp

theorem EncodeSelectsRow.ldi (rd : Reg) : EncodeSelectsRow.Statement (.ldi rd) := by
  refine EncodeSelectsRow.of_row _ (fieldOp_encodeR ..) rfl ?_
  ext k hk
  simp only [encode, encodeR, BitVec.getElem_and, BitVec.getElem_append]
  interval_cases k <;> simp

theorem EncodeSelectsRow.mov (rd rs1 : Reg) : EncodeSelectsRow.Statement (.mov rd rs1) := by
  refine EncodeSelectsRow.of_row _ (fieldOp_encodeR ..) rfl ?_
  ext k hk
  simp only [encode, encodeR, BitVec.getElem_and, BitVec.getElem_append]
  interval_cases k <;> simp

theorem EncodeSelectsRow.add (rd rs1 rs2 : Reg) : EncodeSelectsRow.Statement (.add rd rs1 rs2) := by
  refine EncodeSelectsRow.of_row _ (fieldOp_encodeR ..) rfl ?_
  ext k hk
  simp only [encode, encodeR, BitVec.getElem_and, BitVec.getElem_append]
  interval_cases k <;> simp

theorem EncodeSelectsRow.sub (rd rs1 rs2 : Reg) : EncodeSelectsRow.Statement (.sub rd rs1 rs2) := by
  refine EncodeSelectsRow.of_row _ (fieldOp_encodeR ..) rfl ?_
  ext k hk
  simp only [encode, encodeR, BitVec.getElem_and, BitVec.getElem_append]
  interval_cases k <;> simp

theorem EncodeSelectsRow.neg (rd rs1 : Reg) : EncodeSelectsRow.Statement (.neg rd rs1) := by
  refine EncodeSelectsRow.of_row _ (fieldOp_encodeR ..) rfl ?_
  ext k hk
  simp only [encode, encodeR, BitVec.getElem_and, BitVec.getElem_append]
  interval_cases k <;> simp

theorem EncodeSelectsRow.cmp (rs1 rs2 : Reg) : EncodeSelectsRow.Statement (.cmp rs1 rs2) := by
  refine EncodeSelectsRow.of_row _ (fieldOp_encodeR ..) rfl ?_
  ext k hk
  simp only [encode, encodeR, BitVec.getElem_and, BitVec.getElem_append]
  interval_cases k <;> simp

theorem EncodeSelectsRow.shl (rd rs1 : Reg) (shamt : BitVec 16) : EncodeSelectsRow.Statement (.shl rd rs1 shamt) := by
  refine EncodeSelectsRow.of_row _ (fieldOp_encodeS ..) rfl ?_
  ext k hk
  simp only [encode, encodeS, BitVec.getElem_and, BitVec.getElem_append]
  interval_cases k <;> simp

theorem EncodeSelectsRow.shr (rd rs1 : Reg) (shamt : BitVec 16) : EncodeSelectsRow.Statement (.shr rd rs1 shamt) := by
  refine EncodeSelectsRow.of_row _ (fieldOp_encodeS ..) rfl ?_
  ext k hk
  simp only [encode, encodeS, BitVec.getElem_and, BitVec.getElem_append]
  interval_cases k <;> simp

theorem EncodeSelectsRow.mul (rd rs1 rs2 : Reg) : EncodeSelectsRow.Statement (.mul rd rs1 rs2) := by
  refine EncodeSelectsRow.of_row _ (fieldOp_encodeR ..) rfl ?_
  ext k hk
  simp only [encode, encodeR, BitVec.getElem_and, BitVec.getElem_append]
  interval_cases k <;> simp

theorem EncodeSelectsRow.div (rd rs1 rs2 : Reg) : EncodeSelectsRow.Statement (.div rd rs1 rs2) := by
  refine EncodeSelectsRow.of_row _ (fieldOp_encodeR ..) rfl ?_
  ext k hk
  simp only [encode, encodeR, BitVec.getElem_and, BitVec.getElem_append]
  interval_cases k <;> simp

theorem EncodeSelectsRow.rem (rd rs1 rs2 : Reg) : EncodeSelectsRow.Statement (.rem rd rs1 rs2) := by
  refine EncodeSelectsRow.of_row _ (fieldOp_encodeR ..) rfl ?_
  ext k hk
  simp only [encode, encodeR, BitVec.getElem_and, BitVec.getElem_append]
  interval_cases k <;> simp

theorem EncodeSelectsRow.divrem (rd rs1 rs2 rd2 : Reg) : EncodeSelectsRow.Statement (.divrem rd rs1 rs2 rd2) := by
  refine EncodeSelectsRow.of_row _ (fieldOp_encodeR ..) rfl ?_
  ext k hk
  simp only [encode, encodeR, BitVec.getElem_and, BitVec.getElem_append]
  interval_cases k <;> simp

theorem EncodeSelectsRow.mu (rd rs1 : Reg) : EncodeSelectsRow.Statement (.mu rd rs1) := by
  refine EncodeSelectsRow.of_row _ (fieldOp_encodeR ..) rfl ?_
  ext k hk
  simp only [encode, encodeR, BitVec.getElem_and, BitVec.getElem_append]
  interval_cases k <;> simp

theorem EncodeSelectsRow.bred (rd rs1 rs2 rs3 : Reg) : EncodeSelectsRow.Statement (.bred rd rs1 rs2 rs3) := by
  refine EncodeSelectsRow.of_row _ (fieldOp_encodeR ..) rfl ?_
  ext k hk
  simp only [encode, encodeR, BitVec.getElem_and, BitVec.getElem_append]
  interval_cases k <;> simp

theorem EncodeSelectsRow.modmul (rd rs1 rs2 rs3 : Reg) : EncodeSelectsRow.Statement (.modmul rd rs1 rs2 rs3) := by
  refine EncodeSelectsRow.of_row _ (fieldOp_encodeR ..) rfl ?_
  ext k hk
  simp only [encode, encodeR, BitVec.getElem_and, BitVec.getElem_append]
  interval_cases k <;> simp

theorem EncodeSelectsRow.modpow (rd rs1 rs2 rs3 : Reg) : EncodeSelectsRow.Statement (.modpow rd rs1 rs2 rs3) := by
  refine EncodeSelectsRow.of_row _ (fieldOp_encodeR ..) rfl ?_
  ext k hk
  simp only [encode, encodeR, BitVec.getElem_and, BitVec.getElem_append]
  interval_cases k <;> simp

theorem EncodeSelectsRow.gcd (rd rs1 rs2 : Reg) : EncodeSelectsRow.Statement (.gcd rd rs1 rs2) := by
  refine EncodeSelectsRow.of_row _ (fieldOp_encodeR ..) rfl ?_
  ext k hk
  simp only [encode, encodeR, BitVec.getElem_and, BitVec.getElem_append]
  interval_cases k <;> simp

theorem EncodeSelectsRow.extgcd (rd rs1 rs2 rd2 rd3 : Reg) : EncodeSelectsRow.Statement (.extgcd rd rs1 rs2 rd2 rd3) := by
  refine EncodeSelectsRow.of_row _ (fieldOp_encodeR ..) rfl ?_
  ext k hk
  simp only [encode, encodeR, BitVec.getElem_and, BitVec.getElem_append]
  interval_cases k <;> simp

theorem EncodeSelectsRow.modinv (rd rs1 rs2 : Reg) : EncodeSelectsRow.Statement (.modinv rd rs1 rs2) := by
  refine EncodeSelectsRow.of_row _ (fieldOp_encodeR ..) rfl ?_
  ext k hk
  simp only [encode, encodeR, BitVec.getElem_and, BitVec.getElem_append]
  interval_cases k <;> simp

theorem EncodeSelectsRow.randbits (rd : Reg) : EncodeSelectsRow.Statement (.randbits rd) := by
  refine EncodeSelectsRow.of_row _ (fieldOp_encodeR ..) rfl ?_
  ext k hk
  simp only [encode, encodeR, BitVec.getElem_and, BitVec.getElem_append]
  interval_cases k <;> simp

theorem EncodeSelectsRow.mrtest (rd rs1 : Reg) : EncodeSelectsRow.Statement (.mrtest rd rs1) := by
  refine EncodeSelectsRow.of_row _ (fieldOp_encodeR ..) rfl ?_
  ext k hk
  simp only [encode, encodeR, BitVec.getElem_and, BitVec.getElem_append]
  interval_cases k <;> simp

theorem EncodeSelectsRow.genprime (rd : Reg) : EncodeSelectsRow.Statement (.genprime rd) := by
  refine EncodeSelectsRow.of_row _ (fieldOp_encodeR ..) rfl ?_
  ext k hk
  simp only [encode, encodeR, BitVec.getElem_and, BitVec.getElem_append]
  interval_cases k <;> simp

theorem EncodeSelectsRow.keygen (rd rd2 rd3 : Reg) : EncodeSelectsRow.Statement (.keygen rd rd2 rd3) := by
  refine EncodeSelectsRow.of_row _ (fieldOp_encodeR ..) rfl ?_
  ext k hk
  simp only [encode, encodeR, BitVec.getElem_and, BitVec.getElem_append]
  interval_cases k <;> simp

theorem EncodeSelectsRow.sign (rd rs1 rs2 rs3 : Reg) : EncodeSelectsRow.Statement (.sign rd rs1 rs2 rs3) := by
  refine EncodeSelectsRow.of_row _ (fieldOp_encodeR ..) rfl ?_
  ext k hk
  simp only [encode, encodeR, BitVec.getElem_and, BitVec.getElem_append]
  interval_cases k <;> simp

theorem EncodeSelectsRow.verify (rd rs1 rs2 rs3 rs4 : Reg) : EncodeSelectsRow.Statement (.verify rd rs1 rs2 rs3 rs4) := by
  refine EncodeSelectsRow.of_row _ (fieldOp_encodeR ..) rfl ?_
  ext k hk
  simp only [encode, encodeR, BitVec.getElem_and, BitVec.getElem_append]
  interval_cases k <;> simp

end Sys2Proof.Laws
end

