-- ==== Sys2Proof/Laws/Search.lean ====
section
/-! SUPPORT. What the search for a witness and the search for a public exponent yield, in the terms of the relations of
Safety.lean. -/

namespace Sys2Proof.Machine

theorem skip_add (m n : Nat) (g : Rng) : g.skip (m + n) = (g.skip m).skip n := by
  induction m generalizing g with
  | zero => rw [Nat.zero_add]; rfl
  | succ m ih => rw [Nat.succ_add]; exact ih g.next.2

/-! ## The drawn values, bit for bit -/

theorem portWord_add (g : Rng) (m j : Nat) : portWord g (m + j) = portWord (g.skip m) j := by
  rw [portWord, skip_add, portWord]

theorem portBits_lt (first L : Nat) (g : Rng) : portBits first L g < 2 ^ L := Nat.ofBits_lt_two_pow _

theorem portBits_testBit {first L b : Nat} (g : Rng) (h : b < L) :
    (portBits first L g).testBit b = (portWord g (first + b / 32)).getLsbD (b % 32) := Nat.testBit_ofBits_lt _ b h

theorem portBits_add (m first L : Nat) (g : Rng) : portBits (m + first) L g = portBits first L (g.skip m) := by
  simp only [portBits, Nat.add_assoc, portWord_add]

/-- Bit `b` of the words drawn is bit `b % 32` of word `b / 32`. -/
theorem drawWords_testBit (m b : Nat) (g : Rng) (h : b < 32 * m) :
    (drawWords m g).1.testBit b = (portWord g (b / 32)).getLsbD (b % 32) := by
  induction m generalizing b g with
  | zero => omega
  | succ m ih =>
    have e : (drawWords (m + 1) g).1 = 2 ^ 32 * (drawWords m g.next.2).1 + g.next.1.toNat := by
      rw [drawWords_succ, Nat.add_comm]; rfl
    rw [e, Nat.testBit_two_pow_mul_add _ g.next.1.isLt]
    split
    next hb => rw [Nat.div_eq_of_lt hb, Nat.mod_eq_of_lt hb]; rfl
    next hb =>
      rw [ih _ _ (by omega), show b / 32 = 1 + (b - 32) / 32 by omega, show b % 32 = (b - 32) % 32 by omega, portWord_add]
      rfl

/-- RawBits and RandomBits draw the bits that R15 and R16 name. -/
theorem rawBits_eq_portBits (L : Nat) (g : Rng) : rawBits L g = (portBits 0 L g, g.skip (portWords L)) := by
  rw [rawBits_eq]
  refine Prod.ext (Nat.eq_of_testBit_eq fun b => ?_) rfl
  rw [Nat.testBit_mod_two_pow]
  by_cases h : b < L
  · rw [portBits_testBit g h, drawWords_testBit _ _ _ (by unfold wordsFor; omega), Nat.zero_add]
    simp [h]
  · rw [Nat.testBit_lt_two_pow (lt_of_lt_of_le (portBits_lt 0 L g) (Nat.pow_le_pow_right (by decide) (by omega)))]
    simp [h]

theorem randomBits_eq_sampleAt (L : Nat) (g : Rng) : randomBits L g = (sampleAt L g, g.skip (portWords L)) := by
  have h := congrArg Prod.fst (rawBits_eq_portBits L g)
  rw [rawBits_eq] at h
  rw [randomBits_eq, sampleAt]
  exact Prod.ext (congrArg (· ||| 2 ^ (L - 1)) h) rfl

theorem numBits_eq {c : Nat} (h : 0 < c) : numBits c = bitLength c := by
  rw [numBits, bitLength, if_neg h.ne']

theorem rawBits_witness {c : Nat} (h : 0 < c) (g : Rng) :
    rawBits (bitLength c) g = (witnessAt c 0 g, g.skip (portWords (numBits c))) := by
  rw [← numBits_eq h, rawBits_eq_portBits, witnessAt, Nat.zero_mul]

theorem witnessAt_succ (c k : Nat) (g : Rng) :
    witnessAt c (k + 1) g = witnessAt c k (g.skip (portWords (numBits c))) := by
  rw [witnessAt, Nat.succ_mul, Nat.add_comm, portBits_add, witnessAt]

/-! ## Rounds -/

/-- `2^s * t` with `t` odd determines `s` and `t`. -/
theorem odd_part_unique {s t s' t' : Nat} (h : 2 ^ s * t = 2 ^ s' * t') (ht : t % 2 = 1) (ht' : t' % 2 = 1) :
    s = s' ∧ t = t' := by
  induction s generalizing s' with
  | zero =>
    cases s' with
    | zero => simpa using h
    | succ s' => rw [Nat.pow_succ', Nat.mul_assoc] at h; omega
  | succ s ih =>
    cases s' with
    | zero => rw [Nat.pow_succ', Nat.mul_assoc] at h; omega
    | succ s' =>
      rw [Nat.pow_succ', Nat.pow_succ', Nat.mul_assoc, Nat.mul_assoc] at h
      obtain ⟨rfl, rfl⟩ := ih (Nat.eq_of_mul_eq_mul_left (by decide) h)
      exact ⟨rfl, rfl⟩

/-- A round in terms of the one split of `c - 1`. -/
theorem roundPassed_iff {c s t : Nat} (a : Nat) (h : c - 1 = 2 ^ s * t) (ht : t % 2 = 1) :
    roundPassed c a ↔ Nat.gcd a c = 1 ∧ (a ^ t % c = 1 ∨ ∃ j, j < s ∧ a ^ (2 ^ j * t) % c = c - 1) := by
  refine and_congr_right fun _ => ⟨fun ⟨s', t', h', ht', hp⟩ => ?_, fun hp => ⟨s, t, h, ht, hp⟩⟩
  obtain ⟨rfl, rfl⟩ := odd_part_unique (h.symm.trans h') ht ht'
  exact hp

/-! ## Searches -/

/-- The witness sampler finds the first value in range, or reaches its limit (R101). -/
theorem witness_cases {c : Nat} (hc : 0 < c) (limit : Nat) (g : Rng) :
    (∃ a g', witness c limit g = (.ok a, g') ∧ witnessFound c limit g a g') ∨
    (∃ g', witness c limit g = (.error .timeout, g') ∧ noWitness c limit g g') := by
  induction limit generalizing g with
  | zero => exact .inr ⟨g, rfl, fun k hk => absurd hk (by omega), by rw [Nat.zero_mul]; rfl⟩
  | succ limit ih =>
    have hr := rawBits_witness hc g
    by_cases h : witnessInRange c (witnessAt c 0 g)
    · refine .inl ⟨witnessAt c 0 g, g.skip (portWords (numBits c)), ?_, 0, by omega, fun k hk => absurd hk (by omega), h, rfl,
        by rw [Nat.zero_add, Nat.one_mul]⟩
      rw [witness, hr]
      exact if_pos h
    · have hs : witness c (limit + 1) g = witness c limit (g.skip (portWords (numBits c))) := by
        rw [witness, hr]
        exact if_neg h
      rw [hs]
      rcases ih (g.skip (portWords (numBits c))) with ⟨a, g', he, m, hm, hn, hi, ha, hg⟩ | ⟨g', he, hn, hg⟩
      · refine .inl ⟨a, g', he, m + 1, by omega, fun k hk => ?_, by rwa [witnessAt_succ], by rwa [witnessAt_succ], ?_⟩
        · cases k with
          | zero => exact h
          | succ k => rw [witnessAt_succ]; exact hn k (by omega)
        · rw [hg, ← skip_add, Nat.add_comm, ← Nat.succ_mul]
      · refine .inr ⟨g', he, fun k hk => ?_, ?_⟩
        · cases k with
          | zero => exact h
          | succ k => rw [witnessAt_succ]; exact hn k (by omega)
        · rw [hg, ← skip_add, Nat.add_comm, ← Nat.succ_mul]

/-- Where a witness is found it is the only one, and a search does not also reach its limit. -/
theorem witnessFound_unique {c limit : Nat} {g g1 g2 : Rng} {a b : Nat} (h1 : witnessFound c limit g a g1)
    (h2 : witnessFound c limit g b g2) : a = b ∧ g1 = g2 := by
  obtain ⟨m, _, hn, hi, rfl, rfl⟩ := h1
  obtain ⟨k, _, hn', hi', rfl, rfl⟩ := h2
  have : m = k := by
    rcases Nat.lt_trichotomy m k with h | h | h
    · exact absurd hi (hn' m h)
    · exact h
    · exact absurd hi' (hn k h)
  subst this
  exact ⟨rfl, rfl⟩

theorem not_witnessFound_of_noWitness {c limit : Nat} {g g1 g2 : Rng} {a : Nat} (h : noWitness c limit g g1) :
    ¬ witnessFound c limit g a g2 := fun ⟨m, hm, _, hi, _⟩ => h.1 m hm hi

/-- What the samples of a public exponent come to, where the search ends with `r` (R106). -/
def exponentOutcome (lam : Nat) (g' : Rng) (r : Option Nat) : Except ErrCode (Nat × Int) × Rng :=
  match r with
  | some e => ((modInvCore e lam).map fun d => (e, d), g')
  | none => (.error .timeout, g')

theorem exponentLoop_of_searched {n lam eb attempts : Nat} {g g' : Rng} {r : Option Nat} (hn : 2 ^ eb ≤ n) (hb : 1 ≤ eb)
    (h : exponentSearched lam eb attempts g r g') :
    exponentLoop n lam eb attempts g = exponentOutcome lam g' r := by
  induction attempts generalizing g with
  | zero => obtain ⟨rfl, rfl⟩ := h; rfl
  | succ attempts ih =>
    have hr := randomBits_eq_sampleAt eb g
    have hle : sampleAt eb g ≤ n := by
      have h2 := (randomBits_bounds hb g).2
      rw [hr] at h2
      exact le_trans h2.le hn
    rcases h with ⟨hg, rfl, rfl⟩ | ⟨hg, h⟩
    · rw [exponentLoop, hr]
      exact if_pos ⟨by rw [euclidCore_eq_gcd]; exact hg, hle⟩
    · rw [← ih h, exponentLoop, hr]
      exact if_neg fun hc => hg (by rw [← euclidCore_eq_gcd]; exact hc.1)

end Sys2Proof.Machine
end

