-- ==== Sys2Proof/Tests/Slice0.lean ====
section
/-! SUPPORT. Tests: words written out from the encoding tables, ill-formed terms, one-step vectors of 95_test_vectors.md, and
for every statement a state and operands that meet its hypotheses. Expected values are the spec's. -/

set_option exponentiation.threshold 2000
set_option Elab.async false

namespace Sys2Proof.Tests

open Sys2Proof.Machine

/-! ## Decoding: words written out from R57, R58 and R60 (95, section 2.1 and the programs) -/

theorem test_decode_nop : decode 0x00000000 = .ok .nop := by rfl
theorem test_decode_ldi : decode 0x00000401 = .ok (.ldi 4) := by rfl
theorem test_decode_mov : decode 0x00007202 = .ok (.mov 2 7) := by rfl
theorem test_decode_add : decode 0x00021310 = .ok (.add 3 1 2) := by rfl
theorem test_decode_sub : decode 0x00021311 = .ok (.sub 3 1 2) := by rfl
theorem test_decode_neg : decode 0x00006512 = .ok (.neg 5 6) := by rfl
theorem test_decode_cmp : decode 0x00001013 = .ok (.cmp 1 0) := by rfl
theorem test_decode_shl : decode 0xFFFF1214 = .ok (.shl 2 1 65535) := by rfl
theorem test_decode_shr : decode 0x00211215 = .ok (.shr 2 1 33) := by rfl
theorem test_decode_mul : decode 0x00021318 = .ok (.mul 3 1 2) := by rfl
theorem test_decode_div : decode 0x0002131C = .ok (.div 3 1 2) := by rfl
theorem test_decode_rem : decode 0x0002131D = .ok (.rem 3 1 2) := by rfl
theorem test_decode_divrem : decode 0x0042131E = .ok (.divrem 3 1 2 4) := by rfl
theorem test_decode_mu : decode 0x00003520 = .ok (.mu 5 3) := by rfl
theorem test_decode_bred : decode 0x00536721 = .ok (.bred 7 6 3 5) := by rfl
theorem test_decode_modmul : decode 0x00321422 = .ok (.modmul 4 1 2 3) := by rfl
theorem test_decode_modpow : decode 0x00321423 = .ok (.modpow 4 1 2 3) := by rfl
theorem test_decode_gcd : decode 0x00021328 = .ok (.gcd 3 1 2) := by rfl
theorem test_decode_extgcd : decode 0x05421329 = .ok (.extgcd 3 1 2 4 5) := by rfl
theorem test_decode_modinv : decode 0x000BAC2A = .ok (.modinv 12 10 11) := by rfl
theorem test_decode_randbits : decode 0x00000430 = .ok (.randbits 4) := by rfl
theorem test_decode_mrtest : decode 0x00007431 = .ok (.mrtest 4 7) := by rfl
theorem test_decode_genprime : decode 0x00000432 = .ok (.genprime 4) := by rfl
theorem test_decode_keygen : decode 0x03200138 = .ok (.keygen 1 2 3) := by rfl
theorem test_decode_sign : decode 0x003C1439 = .ok (.sign 4 1 12 3) := by rfl
theorem test_decode_verify : decode 0x0135463A = .ok (.verify 6 4 5 3 1) := by rfl

theorem test_decode_nop_with_bit_8 : decode 0x00000100 = .error .mustBeZero := by rfl
theorem test_decode_add_with_z : decode 0x10021310 = .error .mustBeZero := by rfl
theorem test_decode_add_with_rs3 : decode 0x00321310 = .error .mustBeZero := by rfl
theorem test_decode_cmp_with_rd : decode 0x00021113 = .error .mustBeZero := by rfl
theorem test_decode_keygen_with_rs1 : decode 0x03201138 = .error .mustBeZero := by rfl
theorem test_decode_reserved_low : decode 0x00000003 = .error .reservedOpcode := by rfl
theorem test_decode_reserved_3B : decode 0x0000003B = .error .reservedOpcode := by rfl
theorem test_decode_reserved_high : decode 0x000000FF = .error .reservedOpcode := by rfl
theorem test_decode_divrem_equal : decode 0x0011111E = .error .equalDestinations := by rfl
theorem test_decode_extgcd_equal : decode 0x05521329 = .error .equalDestinations := by rfl
theorem test_decode_keygen_equal : decode 0x03300138 = .error .equalDestinations := by rfl

/-! ## Well-formedness: the one check, on each pair of destinations it compares (R61) -/

theorem test_illformed_divrem : (Instr.divrem 1 2 3 1).wellFormed = false := by decide
theorem test_illformed_extgcd_rd_rd2 : (Instr.extgcd 3 1 2 3 5).wellFormed = false := by decide
theorem test_illformed_extgcd_rd_rd3 : (Instr.extgcd 3 1 2 5 3).wellFormed = false := by decide
theorem test_illformed_extgcd_rd2_rd3 : (Instr.extgcd 3 1 2 5 5).wellFormed = false := by decide
theorem test_illformed_keygen_rd_rd2 : (Instr.keygen 1 1 2).wellFormed = false := by decide
theorem test_illformed_keygen_rd_rd3 : (Instr.keygen 1 2 1).wellFormed = false := by decide
theorem test_illformed_keygen_rd2_rd3 : (Instr.keygen 1 3 3).wellFormed = false := by decide
theorem test_wellformed_divrem_source_is_destination : (Instr.divrem 1 1 1 2).wellFormed = true := by decide

/-! ## One-step vectors -/

/-- A state after reset whose first registers hold the values `vs`, with BITLEN, CONFIDENCE, RETRY_LIMIT and the words the
random port has lined up. -/
def setup (vs : List Int) (L conf limit : Nat := 0) (words : List Nat := []) : State :=
  { State.reset with
    x := Vector.ofFn fun i =>
      match vs[i.val]? with
      | some v => ⟨enc v, BitVec.allOnes 50⟩
      | none => ⟨0, 0⟩
    bitlen := BitVec.ofNat 16 L
    confidence := BitVec.ofNat 16 conf
    retryLimit := BitVec.ofNat 32 limit
    rng := ⟨words.map (BitVec.ofNat 32), 0⟩ }

/-- What a look at the next state shows, if there is one. -/
def look {α : Type} (o : Host.Outcome State Fault Refusal) (f : State → α) : Option α :=
  match o with
  | .next t => some (f t)
  | .fault _ => none
  | .refused _ => none

/-- A look at the state after the command word `c` has been accepted and has completed. -/
def after {α : Type} (c : Nat) (s : State) (f : State → α) : Option α := look (step (s.withFetchWord 32 c)) f

/-- `MIN`, the least value of a register. -/
def minValue : Int := -2 ^ 1599

/-- `MAX`, the greatest value of a register. -/
def maxValue : Int := 2 ^ 1599 - 1

/-- STATUS as a host read shows it. -/
def statusOf (t : State) : Nat := t.status.toWord.toNat

-- 95, 2.1 and 2.2
theorem test_nop : after 0x00000000 State.reset statusOf = some 0x2 := by decide +kernel
theorem test_reserved_opcode : after 0x00000003 State.reset statusOf = some 0x16 := by decide +kernel
theorem test_ldi_sign_extends :
    after 0x00000401 { State.reset with arg1 := 0xFFFFFFFF, arg0 := 0xFFFFFFFE }
      (fun t => (t.sval 4, len (t.val 4))) = some (-2, 50) := by decide +kernel
theorem test_mov : after 0x00000202 (setup [minValue]) (fun t => t.sval 2) = some minValue := by decide +kernel
-- 95, 2.3
theorem test_add_overflows :
    after 0x00010210 (setup [maxValue, 1]) (fun t => (t.sval 2, t.status.ovf)) = some (minValue, true) := by
  decide +kernel
theorem test_add_carries_without_overflow :
    after 0x00010210 (setup [0xFFFFFFFF, 1]) (fun t => (t.sval 2, len (t.val 2), t.status.ovf))
      = some (0x100000000, 2, false) := by decide +kernel
theorem test_sub_overflows :
    after 0x00010211 (setup [minValue, 1]) (fun t => (t.sval 2, t.status.ovf)) = some (maxValue, true) := by
  decide +kernel
theorem test_neg_of_least :
    after 0x00000212 (setup [minValue]) (fun t => (t.sval 2, t.status.ovf)) = some (minValue, true) := by decide +kernel
theorem test_cmp_signs_dominate :
    after 0x00010013 (setup [minValue, maxValue]) (fun t => t.status.cmp) = some 0b01 := by decide +kernel
theorem test_cmp_words_decide :
    after 0x00000113 (setup [2 ^ 64, 2 ^ 64 + 1]) (fun t => t.status.cmp) = some 0b00 ∧
    after 0x00001013 (setup [2 ^ 64, 2 ^ 64 + 1]) (fun t => t.status.cmp) = some 0b10 := by decide +kernel
theorem test_shl_into_sign :
    after 0x063F0214 (setup [1]) (fun t => (t.sval 2, t.status.ovf)) = some (minValue, true) := by decide +kernel
theorem test_shl_negative :
    after 0x00040214 (setup [-1]) (fun t => (t.sval 2, t.status.ovf)) = some (-16, false) := by decide +kernel
theorem test_shr_rounds_down : after 0x00010215 (setup [-7]) (fun t => t.sval 2) = some (-4) := by decide +kernel
theorem test_shr_by_more_than_the_width :
    after 0xFFFF0215 (setup [-5]) (fun t => (t.sval 2, t.status.ovf)) = some (-1, false) := by decide +kernel
-- 95, 2.4
theorem test_mul_overflows :
    after 0x00010218 (setup [minValue, -1]) (fun t => (t.sval 2, t.status.ovf)) = some (minValue, true) := by
  decide +kernel
theorem test_mul_scenario_D :
    after 0x00010218 (setup [123456789012345678901234567890, 2]) (fun t => (t.sval 2, t.status.ovf))
      = some (246913578024691357802469135780, false) := by decide +kernel
-- 95, 2.5
theorem test_div_small_dividend : after 0x0001021C (setup [-5, 3]) (fun t => t.sval 2) = some 0 := by decide +kernel
theorem test_div_negative_divisor : after 0x0001021C (setup [-3, -7]) statusOf = some 0x36 := by decide +kernel
theorem test_rem_small_dividend : after 0x0001021D (setup [minValue, -1]) (fun t => t.sval 2) = some minValue := by
  decide +kernel
theorem test_rem_by_zero : after 0x0001021D (setup [5, 0]) statusOf = some 0x26 := by decide +kernel
theorem test_divrem_multiword :
    after 0x0031021E (setup [2 ^ 200 + 12345, 2 ^ 100 + 7]) (fun t => (t.sval 2, t.sval 3))
      = some (2 ^ 100 - 7, 12394) := by decide +kernel
-- 95, 2.6
theorem test_mu_longest_modulus : after 0x00000220 (setup [2 ^ 768 - 1]) (fun t => t.sval 2) = some (2 ^ 768 + 1) := by
  decide +kernel
theorem test_mu_beyond_capacity : after 0x00000220 (setup [2 ^ 768]) statusOf = some 0x46 := by decide +kernel
theorem test_bred_with_a_correction :
    after 0x00210321 (setup [0xC386BBC4CD613E30, 0x10000000F, 0xFFFFFFF1000000E0FFFFF2D1]) (fun t => t.sval 3)
      = some 0x587C3E59 := by decide +kernel
theorem test_bred_two_corrections_or_edomain :
    after 0x00210321 (setup [1490, 497, 0]) (fun t => t.sval 3) = some 496 ∧
    after 0x00210321 (setup [1491, 497, 0]) statusOf = some 0x36 := ⟨by decide +kernel, by decide +kernel⟩
theorem test_modmul : after 0x00210322 (setup [123, 456, 1000]) (fun t => t.sval 3) = some 88 := by decide +kernel
theorem test_modpow : after 0x00210323 (setup [3, 2 ^ 64 + 1, 2 ^ 127 - 1]) (fun t => t.sval 3)
    = some 0x76FD25A9707B6AF461A41A22E8D89F1D := by decide +kernel
theorem test_modpow_modulus_one : after 0x00210323 (setup [5, 0, 1]) (fun t => t.sval 3) = some 0 := by decide +kernel
-- 95, 2.7
theorem test_gcd : after 0x00010228 (setup [240, 46]) (fun t => t.sval 2) = some 2 := by decide +kernel
theorem test_extgcd :
    after 0x04310229 (setup [17, 3120]) (fun t => (t.sval 2, t.sval 3, t.sval 4)) = some (1, -367, 2) := by
  decide +kernel
theorem test_modinv : after 0x0001022A (setup [17, 3120]) (fun t => t.sval 2) = some 2753 := by decide +kernel
theorem test_modinv_none : after 0x0001022A (setup [2, 4]) statusOf = some 0x56 := by decide +kernel
-- 95, 2.8
theorem test_randbits :
    after 0x00000430 (setup [] 40 0 0 [0x12345678, 0x9ABCDEF0]) (fun t => (t.sval 4, t.rng.pos))
      = some (0xF012345678, 2) := by decide +kernel
theorem test_mrtest_strong_liar :
    after 0x00000431 (setup [15] 0 1 16384 [0, 1, 15, 14]) (fun t => (t.sval 4, t.status.res, t.rng.pos))
      = some (1, true, 4) := by decide +kernel
theorem test_mrtest_composite :
    after 0x00000431 (setup [341] 0 1 16384 [2]) (fun t => (t.sval 4, t.status.res, t.rng.pos))
      = some (0, false, 1) := by decide +kernel
theorem test_genprime :
    after 0x00000432 (setup [] 8 2 16384 [0x04, 0x02, 0x0B, 0x03, 0x05]) (fun t => (t.sval 4, t.rng.pos))
      = some (139, 5) := by decide +kernel
theorem test_genprime_timeout :
    after 0x00000432 (setup [] 8 1 1 [0x04, 0x02]) (fun t => (statusOf t, t.rng.pos)) = some (0x66, 2) := by
  decide +kernel
-- 95, 2.9
theorem test_keygen :
    after 0x03200138 (setup [] 4 1 16384 [3, 2, 2, 3, 0, 7, 1, 5])
      (fun t => (t.sval 1, t.sval 2, t.sval 3, t.rng.pos)) = some (77, 37, 13, 8) := by decide +kernel
theorem test_sign : after 0x00210439 (setup [65, 2753, 3233]) (fun t => t.sval 4) = some 588 := by decide +kernel
theorem test_verify_match :
    after 0x0321043A (setup [588, 17, 3233, 65]) (fun t => (t.sval 4, statusOf t)) = some (1, 0x402) := by
  decide +kernel
theorem test_verify_long_digest :
    after 0x0321043A (setup [26, 37, 77, 100]) (fun t => (t.sval 4, statusOf t)) = some (0, 0x2) := by decide +kernel
-- 95, 2.10 and P6
theorem test_unwritten_source : look (step (State.reset.withFetchWord 32 0x00010210)) statusOf = none := by
  decide +kernel
theorem test_error_keeps_cmp :
    after 0x0001021C { setup [5, 0] with status := { Status.reset with cmp := 0b01 } } statusOf = some 0x126 := by
  decide +kernel
theorem test_reset_values :
    [0x000, 0x008, 0x01C, 0x020, 0x024, 0x080, 0x10C8].map
        (fun off => look (hostRead off 4 State.reset) (fun t => t.rdata))
      = [some (some 0x01181032), some (some 0), some (some 0x14), some (some 0x4000), some (some 0), some (some 0),
         some (some 0)] := by decide +kernel
theorem test_unwritten_source_faults_at_the_cmd_write :
    look (hostWrite 0x00C 4 0x00010210 State.reset) statusOf = none ∧
    look (hostWrite 0x00C 4 0x00010210 (setup [5, 7])) statusOf = some 0x1 := by decide +kernel
theorem test_refused_write_sets_lost :
    look (hostWrite 0x1400 4 7 ((setup [0, 0, 0, 0, 929]).acceptCmd 0x003E1423)) (fun t => (t.sval 4, statusOf t))
      = some (929, 0x2001) := by decide +kernel

/-! ## Witnesses: for each statement a state and operands that meet its hypotheses, for each of its clauses

A hypothesis that a command answers a next state is met by the state that a look at the answer finds. -/

theorem exists_of_look {o : Host.Outcome State Fault Refusal} {p : State → Bool} (h : look o p = some true) :
    ∃ t, o = .next t ∧ p t = true := by
  cases o with
  | next t => exact ⟨t, rfl, by simpa [look] using h⟩
  | fault f => cases h
  | refused f => cases h

/-- A state whose engine is busy with the command word `c`, the engine's move first on the agenda. -/
def running (c : Word) (s : State) (rest : List Event := []) : State :=
  { s.acceptCmd c with agenda := .engineComplete :: rest }

theorem witness_DecodeOfEncodeIsTheCommand : (Instr.extgcd 3 1 2 4 5).wellFormed = true := by decide

theorem witness_AcceptedWordIsItsCommandsEncoding : ∃ i, decode 0x05421329 = .ok i := ⟨.extgcd 3 1 2 4 5, by rfl⟩

theorem witness_StepRunsTheLatchedCommand_engine :
    ∃ (s : State) (i : Instr), decode s.latched = .ok i ∧ s.status.busy = true ∧
      (∃ t, exec i { s with agenda := [] } = .next t ∧ s.rng.pos + s.drawn < t.rng.pos) ∧
      (∃ s' : State, decode s'.latched = .ok (.add 2 0 1) ∧ s'.status.busy = true ∧
        exec (.add 2 0 1) { s' with agenda := [] } = .fault .unwrittenSource) := by
  obtain ⟨t, ht, h⟩ := exists_of_look (o := exec (.randbits 4) { (setup [] 40 0 0 [1, 2]).acceptCmd 0x00000430 with
    agenda := [] }) (p := fun t => decide (0 < t.rng.pos)) (by decide +kernel)
  refine ⟨(setup [] 40 0 0 [1, 2]).acceptCmd 0x00000430, .randbits 4, by rfl, by rfl, ⟨t, ht, ?_⟩,
    State.reset.acceptCmd 0x00010210, by rfl, by rfl, by rfl⟩
  exact of_decide_eq_true h

theorem witness_StepRunsTheLatchedCommand_agenda (e : Event) (rest : List Event) (b : Bool) :
    ∃ s : State, s.agenda = e :: rest ∧ s.status.busy = b ∧ decode s.latched = .ok .nop :=
  ⟨{ State.reset with agenda := e :: rest, status := { Status.reset with busy := b } }, rfl, rfl, test_decode_nop⟩

theorem test_wait_polls_until_idle :
    (match Sys2Proof.core.run 5 { (setup [5, 7]).acceptCmd 0x00010210 with
        agenda := [.hostWait, .engineDraw, .engineComplete, .hostRead 0x1200 4] } with
      | .next t => some (t.rdata, statusOf t, t.agenda)
      | .fault _ => none
      | .refused _ => none) = some (some 2, 2, [.hostRead 0x1200 4]) := by decide +kernel

theorem witness_IllegalWordCompletesWithEillegal :
    (∀ (e : DecodeError) (a : List Event), ∃ s : State, s.agenda = a ∧ s.status.busy = true ∧
      decode s.latched = .error e) := by
  intro e a
  cases e with
  | reservedOpcode => exact ⟨{ State.reset.acceptCmd 0x3B with agenda := a }, by rfl, by rfl, test_decode_reserved_3B⟩
  | mustBeZero => exact ⟨{ State.reset.acceptCmd 0x100 with agenda := a }, by rfl, by rfl, test_decode_nop_with_bit_8⟩
  | equalDestinations => exact ⟨{ State.reset.acceptCmd 0x0011111E with agenda := a }, by rfl, by rfl, test_decode_divrem_equal⟩

theorem witness_ReadableCommandAlwaysCompletes :
    ∃ (i : Instr) (s : State), i.wellFormed = true ∧ ∀ r ∈ i.sources, (s.reg r).written = BitVec.allOnes 50 :=
  ⟨.verify 4 0 1 2 3, setup [588, 17, 3233, 65], by decide, by decide +kernel⟩

theorem witness_FaultsExactlyOnUnwrittenSources :
    ∃ (i : Instr) (s : State), i.wellFormed = true ∧ exec i s = .fault .unwrittenSource ∧
      ∃ r ∈ i.sources, ∃ j, j < 50 ∧ (s.reg r).written.getLsbD j = false :=
  ⟨.add 2 0 1, setup [5], by decide, by rfl, 1, by decide, 49, by decide, by decide +kernel⟩

theorem witness_ErrorChangesOnlyStatusAndRandomPort :
    (∃ (i : Instr) (s t : State), i.draws = false ∧ exec i s = .next t ∧ t.status.err = true) ∧
    (∃ (i : Instr) (s t : State), exec i s = .next t ∧ t.status.err = true ∧ t.rng.pos = 2 ∧
      decode s.latched = .ok i ∧ s.drawn = 2 ∧ s.drawn ≤ wordsNeeded s) := by
  constructor
  · obtain ⟨t, ht, he⟩ := exists_of_look (o := exec (.div 2 0 1) (setup [5, 0])) (p := fun t => t.status.err)
      (by decide +kernel)
    exact ⟨_, _, t, by rfl, ht, he⟩
  · obtain ⟨t, ht, he⟩ := exists_of_look
      (o := exec (.genprime 4) { (setup [] 8 1 1 [0x04, 0x02]).acceptCmd 0x00000432 with drawn := 2 })
      (p := fun t => t.status.err && t.rng.pos == 2) (by decide +kernel)
    simp at he
    exact ⟨_, _, t, ht, he.1, he.2, by rfl, by rfl, by decide +kernel⟩

theorem witness_CommandWritesExactlyItsDestinations :
    (∃ (i : Instr) (s t : State), i.draws = false ∧ exec i s = .next t ∧ t.status.err = false) ∧
    (∃ (i : Instr) (s t : State), i.draws = true ∧ exec i s = .next t ∧ t.status.err = false) := by
  constructor
  · obtain ⟨t, ht, he⟩ := exists_of_look (o := exec (.divrem 2 0 1 3) (setup [100, 7])) (p := fun t => !t.status.err)
      (by decide +kernel)
    exact ⟨_, _, t, by rfl, ht, by simpa using he⟩
  · obtain ⟨t, ht, he⟩ := exists_of_look (o := exec (.randbits 4) (setup [] 8 0 0 [0x12345678]))
      (p := fun t => !t.status.err) (by decide +kernel)
    exact ⟨_, _, t, by rfl, ht, by simpa using he⟩

theorem witness_StatusFieldsWrittenPerCommand :
    (∃ (i : Instr) (s t : State), exec i s = .next t ∧ t.status.err = true ∧ s.status.ovf = true) ∧
    (∃ (i : Instr) (s t : State), exec i s = .next t ∧ t.status.err = false ∧ i.writesCmp = false ∧
      i.writesRes = false ∧ i.mayOverflow = false ∧ s.status.ovf = true) := by
  constructor
  · obtain ⟨t, ht, he⟩ := exists_of_look
      (o := exec (.rem 2 0 1) { setup [5, 0] with status := { Status.reset with ovf := true } })
      (p := fun t => t.status.err) (by decide +kernel)
    exact ⟨_, _, t, ht, he, by rfl⟩
  · obtain ⟨t, ht, he⟩ := exists_of_look
      (o := exec (.mov 2 0) { setup [5] with status := { Status.reset with ovf := true } })
      (p := fun t => !t.status.err) (by decide +kernel)
    exact ⟨_, _, t, ht, by simpa using he, by rfl, by rfl, by rfl, by rfl⟩

theorem witness_EachCommandRaisesOnlyItsErrors :
    ∃ (i : Instr) (s t : State), i.wellFormed = true ∧ exec i s = .next t ∧ t.status.err = true := by
  obtain ⟨t, ht, he⟩ := exists_of_look (o := exec (.modinv 2 0 1) (setup [2, 4])) (p := fun t => t.status.err)
    (by decide +kernel)
  exact ⟨_, _, t, by rfl, ht, he⟩

theorem witness_DataMovementResults : (setup [minValue]).readable [0] = true := by decide +kernel
theorem witness_AddSubNegWrapAndFlagOverflow : (setup [minValue, 1]).readable [0, 1] = true := by decide +kernel
theorem witness_CmpReportsTheSignedOrder : (setup [minValue, maxValue]).readable [0, 1] = true := by decide +kernel
theorem witness_ShlShiftsAndFlagsOverflow : (setup [1]).readable [0] = true := by decide +kernel
theorem witness_ShrShiftsArithmetically : (setup [-7]).readable [0] = true := by decide +kernel
theorem witness_MulWrapsAndFlagsOverflow : (setup [minValue, -1]).readable [0, 1] = true := by decide +kernel

theorem witness_DivisionWritesQuotientAndRemainder :
    (∃ s : State, s.readable [0, 1] = true ∧ s.sval 1 ≠ 0 ∧ 0 < s.sval 1 ∧ s.sval 1 ≤ s.sval 0) ∧
    (∃ s : State, s.readable [0, 1] = true ∧ s.sval 1 ≠ 0 ∧ s.sval 1 < 0 ∧ s.sval 0 < s.sval 1) ∧ (2 : Reg) ≠ 3 :=
  ⟨⟨setup [7, 7], by decide +kernel⟩, ⟨setup [minValue, -1], by decide +kernel⟩, by decide⟩

theorem witness_DivisionRejectsBadDivisors :
    (∃ s : State, s.readable [0, 1] = true ∧ s.sval 1 = 0) ∧
    (∃ s : State, s.readable [0, 1] = true ∧ s.sval 1 < 0 ∧ s.sval 1 ≤ s.sval 0) ∧ (2 : Reg) ≠ 3 :=
  ⟨⟨setup [-5, 0], by decide +kernel⟩, ⟨setup [-7, -7], by decide +kernel⟩, by decide⟩

theorem witness_KnuthDividerIsExact :
    ∃ u v u' v' : Nat, (0 < v ∧ v ≤ u ∧ natLen v = 1) ∧ (0 < v' ∧ v' ≤ u' ∧ natLen v' = 4) :=
  ⟨2 ^ 64, 3, 2 ^ 200 + 12345, 2 ^ 100 + 7, by decide +kernel⟩

theorem witness_MuWritesTheBarrettConstant :
    ∃ s : State, s.readable [0] = true ∧ 0 < s.sval 0 ∧ len (s.val 0) = 24 := ⟨setup [2 ^ 768 - 1], by decide +kernel⟩

theorem witness_BredWithExactConstantIsTheRemainder :
    ∃ s : State, s.readable [0, 1, 2] = true ∧ 0 < s.sval 1 ∧ len (s.val 1) ≤ 24 ∧ 0 ≤ s.sval 0 ∧
      s.sval 0 < (2 ^ 32) ^ (2 * len (s.val 1)) ∧ s.sval 2 = (2 ^ 32) ^ (2 * len (s.val 1)) / s.sval 1 :=
  ⟨setup [2 ^ 64 - 1, 497, 0x83DCF94DC7570C], by decide +kernel⟩

/-- What the statement asks of a state, with the r0 of R87 for the registers 0, 1 and 2 as X, N and MU. -/
def bredMeets (s : State) (r0 : Int) : Prop :=
  s.readable [0, 1, 2] = true ∧ 0 < s.sval 1 ∧ len (s.val 1) ≤ 24 ∧ 0 ≤ s.sval 0 ∧
    s.sval 0 < (2 ^ 32) ^ (2 * len (s.val 1)) ∧ 0 ≤ s.sval 2 ∧ s.sval 2 ≤ (2 ^ 32) ^ (len (s.val 1) + 1) ∧
    r0 = (s.sval 0 - s.sval 0 / (2 ^ 32) ^ (len (s.val 1) - 1) * s.sval 2 / (2 ^ 32) ^ (len (s.val 1) + 1) * s.sval 1)
      % (2 ^ 32) ^ (len (s.val 1) + 1)

theorem witness_BredWithAnyConstantStaysInRange :
    bredMeets (setup [1490, 497, 0]) (3 * 497 - 1) ∧ bredMeets (setup [1491, 497, 0]) (3 * 497) ∧
    bredMeets (setup [200000, 497, 37116185258972940]) 206 ∧
    bredMeets (setup [200000, 497, 2 * 37116185258972940]) (2 ^ 64 - 199588) := by
  unfold bredMeets
  exact ⟨by decide +kernel, by decide +kernel, by decide +kernel, by decide +kernel⟩

theorem witness_ModmulIsTheModularProduct :
    ∃ s : State, s.readable [0, 1, 2] = true ∧ 0 < s.sval 2 ∧ len (s.val 2) ≤ 24 ∧ 0 ≤ s.sval 0 ∧ 0 ≤ s.sval 1 :=
  ⟨setup [5, 7, 1], by decide +kernel⟩

theorem witness_ModpowAndSignAreTheModularPower :
    ∃ s : State, s.readable [0, 1, 2] = true ∧ 0 < s.sval 2 ∧ len (s.val 2) = 24 ∧ 0 ≤ s.sval 0 ∧ 0 ≤ s.sval 1 :=
  ⟨setup [0, 0, 2 ^ 768 - 1], by decide +kernel⟩

theorem witness_BarrettOperandErrorsInOrder_mu :
    (∃ s : State, s.readable [0] = true ∧ s.sval 0 = 0) ∧ (∃ s : State, s.readable [0] = true ∧ s.sval 0 < 0) ∧
    (∃ s : State, s.readable [0] = true ∧ 0 < s.sval 0 ∧ len (s.val 0) = 25) :=
  ⟨⟨setup [0], by decide +kernel⟩, ⟨setup [-1], by decide +kernel⟩, ⟨setup [2 ^ 768], by decide +kernel⟩⟩

theorem witness_BarrettOperandErrorsInOrder_bred :
    (∃ s : State, s.readable [0, 1, 2] = true ∧ s.sval 1 = 0) ∧
    (∃ s : State, s.readable [0, 1, 2] = true ∧ s.sval 1 ≠ 0 ∧ s.sval 2 < 0) ∧
    (∃ s : State, s.readable [0, 1, 2] = true ∧ 0 < s.sval 1 ∧ 0 ≤ s.sval 0 ∧ 0 ≤ s.sval 2 ∧ len (s.val 1) = 25) ∧
    (∃ s : State, s.readable [0, 1, 2] = true ∧ 0 < s.sval 1 ∧ 0 ≤ s.sval 0 ∧ 0 ≤ s.sval 2 ∧ len (s.val 1) ≤ 24 ∧
      s.sval 0 = (2 ^ 32) ^ (2 * len (s.val 1))) ∧
    (∃ s : State, s.readable [0, 1, 2] = true ∧ 0 < s.sval 1 ∧ 0 ≤ s.sval 0 ∧ 0 ≤ s.sval 2 ∧ len (s.val 1) ≤ 24 ∧
      s.sval 2 = (2 ^ 32) ^ (len (s.val 1) + 1) + 1) :=
  ⟨⟨setup [-1, 0, -1], by decide +kernel⟩, ⟨setup [1, 1, -1], by decide +kernel⟩,
    ⟨setup [1, 2 ^ 768, 1], by decide +kernel⟩, ⟨setup [2 ^ 64, 497, 0], by decide +kernel⟩,
    ⟨setup [200000, 497, 2 ^ 64 + 1], by decide +kernel⟩⟩

theorem witness_BarrettOperandErrorsInOrder_modular :
    (∃ s : State, s.readable [0, 1, 2] = true ∧ s.sval 2 = 0) ∧
    (∃ s : State, s.readable [0, 1, 2] = true ∧ s.sval 2 ≠ 0 ∧ s.sval 1 < 0) ∧
    (∃ s : State, s.readable [0, 1, 2] = true ∧ 0 < s.sval 2 ∧ 0 ≤ s.sval 0 ∧ 0 ≤ s.sval 1 ∧ len (s.val 2) = 25) :=
  ⟨⟨setup [3, 4, 0], by decide +kernel⟩, ⟨setup [2, -3, 7], by decide +kernel⟩,
    ⟨setup [2, 3, 2 ^ 768], by decide +kernel⟩⟩

theorem witness_GcdIsTheGreatestCommonDivisor :
    (∃ s : State, s.readable [0, 1] = true ∧ 0 ≤ s.sval 0 ∧ 0 ≤ s.sval 1) ∧
    (∃ s : State, s.readable [0, 1] = true ∧ s.sval 1 < 0) :=
  ⟨⟨setup [0, 0], by decide +kernel⟩, ⟨setup [6, -4], by decide +kernel⟩⟩

theorem witness_ExtgcdSatisfiesBezout :
    (∃ s : State, s.readable [0, 1] = true ∧ 0 ≤ s.sval 0 ∧ 0 ≤ s.sval 1) ∧
      (∃ s : State, s.readable [0, 1] = true ∧ s.sval 0 < 0) ∧ (2 : Reg) ≠ 3 ∧ (2 : Reg) ≠ 4 ∧ (3 : Reg) ≠ 4 :=
  ⟨⟨setup [17, 3120], by decide +kernel⟩, ⟨setup [-4, 6], by decide +kernel⟩, by decide⟩

theorem witness_ModinvIsTheInverseOrAnError :
    (∃ s : State, s.readable [0, 1] = true ∧ 0 ≤ s.sval 0 ∧ 0 < s.sval 1 ∧ Int.gcd (s.sval 0) (s.sval 1) = 1) ∧
    (∃ s : State, s.readable [0, 1] = true ∧ 0 ≤ s.sval 0 ∧ 0 < s.sval 1 ∧ Int.gcd (s.sval 0) (s.sval 1) ≠ 1) ∧
    (∃ s : State, s.readable [0, 1] = true ∧ s.sval 1 = 0) ∧ (∃ s : State, s.readable [0, 1] = true ∧ s.sval 1 < 0) ∧
    (∃ s : State, s.readable [0, 1] = true ∧ s.sval 0 < 0 ∧ s.sval 1 ≠ 0) :=
  ⟨⟨setup [0, 1], by decide +kernel⟩, ⟨setup [0, 5], by decide +kernel⟩, ⟨setup [3, 0], by decide +kernel⟩,
    ⟨setup [3, -7], by decide +kernel⟩, ⟨setup [-3, 7], by decide +kernel⟩⟩

theorem witness_RandbitsWritesExactlyLBits :
    (∃ s : State, s.bitlen.toNat = 1) ∧ (∃ s : State, s.bitlen.toNat = 1599) ∧ (∃ s : State, s.bitlen.toNat = 0) ∧
      (∃ s : State, s.bitlen.toNat = 1600) :=
  ⟨⟨setup [] 1, by decide +kernel⟩, ⟨setup [] 1599, by decide +kernel⟩, ⟨setup [], by decide +kernel⟩,
    ⟨setup [] 1600, by decide +kernel⟩⟩

theorem witness_MrtestDecidesSmallAndEvenByTable :
    (∃ s : State, s.readable [0] = true ∧ s.sval 0 = 3) ∧ (∃ s : State, s.readable [0] = true ∧ s.sval 0 = -7) ∧
    (∃ s : State, s.readable [0] = true ∧ 3 < s.sval 0 ∧ s.sval 0 % 2 = 0) :=
  ⟨⟨setup [3], by decide +kernel⟩, ⟨setup [-7], by decide +kernel⟩, ⟨setup [2 ^ 800], by decide +kernel⟩⟩

/-- A witness found at the first try. -/
theorem witnessFound_first {c limit : Nat} {g : Rng} (hl : 1 ≤ limit) (h : witnessInRange c (witnessAt c 0 g)) :
    witnessFound c limit g (witnessAt c 0 g) (g.skip (portWords (numBits c))) :=
  ⟨0, hl, fun k hk => absurd hk (by omega), h, rfl, by rw [Nat.zero_add, Nat.one_mul]⟩

/-- One round, whose witness `a` is found at the first try. -/
theorem roundsRun_one {c limit a : Nat} {g : Rng} (b : Bool) (hl : 1 ≤ limit) (ha : witnessAt c 0 g = a)
    (h : 2 ≤ a ∧ a < c) (hb : roundPassed c a ↔ b = true) :
    roundsRun c limit 1 g (some b) (g.skip (portWords (numBits c))) := by
  refine .inr ⟨a, _, ha ▸ witnessFound_first hl (ha.symm ▸ h), ?_⟩
  cases b with
  | true => exact .inl ⟨hb.2 rfl, rfl, rfl⟩
  | false => exact .inr ⟨fun hp => (nomatch hb.1 hp), rfl, rfl⟩

theorem witness_MrtestCompletesWithAVerdict :
    (∃ (s : State) (g : Rng), s.readable [0] = true ∧ s.sval 0 = (15 : Nat) ∧ len (s.val 0) ≤ 24 ∧
      roundsRun 15 s.retryLimit.toNat s.confidence.toNat s.rng (some true) g) ∧
    (∃ (s : State) (g : Rng), s.readable [0] = true ∧ s.sval 0 = (15 : Nat) ∧ len (s.val 0) ≤ 24 ∧
      roundsRun 15 s.retryLimit.toNat s.confidence.toNat s.rng (some false) g) ∧
    (∃ (s : State) (g : Rng), s.readable [0] = true ∧ s.sval 0 = (15 : Nat) ∧ len (s.val 0) ≤ 24 ∧
      roundsRun 15 s.retryLimit.toNat s.confidence.toNat s.rng none g) ∧
    (∃ (s : State) (c : Nat), s.readable [0] = true ∧ s.sval 0 = c ∧ 5 ≤ c ∧ c % 2 = 1 ∧ 24 < len (s.val 0)) := by
  refine ⟨⟨setup [15] 0 1 1 [14], _, by decide +kernel, by decide +kernel, by decide +kernel,
      roundsRun_one (a := 14) true (by decide) (by decide +kernel) (by decide) ?_⟩,
    ⟨setup [15] 0 1 1 [7], _, by decide +kernel, by decide +kernel, by decide +kernel,
      roundsRun_one (a := 7) false (by decide) (by decide +kernel) (by decide) ?_⟩,
    ⟨setup [15] 0 1 2 [0, 1], _, by decide +kernel, by decide +kernel, by decide +kernel,
      .inl ⟨⟨fun k hk => ?_, rfl⟩, rfl⟩⟩,
    ⟨setup [2 ^ 800 + 1], 2 ^ 800 + 1, by decide +kernel, by decide +kernel, by decide +kernel, by decide +kernel,
      by decide +kernel⟩⟩
  · rw [roundPassed_iff (s := 1) (t := 7) _ (by decide) (by decide)]; decide +kernel
  · rw [roundPassed_iff (s := 1) (t := 7) _ (by decide) (by decide)]; decide +kernel
  · have h : k < 2 := hk
    obtain rfl | rfl : k = 0 ∨ k = 1 := by omega
    · unfold witnessInRange; decide +kernel
    · unfold witnessInRange; decide +kernel

theorem witness_PrimeNeverTestsComposite :
    ∃ (s t : State) (p : Nat), s.sval 0 = p ∧ p.Prime ∧ exec (.mrtest 4 0) s = .next t ∧ t.status.err = false := by
  obtain ⟨t, ht, he⟩ := exists_of_look (o := exec (.mrtest 4 0) (setup [97] 0 3 16384 [2, 3, 5]))
    (p := fun t => !t.status.err) (by decide +kernel)
  exact ⟨_, t, 97, by decide +kernel, by norm_num, ht, by simpa using he⟩

/-- The state of the prime-search witnesses: BITLEN 4, one round, the words of 95 program P5. -/
def keySetup : State := setup [] 4 1 16384 [3, 2, 2, 3, 0, 7, 1, 5]

/-- The candidate that the next words give passes or fails one round, with the witness `a`. -/
theorem candidateTested_one {L limit c a : Nat} {g : Rng} (b : Bool) (hl : 1 ≤ limit) (hc : candidateAt L g = c)
    (h3 : c ≠ 3) (ha : witnessAt c 0 (g.skip (portWords L)) = a) (h : 2 ≤ a ∧ a < c) (hb : roundPassed c a ↔ b = true) :
    candidateTested L 1 limit g (some b) ((g.skip (portWords L)).skip (portWords (numBits c))) := by
  subst hc
  exact .inr ⟨h3, roundsRun_one b hl ha h hb⟩

theorem genprime_first_fails_second_passes :
    primeSearched 8 1 2 2 (setup [] 8 1 2 [0x04, 0x02, 0x0B, 0x03]).rng (some 139) ⟨[], 4⟩ := by
  refine .inr (.inr ⟨_, candidateTested_one (c := 133) (a := 2) false (by decide) (by decide +kernel) (by decide)
    (by decide +kernel) (by decide) ?_, .inl ⟨?_, by decide +kernel⟩⟩)
  · rw [roundPassed_iff (s := 2) (t := 33) _ (by decide) (by decide)]; decide +kernel
  · have h := candidateTested_one (L := 8) (limit := 2) (c := 139) (a := 3) (g := ⟨[BitVec.ofNat 32 0x0B, BitVec.ofNat 32 3], 2⟩)
      true (by decide) (by decide +kernel) (by decide) (by decide +kernel) (by decide)
      (by rw [roundPassed_iff (s := 1) (t := 69) _ (by decide) (by decide)]; decide +kernel)
    exact h

theorem witness_GenprimeWritesAPrimeCandidate :
    (∃ (s : State) (g : Rng), 2 ≤ s.bitlen.toNat ∧ s.bitlen.toNat ≤ 768 ∧
      primeSearched s.bitlen.toNat s.confidence.toNat s.retryLimit.toNat s.retryLimit.toNat s.rng (some 139) g) ∧
    (∃ (s : State) (g : Rng), 2 ≤ s.bitlen.toNat ∧ s.bitlen.toNat ≤ 768 ∧
      primeSearched s.bitlen.toNat s.confidence.toNat s.retryLimit.toNat s.retryLimit.toNat s.rng none g) := by
  refine ⟨⟨setup [] 8 1 2 [0x04, 0x02, 0x0B, 0x03], _, by decide +kernel, by decide +kernel,
    genprime_first_fails_second_passes⟩, ⟨setup [] 8 1 1 [0x04, 0x02], _, by decide +kernel, by decide +kernel,
    .inr (.inr ⟨_, candidateTested_one (c := 133) (a := 2) false (by decide) (by decide +kernel) (by decide)
      (by decide +kernel) (by decide) ?_, rfl, rfl⟩)⟩⟩
  rw [roundPassed_iff (s := 2) (t := 33) _ (by decide) (by decide)]; decide +kernel

theorem witness_GenprimeResultIsOddOfExactLength :
    look (exec (.genprime 4) (setup [] 2 1 16384 [0])) (fun t => t.status.err) = some false ∧
    look (exec (.genprime 4) (setup [] 8 1 1 [0x04, 0x02])) (fun t => t.status.errcode) = some 6 ∧
    look (exec (.genprime 4) (setup [] 1)) (fun t => t.status.errcode) = some 3 ∧
    look (exec (.genprime 4) (setup [] 769)) (fun t => t.status.errcode) = some 3 := by decide +kernel

theorem keySetup_p : primeSearched 4 1 16384 16384 keySetup.rng (some 11) (keySetup.rng.skip 2) := by
  refine .inl ⟨candidateTested_one (c := 11) (a := 2) true (by decide) (by decide +kernel) (by decide)
    (by decide +kernel) (by decide) ?_, by decide +kernel⟩
  rw [roundPassed_iff (s := 1) (t := 5) _ (by decide) (by decide)]; decide +kernel

theorem keySetup_q : primeSearched 3 1 16384 16384 (keySetup.rng.skip 2) (some 7) (keySetup.rng.skip 4) := by
  refine .inl ⟨candidateTested_one (c := 7) (a := 3) true (by decide) (by decide +kernel) (by decide)
    (by decide +kernel) (by decide) ?_, by decide +kernel⟩
  rw [roundPassed_iff (s := 1) (t := 3) _ (by decide) (by decide)]; decide +kernel

theorem keySetup_e : exponentSearched 60 6 16384 (keySetup.rng.skip 4) (some 37) (keySetup.rng.skip 8) :=
  .inr ⟨by decide +kernel, .inr ⟨by decide +kernel, .inr ⟨by decide +kernel,
    .inl ⟨by decide +kernel, by decide +kernel, by decide +kernel⟩⟩⟩⟩

theorem witness_KeygenWritesTheKeyOfItsWords :
    ∃ (s : State) (L conf limit p q e : Nat) (g1 g2 g3 : Rng), (1 : Reg) ≠ 2 ∧ (1 : Reg) ≠ 3 ∧ (2 : Reg) ≠ 3 ∧
      L = s.bitlen.toNat ∧ conf = s.confidence.toNat ∧ limit = s.retryLimit.toNat ∧ 3 ≤ L ∧ L ≤ 384 ∧
      primeSearched L conf limit limit s.rng (some p) g1 ∧ primeSearched (L - 1) conf limit limit g1 (some q) g2 ∧
      exponentSearched ((p - 1) * (q - 1)) (p * q).log2 limit g2 (some e) g3 :=
  ⟨keySetup, 4, 1, 16384, 11, 7, 37, _, _, _, by decide, by decide, by decide, by decide +kernel, by decide +kernel,
    by decide +kernel, by decide, by decide, keySetup_p, keySetup_q, keySetup_e⟩

theorem witness_KeygenWritesTheKeyOfItsWords_timeouts :
    (∃ (s : State) (g : Rng), s.bitlen.toNat = 384 ∧ s.retryLimit.toNat = 0 ∧ primeSearched 384 0 0 0 s.rng none g) ∧
    (∃ g : Rng, primeSearched 4 0 1 1 (setup [] 4 0 1 [3, 2, 0]).rng (some 11) g ∧
      primeSearched 3 0 1 1 g (some 7) ⟨[0], 2⟩ ∧ exponentSearched 60 6 1 ⟨[0], 2⟩ none ⟨[], 3⟩) := by
  refine ⟨⟨setup [] 384, _, by decide +kernel, by decide +kernel, rfl, rfl⟩, ⟨[2, 0], 1⟩, .inl ⟨.inr ⟨by decide +kernel,
    rfl, by rfl⟩, by decide +kernel⟩, .inl ⟨.inr ⟨by decide +kernel, rfl, by rfl⟩, by decide +kernel⟩,
    .inr ⟨by decide +kernel, rfl, by rfl⟩⟩

theorem witness_KeygenResultIsAKeyPair :
    (2 : Reg) ≠ 3 ∧
    look (exec (.keygen 1 2 3) keySetup) (fun t => t.status.err) = some false ∧
    look (exec (.keygen 1 2 3) (setup [] 384)) (fun t => t.status.errcode) = some 6 ∧
    look (exec (.keygen 1 2 3) (setup [] 2)) (fun t => t.status.errcode) = some 3 ∧
    look (exec (.keygen 1 2 3) (setup [] 385)) (fun t => t.status.errcode) = some 3 := by decide +kernel

/-- The condition under which VERIFY gives 1. -/
def verifies (s : State) : Prop :=
  0 < s.sval 2 ∧ len (s.val 2) ≤ 24 ∧ 0 ≤ s.sval 1 ∧ 0 ≤ s.sval 0 ∧ s.sval 0 < s.sval 2 ∧
    s.sval 0 ^ (s.sval 1).toNat % s.sval 2 = s.sval 3

theorem witness_VerifyGivesTheVerdictWithoutError :
    (∃ s : State, s.readable [0, 1, 2, 3] = true ∧ verifies s) ∧
    (∃ s : State, s.readable [0, 1, 2, 3] = true ∧ ¬ verifies s) := by
  refine ⟨⟨setup [588, 17, 3233, 65], by decide +kernel, ?_⟩, ⟨setup [80, 37, 77, 3], by decide +kernel, ?_⟩⟩
  · unfold verifies; decide +kernel
  · unfold verifies; decide +kernel

theorem witness_SignedDigestVerifies :
    ∃ (s : State) (p q : Nat), s.readable [0, 1, 2, 3] = true ∧ (4 : Reg) ≠ 0 ∧ (4 : Reg) ≠ 2 ∧ (4 : Reg) ≠ 3 ∧
      p.Prime ∧ q.Prime ∧ p ≠ q ∧ s.sval 3 = (p * q : Nat) ∧ len (s.val 3) ≤ 24 ∧ 0 ≤ s.sval 0 ∧
      s.sval 0 < s.sval 3 ∧ 0 ≤ s.sval 1 ∧ 0 ≤ s.sval 2 ∧
      s.sval 2 * s.sval 1 % ((p - 1) * (q - 1) : Nat) = 1 % ((p - 1) * (q - 1) : Nat) :=
  ⟨setup [65, 2753, 17, 3233], 61, 53, by decide +kernel, by decide, by decide, by decide, by norm_num, by norm_num,
    by decide, by decide +kernel, by decide +kernel, by decide +kernel, by decide +kernel, by decide +kernel,
    by decide +kernel, by decide +kernel⟩

theorem witness_BigRegisterWordsReadAndWrite :
    ∃ (i : Reg) (j : Nat) (s : State), j < 50 ∧ j = 49 ∧ i = 15 ∧ s.status.busy = false ∧
      (s.reg i).written.getLsbD j = true ∧ (50 ≤ 63 ∧ 63 < 64) :=
  ⟨15, 49, { State.reset with x := State.reset.x.set 15 ⟨7, BitVec.allOnes 50⟩ }, by decide +kernel⟩

theorem witness_BusyWritesAreRefusedAndSetLost :
    ∃ s : State, s.status.busy = true ∧ (0x020 ∈ [0x00C, 0x010, 0x014, 0x018, 0x01C, 0x020]) ∧
      (∃ (i : Reg) (j : Nat), j < 50 ∧ 0x1FC4 = 0x1000 + 0x100 * i.val + 4 * j) ∧
      (0x00000001 : Word).getLsbD 1 = false ∧ (0x00000002 : Word).getLsbD 1 = true ∧
      (∀ off ∈ [0x000, 0x024, 0x040, 0xFFC, 0x10C8], off % 4 = 0 ∧ off < 0x2000 ∧
        (off = 0 ∨ (0x024 ≤ off ∧ off < 0x1000) ∨ (0x1000 ≤ off ∧ 0xC8 ≤ off % 0x100))) :=
  ⟨State.reset.acceptCmd 0, by rfl, by decide, ⟨15, 49, by decide, by rfl⟩, by decide, by decide, by decide⟩

theorem witness_ReservedAndReadOnlyOffsetsIgnoreWrites :
    (∀ off ∈ [0x024, 0x03C, 0x080, 0xFFC], off % 4 = 0 ∧ off < 0x2000 ∧
      ((0x024 ≤ off ∧ off < 0x040) ∨ (0x080 ≤ off ∧ off < 0x1000))) ∧
    (∀ off ∈ [0x10C8, 0x1FFC], off % 4 = 0 ∧ off < 0x2000 ∧ 0x1000 ≤ off ∧ 0xC8 ≤ off % 0x100) ∧
    (∀ off ∈ [0, 0x040, 0x07C], off % 4 = 0 ∧ off < 0x2000 ∧ (off = 0 ∨ (0x040 ≤ off ∧ off < 0x080))) := by decide

theorem witness_LenReadsTheSignificantWords :
    (∃ s : State, (s.reg 3).written = BitVec.allOnes 50 ∧ s.sval 3 < 0) ∧
    (∃ s : State, (s.reg 3).written = BitVec.allOnes 50 ∧ 0 ≤ s.sval 3) :=
  ⟨⟨setup [0, 0, 0, -2], by decide +kernel⟩, ⟨setup [0, 0, 0, 0], by decide +kernel⟩⟩

theorem witness_ReadsHaveNoSideEffect :
    (∃ s t u : State, hostRead 0x1300 4 s = .next t ∧ hostRead 0x1300 4 t = .next u ∧ t.drawPos = s.drawPos) ∧
    (∃ s t u : State, hostRead 0x1300 4 s = .next t ∧ hostRead 0x1300 4 t = .next u ∧ s.drawPos < t.drawPos) ∧
    (∃ s t u : State, hostRead 0x040 4 s = .next t ∧ hostRead 0x040 4 t = .next u ∧ s.drawPos < t.drawPos) ∧
    (∃ s : State, 49 < 50 ∧ (s.reg 15).written.getLsbD 49 = false ∧ (s.reg 15).written ≠ BitVec.allOnes 50) :=
  ⟨⟨setup [0, 0, 0, 7], _, _, by rfl, by rfl, by decide +kernel⟩, ⟨State.reset, _, _, by rfl, by rfl, by decide +kernel⟩,
    ⟨State.reset, _, _, by rfl, by rfl, by decide +kernel⟩, ⟨setup [5], by decide, by decide +kernel, by decide +kernel⟩⟩

theorem witness_AccessesTheBlockHasNoStepFor :
    (2 ≠ 4 ∨ 0x000 % 4 ≠ 0) ∧ (4 ≠ 4 ∨ 0x1002 % 4 ≠ 0) ∧ (4 = 4 ∧ 0x2000 % 4 = 0 ∧ 0x2000 ≤ 0x2000) ∧
      (4 = 4 ∧ 0x1FFC % 4 = 0 ∧ 0x1FFC < 0x2000 ∧ 0x1FFC ≠ 0x00C) ∧
      (∃ s : State, s.status.busy = false ∧
        ∀ r ∈ (Instr.add 2 0 1).sources, (s.reg r).written = BitVec.allOnes 50) ∧
      (∃ s : State, s.status.busy = false ∧ ∃ i, decode 0x00010210 = .ok i ∧
        ∃ r ∈ i.sources, (s.reg r).written ≠ BitVec.allOnes 50) :=
  ⟨by decide, by decide, by decide, by decide, ⟨setup [5, 7], by rfl, by decide +kernel⟩,
    ⟨setup [5], by rfl, .add 2 0 1, by rfl, 1, by decide, by decide +kernel⟩⟩

theorem witness_AcceptedCmdWriteStartsTheCommand :
    (∃ (s : State) (c : Word) (rest : List Event), s.agenda = .hostWrite 0x00C 4 c :: rest ∧ s.status.busy = false ∧
      decode c = .ok (.add 2 0 1) ∧ ∀ r ∈ (Instr.add 2 0 1).sources, (s.reg r).written = BitVec.allOnes 50) ∧
    (∃ (s : State) (c : Word) (rest : List Event), s.agenda = .hostWrite 0x00C 4 c :: rest ∧ s.status.busy = false ∧
      decode c = .ok (.add 2 0 1) ∧
      ∃ r ∈ (Instr.add 2 0 1).sources, ∃ j, j < 50 ∧ (s.reg r).written.getLsbD j = false) :=
  ⟨⟨{ setup [5, 7] with agenda := [.hostWrite 0x00C 4 0x00010210, .engineComplete] }, 0x00010210, [.engineComplete],
      by rfl, by rfl, by rfl, by decide +kernel⟩,
    ⟨{ setup [5] with agenda := [.hostWrite 0x00C 4 0x00010210, .engineComplete] }, 0x00010210, [.engineComplete],
      by rfl, by rfl, by rfl, 1, by decide, 49, by decide, by decide +kernel⟩⟩

theorem witness_ControlRegistersReadTheirFields : State.reset.status.busy = false := by rfl

theorem witness_SoftResetKeepsTheRegisters :
    (0x00000003 : Word).toNat / 2 % 2 = 1 ∧ (0x00000001 : Word).toNat / 2 % 2 = 0 := by decide

theorem witness_HardResetGivesTheResetValues :
    ∃ (s : State) (rest : List Event), s.agenda = .hardReset :: rest ∧ s.status.busy = true ∧ s.drawn = 1 :=
  ⟨{ (setup [] 40 0 0 [1, 2]).acceptCmd 0x00000430 with drawn := 1, agenda := [.hardReset] }, [], by rfl, by rfl, by rfl⟩

theorem witness_InterruptFollowsEnableAndDone :
    ∃ s : State, s.ie = true ∧ s.status.done = true ∧ s.status.busy = false ∧ (∃ t, exec .nop s = .next t) ∧
      (0x00000002 : Word).getLsbD 1 = true ∧ (∃ t, hostWrite 0x008 4 0x00000002 s = .next t) ∧
      (∃ t, hostWrite 0x00C 4 0 s = .next t) ∧ (∃ t, hostWrite 0x004 4 0x00000002 s = .next t) ∧
      (∃ t, hostWrite 0x004 4 0x00000000 s = .next t) :=
  ⟨{ State.reset with ie := true, status := { Status.reset with done := true } }, by rfl, by rfl, by rfl, ⟨_, by rfl⟩,
    by decide, ⟨_, by rfl⟩, ⟨_, by rfl⟩, ⟨_, by rfl⟩, ⟨_, by rfl⟩⟩

theorem witness_InterruptFollowsEnableAndDone_step :
    (∃ s t : State, step s = .next t ∧ s.status.done = false ∧ t.status.done = true ∧ s.status.busy = true ∧
      s.agenda = [.engineComplete] ∧ decode s.latched = .ok .nop) ∧
    (∃ s t : State, step s = .next t ∧ s.status.busy = true ∧ s.agenda = [] ∧
      decode s.latched = .error .reservedOpcode) :=
  ⟨⟨running 0 State.reset, _, by rfl, by rfl, by rfl, by rfl, by rfl, by rfl⟩,
    ⟨State.reset.acceptCmd 0xFF, _, by rfl, by rfl, by rfl, by rfl⟩⟩

theorem witness_StepKeepsTheStateSound :
    ∃ s t : State, s.sound = true ∧ step s = .next t ∧ s.status.busy = true := by
  obtain ⟨t, ht, _⟩ := exists_of_look (o := step (running 0x0001021C (setup [5, 0]))) (p := fun t => t.status.err)
    (by decide +kernel)
  exact ⟨_, t, by decide +kernel, ht, by rfl⟩

theorem witness_BusyPeriodEndsOnlyByCompletionOrReset :
    (∃ s t : State, s.status.busy = true ∧ step s = .next t ∧ t.status.busy = true) ∧
    (∃ s t : State, s.status.busy = true ∧ step s = .next t ∧ t.status.busy = false) ∧
    (∃ s : State, s.status.busy = true ∧ s.sound = true ∧ s.agenda = [.engineComplete]) := by
  refine ⟨?_, ?_, ?_⟩
  · exact ⟨{ State.reset.acceptCmd 0 with agenda := [.hostWrite 0x00C 4 0] }, _, by rfl, by rfl, by rfl⟩
  · exact ⟨running 0 State.reset, _, by rfl, by rfl, by rfl⟩
  · exact ⟨running 0x00010210 (setup [5, 7]), by rfl, by decide +kernel, by rfl⟩

theorem witness_EngineDrawsOnlyWordsItNeeds :
    ∃ s t : State, (s.status.busy = true → s.drawn ≤ wordsNeeded s) ∧ (s.status.busy = false → s.drawn = 0) ∧
      step s = .next t ∧ s.status.busy = true ∧ t.drawn = 2 := by
  obtain ⟨t, ht, h⟩ := exists_of_look
    (o := step { (setup [] 40 0 0 [1, 2]).acceptCmd 0x00000430 with drawn := 1, agenda := [.engineDraw] })
    (p := fun t => t.drawn == 2) (by decide +kernel)
  exact ⟨_, t, by decide +kernel, by decide +kernel, ht, by rfl, by simpa using h⟩

theorem witness_UnwrittenWordsCannotBeSeen :
    ∃ s t : State, s.alike t ∧ s ≠ t := by
  refine ⟨State.reset, { State.reset with x := State.reset.x.set 0 ⟨1, 0⟩ }, ⟨fun r => ?_, by rfl⟩, by decide +kernel⟩
  fin_cases r <;> exact ⟨by rfl, fun j _ h => by simp [State.reg, State.reset] at h⟩

theorem witness_LdvalLoadsTheValue :
    ∃ (i : Reg) (v : Int) (s : State), s.status.busy = false ∧ s.agenda = ldval i v :=
  ⟨1, 123456789012345678901234567890, { State.reset with agenda := ldval 1 123456789012345678901234567890 }, by rfl,
    by rfl⟩

end Sys2Proof.Tests
end

/-! PROOF. The length of a big register (R9, R32). -/

namespace Sys2Proof.Machine

/-! ## Length -/

theorem isNeg_eq_false_iff (u : Big) : isNeg u = false ↔ 0 ≤ sval u := by
  rw [← Bool.not_eq_true, isNeg_iff, Int.not_lt]

theorem len_of_neg {u : Big} (h : sval u < 0) : len u = 50 := if_pos ((isNeg_iff u).2 h)

theorem len_of_nonneg {u : Big} (h : 0 ≤ sval u) : len u = max 1 (topWord u 50) :=
  if_neg (by rw [(isNeg_eq_false_iff u).2 h]; decide)

theorem sval_lt_pow_len {u : Big} (h : 0 ≤ sval u) : sval u < (2 ^ 32) ^ len u := by
  have h1 := uval_lt_pow_len ((isNeg_eq_false_iff u).2 h)
  rw [sval_of_nonneg h]
  exact_mod_cast h1

/-- A value of more than one word does not fit fewer words. -/
theorem pow_len_le_sval {u : Big} (h : 0 ≤ sval u) (h1 : 1 < len u) : (2 ^ 32) ^ (len u - 1) ≤ sval u := by
  have hl := len_of_nonneg h
  have ht : len u = topWord u 50 := by omega
  have hp := topWord_pow_le u 50 (by omega)
  rw [sval_of_nonneg h, ht]
  exact_mod_cast hp

/-! ## The LEN register -/

/-- LEN[i] of a register wholly written answers its length and changes nothing else (R32, R43). -/
theorem hostRead_len {i : Reg} {s : State} (h : (s.reg i).written = BitVec.allOnes 50) :
    hostRead (lenOffset i) 4 s = .next { s with rdata := some (BitVec.ofNat 32 (len (s.val i))) } := by
  have hloc : s.readLoc (.len i) = some (BitVec.ofNat 32 (len (s.val i))) := if_pos (by simp [BigReg.isWritten, h])
  have hi := i.isLt
  rw [hostRead_ok (by simp only [lenOffset]; omega) (by simp only [lenOffset, Config.portSize]; omega),
    portLoc_lenOffset, State.answer, hloc]

/-- Settles O47: LEN[i] answers `len`, which the bounds on the value characterise. -/
theorem lenReadsTheSignificantWords : Obligations.LenReadsTheSignificantWords := by
  intro i s h
  exact ⟨len (s.val i), hostRead_len h, len_pos _, len_le _, len_of_neg, fun h0 => ⟨sval_lt_pow_len h0, pow_len_le_sval h0⟩⟩

end Sys2Proof.Machine

/-! PROOF. How a command that draws random words completes, and RANDBITS (R15, R36, R100, R112). -/

namespace Sys2Proof.Machine

/-! ## Completion -/

/-- A completion without error leaves the writes of its result, STATUS as completed, and the port where the command left
it. -/
theorem completedTo_commit (s : State) (g : Rng) (r : Result) (hn : (r.writes.map Prod.fst).Nodup) :
    s.completedTo ((s.setRng g).commit r) r.writes (s.status.completed r) g :=
  ⟨fun p hp => State.commit_reg_of_mem _ r hn p.1 p.2 hp, fun q hq => State.commit_reg_other _ r q hq,
    by rw [State.commit_eq]; rfl⟩

theorem finishDraw_ok (s : State) (r : Result) (g : Rng) (hn : (r.writes.map Prod.fst).Nodup) :
    ∃ t, finishDraw s (.ok r, g) = .next t ∧ s.completedTo t r.writes (s.status.completed r) g :=
  ⟨_, rfl, completedTo_commit s g r hn⟩

theorem finishDraw_error (s : State) (e : ErrCode) (g : Rng) :
    ∃ t, finishDraw s (.error e, g) = .next t ∧ s.failedTo t (errCodeBits e) g := ⟨_, rfl, rfl⟩

/-- A result without CMP, RES or overflow leaves STATUS merely done. -/
theorem completed_writes (t : Status) (ws : List (Reg × Big)) : t.completed { writes := ws } = t.doneOk := by
  simp [Status.completed, Status.doneOk]

theorem completed_verdict (t : Status) (ws : List (Reg × Big)) (b : Bool) :
    t.completed { writes := ws, res := some b } = { t.doneOk with res := b } := by
  simp [Status.completed, Status.doneOk]

/-! ## RANDBITS -/

/-- Below its forced top bit the sample of `L` bits spells the port's words (R15). -/
theorem sampleAt_testBit {L k : Nat} (g : Rng) (h : k + 1 < L) :
    (sampleAt L g).testBit k = (portWord g (k / 32)).getLsbD (k % 32) := by
  have hk : (2 ^ (L - 1)).testBit k = false := Nat.testBit_two_pow_of_ne (by omega)
  rw [sampleAt, Nat.testBit_or, hk, Bool.or_false, portBits_testBit g (by omega), Nat.zero_add]

theorem sampleAt_bounds {L : Nat} (h : 1 ≤ L) (g : Rng) : 2 ^ (L - 1) ≤ sampleAt L g ∧ sampleAt L g < 2 ^ L := by
  have hb := randomBits_bounds h g
  rwa [randomBits_eq_sampleAt] at hb

theorem randbitsValue_of_range {L : Nat} (h1 : 1 ≤ L) (h2 : L ≤ 1599) (g : Rng) :
    randbitsValue L g = (.ok (sampleAt L g), g.skip (portWords L)) := by
  rw [randbitsValue, if_neg (by omega), randomBits_eq_sampleAt]

theorem randbitsValue_out_of_range {L : Nat} (h : L = 0 ∨ 1600 ≤ L) (g : Rng) :
    randbitsValue L g = (.error .domain, g) := if_pos (by omega)

/-- Settles O33: the value RANDBITS draws is `sampleAt`, whose length and bits are known. -/
theorem randbitsWritesExactlyLBits : Obligations.RandbitsWritesExactlyLBits := by
  intro rd s
  constructor
  · intro h1 h2
    obtain ⟨hlo, hhi⟩ := sampleAt_bounds h1 s.rng
    obtain ⟨t, ht, hc⟩ := finishDraw_ok s (oneWrite rd (sampleAt s.bitlen.toNat s.rng))
      (s.rng.skip (portWords s.bitlen.toNat)) (by simp [oneWrite])
    rw [oneWrite, completed_writes] at hc
    refine ⟨sampleAt s.bitlen.toNat s.rng, t, ?_, hc, hlo, hhi, fun k hk => sampleAt_testBit s.rng hk⟩
    rw [exec, execRandbits, randbitsValue_of_range h1 h2]
    exact ht
  · intro h
    rw [exec, execRandbits, randbitsValue_out_of_range h]
    exact finishDraw_error s .domain s.rng

end Sys2Proof.Machine

/-! PROOF. Barrett reduction with the exact constant, and modular exponentiation by it (R85-R92). -/

namespace Sys2Proof.Machine

set_option exponentiation.threshold 2000

/-! ## The length of an encoded number -/

theorem sval_enc_natCast {n : Nat} (h : n < 2 ^ 1599) : sval (enc (n : Int)) = n :=
  sval_enc ((fits_iff _).2 ⟨by omega, by exact_mod_cast h⟩)

/-- A positive number lies between the powers of the radix that its length names (R9). -/
theorem len_enc_bounds {n : Nat} (h0 : 0 < n) (h : n < 2 ^ 1599) :
    Config.radix ^ (len (enc n) - 1) ≤ n ∧ n < Config.radix ^ len (enc n) := by
  have hs := sval_enc_natCast h
  have hn : isNeg (enc (n : Int)) = false := by
    rw [← Bool.not_eq_true, isNeg_iff, hs]; omega
  have hu : uval (enc (n : Int)) = n := uval_enc_of_lt (h.trans (Nat.pow_lt_pow_right (by decide) (by decide)))
  have h1 := pow_len_le_uval hn (by omega)
  have h2 := uval_lt_pow_len hn
  rw [hu] at h1 h2
  exact ⟨h1, h2⟩

/-! ## Barrett reduction -/

/-- The quotient estimate from two floors, `B * D` the dividend of the constant: it is at most 2 too small. -/
theorem quotient_estimate {x n B D : Nat} (hn : 0 < n) (hB : 0 < B) (hBn : B ≤ n) (hx : x < B * D) :
    x / B * (B * D / n) / D * n ≤ x ∧ x < x / B * (B * D / n) / D * n + 3 * n := by
  have hD : 0 < D := Nat.pos_of_ne_zero fun h => by simp [h] at hx
  have hx1 := Nat.div_add_mod x B
  have hx2 := Nat.mod_lt x hB
  have hm1 := Nat.div_add_mod (B * D) n
  have hm2 := Nat.mod_lt (B * D) hn
  have huD : x / B < D := Nat.div_lt_of_lt_mul hx
  generalize x / B = u at *
  generalize B * D / n = mu at *
  have hq1 := Nat.div_add_mod (u * mu) D
  have hq2 := Nat.mod_lt (u * mu) hD
  generalize u * mu / D = q at *
  generalize x % B = α at *
  generalize B * D % n = β at *
  generalize u * mu % D = γ at *
  have key : D * x = D * (q * n) + (γ * n + u * β + D * α) := by
    calc D * x = u * (B * D) + D * α := by rw [← hx1]; ring
      _ = (u * mu) * n + u * β + D * α := by rw [← hm1]; ring
      _ = _ := by rw [← hq1]; ring
  constructor
  · exact Nat.le_of_mul_le_mul_left (by omega) hD
  · have e1 : γ * n < D * n := Nat.mul_lt_mul_of_pos_right hq2 hn
    have e2 : u * β ≤ D * n := Nat.mul_le_mul huD.le hm2.le
    have e3 : D * α ≤ D * n := Nat.mul_le_mul_left D (hx2.le.trans hBn)
    refine Nat.lt_of_mul_lt_mul_left (a := D) ?_
    rw [Nat.mul_add, key, show D * (3 * n) = 3 * (D * n) by ring]
    omega

/-- Where the estimate is not too large and close enough, the core's difference is the plain one. -/
theorem barrettDiff_of_estimate {x n mu k : Nat} (hlo : barrettQuotient x mu k * n ≤ x)
    (hhi : x < barrettQuotient x mu k * n + Config.radix ^ (k + 1)) :
    barrettDiff x n mu k = x - barrettQuotient x mu k * n := by
  rw [barrettDiff]
  generalize barrettQuotient x mu k * n = y at *
  generalize Config.radix ^ (k + 1) = m at *
  rw [Int.emod_eq_of_lt (by omega) (by omega)]
  omega

/-- With the exact constant two corrections suffice, and the core reduces modulo `n` (R87). -/
theorem barrettCore_exact {x n k : Nat} (hk : 1 ≤ k) (h1 : Config.radix ^ (k - 1) ≤ n) (h2 : n < Config.radix ^ k)
    (hx : x < Config.radix ^ (2 * k)) : barrettCore x n (Config.radix ^ (2 * k) / n) k = .ok (x % n) := by
  have hB : 0 < Config.radix ^ (k - 1) := Nat.pow_pos (by decide)
  have hn : 0 < n := by omega
  have hpow : Config.radix ^ (2 * k) = Config.radix ^ (k - 1) * Config.radix ^ (k + 1) := by
    rw [← Nat.pow_add]; congr 1; omega
  obtain ⟨hlo, hhi⟩ := quotient_estimate hn hB h1 (hpow ▸ hx)
  rw [← hpow, ← barrettQuotient] at hlo hhi
  have h3 : 3 * n < Config.radix ^ (k + 1) := by
    rw [Nat.pow_succ]
    have : 3 ≤ Config.radix := by decide
    nlinarith
  rw [barrettCore_eq _ _ _ _ hn, barrettDiff_of_estimate hlo (hhi.trans (Nat.add_lt_add_left h3 _)), if_pos (by omega),
    Nat.mul_comm, Nat.sub_mul_mod (by rwa [Nat.mul_comm])]

theorem barrettCore_muConst {x n : Nat} (h0 : 0 < n) (h : n < 2 ^ 1599) (hx : x < n * n) :
    barrettCore x n (muConst n) (len (enc n)) = .ok (x % n) := by
  obtain ⟨h1, h2⟩ := len_enc_bounds h0 h
  refine barrettCore_exact (len_pos _) h1 h2 (hx.trans ?_)
  rw [Nat.two_mul, Nat.pow_add]
  exact Nat.mul_self_lt_mul_self h2

/-! ## Modular exponentiation -/

/-- The bits of an exponent from `i` on, least significant first. -/
theorem bits_from_succ (e i cnt : Nat) :
    e / 2 ^ i % 2 ^ (cnt + 1) = (e.testBit i).toNat + 2 * (e / 2 ^ (i + 1) % 2 ^ cnt) := by
  rw [Nat.pow_succ', Nat.mod_mul, Nat.div_div_eq_div_mul, ← Nat.pow_succ, Nat.toNat_testBit]

/-- What the loop leaves: the accumulator times the power of the base that the remaining bits name (R92). -/
theorem modPowLoop_eq {n : Nat} (h0 : 0 < n) (h : n < 2 ^ 1599) (e cnt i a r : Nat) (ha : a < n) (hr : r < n) :
    modPowLoop e n (muConst n) (len (enc n)) cnt i a r = .ok (r * a ^ (e / 2 ^ i % 2 ^ cnt) % n) := by
  induction cnt generalizing i a r with
  | zero => simp [modPowLoop, Nat.mod_one, Nat.mod_eq_of_lt hr]
  | succ cnt ih =>
    have hsq : barrettCore (a * a) n (muConst n) (len (enc n)) = .ok (a * a % n) :=
      barrettCore_muConst h0 h (Nat.mul_self_lt_mul_self ha)
    have hmul : barrettCore (r * a) n (muConst n) (len (enc n)) = .ok (r * a % n) :=
      barrettCore_muConst h0 h (Nat.mul_lt_mul'' hr ha)
    have hpow (m : Nat) : (a * a % n) ^ m ≡ a ^ (2 * m) [MOD n] := by
      rw [Nat.pow_mul, Nat.pow_two]; exact (Nat.mod_modEq _ _).pow m
    rw [modPowLoop, bits_from_succ, hsq]
    cases e.testBit i with
    | true =>
      rw [if_pos rfl, hmul]
      refine (ih (i + 1) _ _ (Nat.mod_lt _ h0) (Nat.mod_lt _ h0)).trans (congrArg Except.ok ?_)
      refine (((Nat.mod_modEq _ _).mul (hpow _)).trans ?_)
      rw [Bool.toNat_true, Nat.pow_add a 1, Nat.pow_one, Nat.mul_assoc]
    | false =>
      rw [if_neg Bool.false_ne_true]
      refine (ih (i + 1) _ _ (Nat.mod_lt _ h0) hr).trans (congrArg Except.ok ?_)
      refine (((Nat.ModEq.refl r).mul (hpow _)).trans ?_)
      rw [Bool.toNat_false, Nat.zero_add]

/-- `ModPowCore` is the power modulo `n` (R92). -/
theorem modPowCore_eq {n : Nat} (h0 : 0 < n) (h : n < 2 ^ 1599) (a e : Nat) : modPowCore a e n = .ok (a ^ e % n) := by
  rw [modPowCore, modPowLoop_eq h0 h _ _ _ _ _ (Nat.mod_lt _ h0) (Nat.mod_lt _ h0), Nat.pow_zero, Nat.div_one,
    Nat.mod_eq_of_lt (lt_two_pow_bitLength e)]
  refine congrArg Except.ok (((Nat.mod_modEq 1 n).mul ((Nat.mod_modEq a n).pow e)).trans ?_)
  rw [Nat.one_mul]

end Sys2Proof.Machine

/-! PROOF. The Miller-Rabin engine runs the rounds of R102, and MRTEST answers their verdict (R101-R103). -/

namespace Sys2Proof.Machine

set_option exponentiation.threshold 2000

/-- What a search over random words answers: `none` is a search that has reached RETRY_LIMIT (R101, R104). -/
def orTimeout {α : Type} : Option α → Except ErrCode α
  | some a => .ok a
  | none => .error .timeout

@[simp] theorem orTimeout_some {α : Type} (a : α) : orTimeout (some a) = .ok a := rfl
@[simp] theorem orTimeout_none {α : Type} : orTimeout (none : Option α) = .error .timeout := rfl

/-! ## One round -/

/-- The squarings of a round look for `c - 1` among the powers by `2, 4, .. 2^cnt` (R102). -/
theorem squarings_spec {c : Nat} (h0 : 0 < c) (h : c < 2 ^ 1599) (cnt y : Nat) :
    ∃ b, squarings c cnt y = .ok b ∧ (b = true ↔ ∃ j, j < cnt ∧ y ^ 2 ^ (j + 1) % c = c - 1) := by
  induction cnt generalizing y with
  | zero => exact ⟨false, rfl, by simp⟩
  | succ cnt ih =>
    have hstep : squarings c (cnt + 1) y = if y ^ 2 % c = c - 1 then .ok true else squarings c cnt (y ^ 2 % c) := by
      rw [squarings, modPowCore_eq h0 h]; rfl
    rw [hstep]
    split
    next hy => exact ⟨true, rfl, by simpa using ⟨0, by omega, by simpa using hy⟩⟩
    next hy =>
      obtain ⟨b, hb, hiff⟩ := ih (y ^ 2 % c)
      have hpow (j : Nat) : (y ^ 2 % c) ^ 2 ^ (j + 1) % c = y ^ 2 ^ (j + 1 + 1) % c := by
        rw [← Nat.pow_mod, ← Nat.pow_mul, ← Nat.pow_succ']
      refine ⟨b, hb, hiff.trans ⟨fun ⟨j, hj, he⟩ => ⟨j + 1, by omega, by rwa [← hpow]⟩, fun ⟨j, hj, he⟩ => ?_⟩⟩
      cases j with
      | zero => exact absurd (by simpa using he) hy
      | succ j => exact ⟨j, by omega, by rwa [hpow]⟩

theorem roundPasses_of_not_coprime {c a : Nat} (s t : Nat) (hg : Nat.gcd a c ≠ 1) : roundPasses c s t a = .ok false := by
  rw [roundPasses, euclidCore_eq_gcd, if_pos hg]

/-- A round with a coprime witness looks at its power `a^t`, and then at that power's squarings (R102). -/
theorem roundPasses_of_coprime {c a : Nat} (s t : Nat) (h0 : 0 < c) (h : c < 2 ^ 1599) (hg : Nat.gcd a c = 1) :
    roundPasses c s t a
      = if a ^ t % c = 1 ∨ a ^ t % c = c - 1 then .ok true else squarings c (s - 1) (a ^ t % c) := by
  rw [roundPasses, euclidCore_eq_gcd, if_neg (not_not.2 hg), modPowCore_eq h0 h]; rfl

/-- One round passes exactly where R102 lets it. -/
theorem roundPasses_spec {c s t : Nat} (h0 : 0 < c) (h : c < 2 ^ 1599) (hst : c - 1 = 2 ^ s * t) (ht : t % 2 = 1)
    (hs : 1 ≤ s) (a : Nat) : ∃ b, roundPasses c s t a = .ok b ∧ (b = true ↔ roundPassed c a) := by
  rw [roundPassed_iff a hst ht]
  by_cases hg : Nat.gcd a c = 1
  · have hpow (j : Nat) : (a ^ t % c) ^ 2 ^ j % c = a ^ (2 ^ j * t) % c := by
      rw [← Nat.pow_mod, ← Nat.pow_mul, Nat.mul_comm]
    rw [roundPasses_of_coprime s t h0 h hg]
    split
    next hy =>
      refine ⟨true, rfl, iff_of_true rfl ⟨hg, hy.imp_right fun h => ⟨0, by omega, ?_⟩⟩⟩
      rwa [Nat.pow_zero, Nat.one_mul]
    next hy =>
      obtain ⟨b, hb, hiff⟩ := squarings_spec h0 h (s - 1) (a ^ t % c)
      refine ⟨b, hb, hiff.trans ⟨fun ⟨j, hj, he⟩ => ⟨hg, .inr ⟨j + 1, by omega, by rwa [← hpow]⟩⟩, ?_⟩⟩
      rintro ⟨-, h1 | ⟨j, hj, he⟩⟩
      · exact absurd (.inl h1) hy
      cases j with
      | zero => exact absurd (.inr (by simpa using he)) hy
      | succ j => exact ⟨j, by omega, by rwa [hpow]⟩
  · exact ⟨false, roundPasses_of_not_coprime s t hg, by simp [hg]⟩

/-! ## The witness search -/

theorem witness_of_found {c limit a : Nat} {g g' : Rng} (hc : 0 < c) (h : witnessFound c limit g a g') :
    witness c limit g = (.ok a, g') := by
  rcases witness_cases hc limit g with ⟨b, g1, he, hf⟩ | ⟨g1, _, hn⟩
  · obtain ⟨rfl, rfl⟩ := witnessFound_unique hf h
    exact he
  · exact absurd h (not_witnessFound_of_noWitness hn)

theorem witness_of_none {c limit : Nat} {g g' : Rng} (hc : 0 < c) (h : noWitness c limit g g') :
    witness c limit g = (.error .timeout, g') := by
  rcases witness_cases hc limit g with ⟨b, g1, _, hf⟩ | ⟨g1, he, hn⟩
  · exact absurd hf (not_witnessFound_of_noWitness h)
  · rw [he, hn.2, h.2]

/-! ## All rounds -/

/-- The engine's rounds are those of the relation, whose split of `c - 1` is free. -/
theorem mrRounds_of_roundsRun {c s t limit conf : Nat} {g g' : Rng} {v : Option Bool} (h0 : 0 < c) (h : c < 2 ^ 1599)
    (hst : c - 1 = 2 ^ s * t) (ht : t % 2 = 1) (hs : 1 ≤ s) (hr : roundsRun c limit conf g v g') :
    mrRounds c s t limit conf g = (orTimeout v, g') := by
  induction conf generalizing g with
  | zero => obtain ⟨rfl, rfl⟩ := hr; rfl
  | succ conf ih =>
    rcases hr with ⟨hn, rfl⟩ | ⟨a, g1, hf, hr⟩
    · rw [mrRounds, witness_of_none h0 hn]; rfl
    · obtain ⟨b, hb, hiff⟩ := roundPasses_spec h0 h hst ht hs a
      rw [mrRounds, witness_of_found h0 hf]
      rcases hr with ⟨hp, hr⟩ | ⟨hp, rfl, rfl⟩
      · simp only [hb, hiff.2 hp, ih hr]
      · simp only [hb, Bool.not_eq_true _ ▸ mt hiff.1 hp, orTimeout_some]

/-! ## The test of a candidate -/

theorem millerRabin_three (conf limit : Nat) (g : Rng) : millerRabin 3 conf limit g = (.ok true, g) := rfl

/-- An odd candidate of 5 or more is beyond the table: its length decides whether its rounds run (R102). -/
theorem millerRabin_odd {c : Nat} (h5 : 5 ≤ c) (hodd : c % 2 = 1) (conf limit : Nat) (g : Rng) :
    millerRabin c conf limit g = if 24 < len (enc c) then (.error .cap, g)
      else mrRounds c (tz (c - 1)) ((c - 1) / 2 ^ tz (c - 1)) limit conf g := by
  rw [millerRabin, if_neg (by omega), if_neg (by omega), if_neg (by omega), if_neg (by omega)]
  rfl

/-- The test of an odd candidate of 5 or more, of at most 24 words, is that of the relation. -/
theorem millerRabin_of_roundsRun {c conf limit : Nat} {g g' : Rng} {v : Option Bool} (h5 : 5 ≤ c) (hodd : c % 2 = 1)
    (h : c < 2 ^ 1599) (hl : len (enc c) ≤ 24) (hr : roundsRun c limit conf g v g') :
    millerRabin c conf limit g = (orTimeout v, g') := by
  obtain ⟨hst, ht⟩ := tz_spec (v := c - 1) (by omega)
  have hs : 1 ≤ tz (c - 1) := by
    refine Nat.one_le_iff_ne_zero.2 fun hz => ?_
    rw [hz, Nat.pow_zero, Nat.div_one] at ht
    omega
  rw [millerRabin_odd h5 hodd, if_neg (by omega), mrRounds_of_roundsRun (by omega) h hst.symm ht hs hr]

/-! ## MRTEST -/

theorem exec_mrtest {rd rs1 : Reg} {s : State} (hr : s.readable [rs1] = true) : exec (.mrtest rd rs1) s =
    finishDraw s ((millerRabin (s.sval rs1) s.confidence.toNat s.retryLimit.toNat s.rng).1.map
      fun b => { writes := [(rd, enc (if b then 1 else 0))], res := some b },
      (millerRabin (s.sval rs1) s.confidence.toNat s.retryLimit.toNat s.rng).2) := by
  rw [exec, execMrtest, withSources_of_readable hr]

theorem enc_verdict (b : Bool) : enc (if b then 1 else 0) = if b then 1 else 0 := by cases b <;> rfl

/-- Settles O35: the engine's rounds are the relation's, and a candidate beyond 24 words ends before them. -/
theorem mrtestCompletesWithAVerdict : Obligations.MrtestCompletesWithAVerdict := by
  intro rd rs1 s c hread hc h5 hodd
  have henc : enc (c : Int) = s.val rs1 := by rw [← hc]; exact enc_sval _
  have hlt : c < 2 ^ 1599 := by
    have hfits := ((fits_iff _).1 (fits_sval (s.val rs1))).2
    rw [show sval (s.val rs1) = c from hc] at hfits
    exact_mod_cast hfits
  rw [exec_mrtest hread, hc, ← henc]
  refine ⟨fun hl g => ⟨fun b hr => ?_, fun hr => ?_⟩, fun hl => ?_⟩
  · rw [millerRabin_of_roundsRun h5 hodd hlt hl hr]
    obtain ⟨t, ht, hdone⟩ := finishDraw_ok s { writes := [(rd, enc (if b then 1 else 0))], res := some b } g (by simp)
    rw [completed_verdict, enc_verdict] at hdone
    exact ⟨t, ht, hdone⟩
  · rw [millerRabin_of_roundsRun h5 hodd hlt hl hr]
    exact finishDraw_error s .timeout g
  · rw [millerRabin_odd h5 hodd, if_pos hl]
    exact finishDraw_error s .cap s.rng

end Sys2Proof.Machine

/-! PROOF. The prime search finds the candidate that R104 names, and GENPRIME writes it (R104, R105). -/

namespace Sys2Proof.Machine

set_option exponentiation.threshold 2000

/-! ## Candidates -/

theorem candidateAt_odd (L : Nat) (g : Rng) : candidateAt L g % 2 = 1 := by
  rw [candidateAt, Nat.or_mod_two_eq_one]
  exact .inr rfl

theorem candidateAt_bounds {L : Nat} (h : 1 ≤ L) (g : Rng) :
    2 ^ (L - 1) ≤ candidateAt L g ∧ candidateAt L g < 2 ^ L := by
  obtain ⟨hlo, hhi⟩ := sampleAt_bounds h g
  exact ⟨hlo.trans Nat.left_le_or, Nat.or_lt_two_pow hhi (Nat.one_lt_two_pow (by omega))⟩

/-- A number of at most 768 bits has at most 24 words (R85). -/
theorem len_enc_le_kMax {n : Nat} (h0 : 0 < n) (h : n < 2 ^ 768) : len (enc n) ≤ 24 := by
  obtain ⟨hlo, -⟩ := len_enc_bounds h0 (h.trans (Nat.pow_lt_pow_right (by decide) (by decide)))
  have hpow : Config.radix ^ (len (enc n) - 1) < Config.radix ^ 24 := hlo.trans_lt h
  have := (Nat.pow_lt_pow_iff_right (by decide : 1 < Config.radix)).1 hpow
  omega

/-- The engine's test of a candidate is that of the relation (R102, R104). -/
theorem millerRabin_of_candidateTested {L conf limit : Nat} {g g' : Rng} {v : Option Bool} (h2 : 2 ≤ L) (hL : L ≤ 768)
    (h : candidateTested L conf limit g v g') :
    millerRabin (candidateAt L g) conf limit (g.skip (portWords L)) = (orTimeout v, g') := by
  obtain ⟨h3, rfl, rfl⟩ | ⟨h3, hr⟩ := h
  · rw [h3]; exact millerRabin_three ..
  · have hodd := candidateAt_odd L g
    obtain ⟨hlo, hhi⟩ := candidateAt_bounds (L := L) (by omega) g
    have hlow : 2 ^ 1 ≤ 2 ^ (L - 1) := Nat.pow_le_pow_right (by decide) (by omega)
    have hlt : candidateAt L g < 2 ^ 768 := hhi.trans_le (Nat.pow_le_pow_right (by decide) hL)
    exact millerRabin_of_roundsRun (by omega) hodd
      (hlt.trans (Nat.pow_lt_pow_right (by decide) (by decide))) (len_enc_le_kMax (by omega) hlt) hr

/-! ## The search -/

/-- The engine's loop over candidates is the relation's search (R104). -/
theorem genPrimeLoop_of_primeSearched {L conf limit attempts : Nat} {g g' : Rng} {p : Option Nat} (h2 : 2 ≤ L)
    (hL : L ≤ 768) (h : primeSearched L conf limit attempts g p g') :
    genPrimeLoop L conf limit attempts g = (orTimeout p, g') := by
  induction attempts generalizing g with
  | zero => obtain ⟨rfl, rfl⟩ := h; rfl
  | succ attempts ih =>
    have htest {v : Option Bool} {g1 : Rng} (ht : candidateTested L conf limit g v g1) :
        millerRabin (sampleAt L g ||| 1 : Nat) conf limit (g.skip (portWords L)) = (orTimeout v, g1) :=
      millerRabin_of_candidateTested h2 hL ht
    simp only [genPrimeLoop, randomBits_eq_sampleAt]
    obtain ⟨ht, rfl⟩ | ⟨ht, rfl⟩ | ⟨g1, ht, hr⟩ := h
    · rw [htest ht]; rfl
    · rw [htest ht]; rfl
    · rw [htest ht]; exact ih hr

/-- What a search finds is a candidate. -/
theorem candidateAt_of_primeSearched {L conf limit attempts p : Nat} {g g' : Rng}
    (h : primeSearched L conf limit attempts g (some p) g') : ∃ g0, p = candidateAt L g0 := by
  induction attempts generalizing g with
  | zero => exact nomatch h.1
  | succ attempts ih =>
    obtain ⟨-, hp⟩ | ⟨-, hp⟩ | ⟨g1, -, hr⟩ := h
    · exact ⟨g, Option.some.inj hp⟩
    · cases hp
    · exact ih hr

/-! ## GENPRIME -/

/-- Settles O37: the loop of candidates is the relation's search. -/
theorem genprimeWritesAPrimeCandidate : Obligations.GenprimeWritesAPrimeCandidate := by
  intro rd s g h2 hL
  have hexec {p : Option Nat}
      (h : primeSearched s.bitlen.toNat s.confidence.toNat s.retryLimit.toNat s.retryLimit.toNat s.rng p g) :
      exec (.genprime rd) s = finishDraw s ((orTimeout p).map fun (v : Nat) => oneWrite rd v, g) := by
    rw [exec, execGenprime, genprimeValue, if_neg (by simp only [Config.kMax]; omega), genPrimeCore,
      genPrimeLoop_of_primeSearched h2 hL h]
  constructor
  · intro p h
    obtain ⟨t, ht, hc⟩ := finishDraw_ok s (oneWrite rd p) g (by simp [oneWrite])
    rw [oneWrite, completed_writes] at hc
    exact ⟨t, (hexec h).trans ht, hc⟩
  · intro h
    rw [hexec h]
    exact finishDraw_error s .timeout g

end Sys2Proof.Machine

/-! PROOF. The modular inverse of R98, and KEYGEN over the searches for p, q and e (R106, R107). -/

namespace Sys2Proof.Machine

/-! ## The modular inverse -/

/-- The coefficients of `a` alternate in sign, `σ * m0` and `-σ * m1`, and `m1 * r0 + m0 * r1` stays `b`: none exceeds
`b`. -/
theorem extEuclidLoop_coefficient_bound {b : Nat} (fuel r0 r1 m0 m1 : Nat) (σ : Int) (t0 t1 : Int)
    (hσ : σ = 1 ∨ σ = -1) (h0 : m0 ≤ b) (h1 : m1 ≤ b) (hb : m1 * r0 + m0 * r1 = b) :
    (extEuclidLoop fuel r0 r1 (σ * m0) (-σ * m1) t0 t1).2.1.natAbs ≤ b := by
  have habs : (σ * m0).natAbs ≤ b := by
    rcases hσ with rfl | rfl <;> simpa using h0
  induction fuel generalizing r0 r1 m0 m1 σ t0 t1 with
  | zero => exact habs
  | succ fuel ih =>
    unfold extEuclidLoop
    split
    · exact habs
    next hr =>
      have hnext : (m0 + r0 / r1 * m1) * r1 + m1 * (r0 % r1) = b := by
        calc (m0 + r0 / r1 * m1) * r1 + m1 * (r0 % r1)
            = m1 * (r1 * (r0 / r1) + r0 % r1) + m0 * r1 := by ring
          _ = b := by rw [Nat.div_add_mod, hb]
      have hle : m0 + r0 / r1 * m1 ≤ b :=
        (Nat.le_mul_of_pos_right _ (by omega)).trans (Nat.le.intro hnext)
      have hcoef : σ * (m0 : Int) - (r0 / r1 : Nat) * (-σ * m1) = - -σ * ((m0 + r0 / r1 * m1 : Nat) : Int) := by
        push_cast; ring
      have habs' : (-σ * (m1 : Int)).natAbs ≤ b := by
        rcases hσ with rfl | rfl <;> simpa using h1
      dsimp only
      rw [hcoef]
      exact ih _ _ _ _ _ _ _ (by omega) h1 hle hnext habs'

/-- The coefficient of `a` is at most `b` (R95). -/
theorem extEuclidCore_coefficient_bound (a : Nat) {b : Nat} (hb : 1 ≤ b) : (extEuclidCore a b).2.1.natAbs ≤ b :=
  extEuclidLoop_coefficient_bound (b + 1) a b 1 0 1 0 1 (.inl rfl) hb (Nat.zero_le b) (by omega)

/-- A number coprime to a modulus of 2 or more has its inverse below the modulus (R98). -/
theorem modInvCore_of_coprime {e n : Nat} (hn : 2 ≤ n) (hg : Nat.gcd e n = 1) :
    ∃ d : Nat, modInvCore e n = .ok (d : Int) ∧ d < n ∧ e * d % n = 1 := by
  have hcomb := extEuclidCore_combination e n
  have hbound := extEuclidCore_coefficient_bound e (b := n) (by omega)
  have hfst : (extEuclidCore e n).1 = 1 := by rw [extEuclidCore_fst, hg]
  rw [modInvCore, if_neg (not_not.2 hfst)]
  rw [hfst] at hcomb
  generalize (extEuclidCore e n).2.1 = x at *
  generalize (extEuclidCore e n).2.2 = y at *
  obtain ⟨d, hd⟩ : ∃ d : Nat, (if x < 0 then x + n else x) = d := Int.eq_ofNat_of_zero_le (by split <;> omega)
  obtain ⟨k, hk⟩ : ∃ k : Int, (d : Int) = x + n * k := by
    rw [← hd]
    split
    · exact ⟨1, by ring⟩
    · exact ⟨0, by ring⟩
  have hinv : e * d % n = 1 := by
    have hz : (e * d : Int) = 1 + n * (e * k - y) := by rw [hk]; push_cast at hcomb; linear_combination -hcomb
    have : ((e * d % n : Nat) : Int) = 1 := by
      push_cast
      rw [hz, Int.add_mul_emod_self_left]
      exact Int.emod_eq_of_lt (by omega) (by omega)
    exact_mod_cast this
  have hne : d ≠ n := fun h => by simp [h] at hinv
  refine ⟨d, congrArg Except.ok hd, ?_, hinv⟩
  split at hd <;> omega

/-! ## The public exponent -/

theorem coprime_of_exponentSearched {lam eb attempts e : Nat} {g g' : Rng}
    (h : exponentSearched lam eb attempts g (some e) g') : Nat.gcd e lam = 1 := by
  induction attempts generalizing g with
  | zero => exact nomatch h.1
  | succ attempts ih =>
    obtain ⟨hg, he, -⟩ | ⟨-, hr⟩ := h
    · rw [Option.some.inj he]; exact hg
    · exact ih hr

/-! ## KEYGEN -/

/-- A prime search over the whole of RETRY_LIMIT answers what the relation says. -/
theorem genPrimeCore_of_primeSearched {L conf limit : Nat} {g g' : Rng} {p : Option Nat} (h2 : 2 ≤ L) (hL : L ≤ 768)
    (h : primeSearched L conf limit limit g p g') : genPrimeCore L conf limit g = (orTimeout p, g') :=
  genPrimeLoop_of_primeSearched h2 hL h

theorem keyGenCore_of_no_p {L conf limit : Nat} {g g1 : Rng} (h3 : 3 ≤ L) (hL : L ≤ 384)
    (hp : primeSearched L conf limit limit g none g1) : keyGenCore L conf limit g = (.error .timeout, g1) := by
  rw [keyGenCore, genPrimeCore_of_primeSearched (by omega) (by omega) hp]; rfl

theorem keyGenCore_of_no_q {L conf limit p : Nat} {g g1 g2 : Rng} (h3 : 3 ≤ L) (hL : L ≤ 384)
    (hp : primeSearched L conf limit limit g (some p) g1) (hq : primeSearched (L - 1) conf limit limit g1 none g2) :
    keyGenCore L conf limit g = (.error .timeout, g2) := by
  rw [keyGenCore, genPrimeCore_of_primeSearched (by omega) (by omega) hp]
  simp only [orTimeout_some]
  rw [genPrimeCore_of_primeSearched (by omega) (by omega) hq]; rfl

/-- The candidates found for p and q have at least three and two bits: neither `p - 1` nor `q - 1` is 0. -/
theorem lower_bounds_of_primeSearched {L conf limit p q : Nat} {g g1 g2 : Rng} (h3 : 3 ≤ L)
    (hp : primeSearched L conf limit limit g (some p) g1)
    (hq : primeSearched (L - 1) conf limit limit g1 (some q) g2) : 4 ≤ p ∧ 2 ≤ q := by
  obtain ⟨gp, rfl⟩ := candidateAt_of_primeSearched hp
  obtain ⟨gq, rfl⟩ := candidateAt_of_primeSearched hq
  exact ⟨(Nat.pow_le_pow_right (n := 2) (i := 2) (by decide) (by omega)).trans (candidateAt_bounds (by omega) gp).1,
    (Nat.pow_le_pow_right (n := 2) (i := 1) (by decide) (by omega)).trans (candidateAt_bounds (by omega) gq).1⟩

theorem keyGenCore_of_primes {L conf limit p q : Nat} {g g1 g2 g3 : Rng} {e : Option Nat} (h3 : 3 ≤ L) (hL : L ≤ 384)
    (hp : primeSearched L conf limit limit g (some p) g1) (hq : primeSearched (L - 1) conf limit limit g1 (some q) g2)
    (he : exponentSearched ((p - 1) * (q - 1)) (p * q).log2 limit g2 e g3) :
    keyGenCore L conf limit g = ((exponentOutcome ((p - 1) * (q - 1)) g3 e).1.map fun ed => (p * q, ed.1, ed.2), g3) := by
  obtain ⟨hp4, hq2⟩ := lower_bounds_of_primeSearched h3 hp hq
  have hn : 2 ^ 1 ≤ p * q := Nat.mul_le_mul (show 1 ≤ p by omega) hq2
  have heb : bitLength (p * q) - 1 = (p * q).log2 := by rw [bitLength, if_neg (by omega), Nat.add_sub_cancel]
  have hloop := exponentLoop_of_searched (n := p * q) (Nat.log2_self_le (by omega))
    ((Nat.le_log2 (by omega)).2 hn) he
  rw [keyGenCore, genPrimeCore_of_primeSearched (by omega) (by omega) hp]
  simp only [orTimeout_some]
  rw [genPrimeCore_of_primeSearched (by omega) (by omega) hq]
  simp only [orTimeout_some, heb, hloop]
  cases e <;> rfl

theorem exec_keygen {rd rd2 rd3 : Reg} {s : State} (h12 : rd ≠ rd2) (h13 : rd ≠ rd3) (h23 : rd2 ≠ rd3)
    (h3 : 3 ≤ s.bitlen.toNat) (hL : s.bitlen.toNat ≤ 384) {r : Except ErrCode (Nat × Nat × Int)} {g : Rng}
    (h : keyGenCore s.bitlen.toNat s.confidence.toNat s.retryLimit.toNat s.rng = (r, g)) :
    exec (.keygen rd rd2 rd3) s =
      finishDraw s (r.map fun k => { writes := [(rd, enc k.1), (rd2, enc k.2.1), (rd3, enc k.2.2)] }, g) := by
  rw [exec, execKeygen, if_neg (by simp [h12, h13, h23]), keygenValue, if_neg (by omega), h]

/-- Settles O39: the three searches in their order, and the inverse of the exponent they find. -/
theorem keygenWritesTheKeyOfItsWords : Obligations.KeygenWritesTheKeyOfItsWords := by
  rintro rd rd2 rd3 s L conf limit h12 h13 h23 rfl rfl rfl h3 hL
  have htimeout {g : Rng}
      (h : keyGenCore s.bitlen.toNat s.confidence.toNat s.retryLimit.toNat s.rng = (.error .timeout, g)) :
      ∃ t, exec (.keygen rd rd2 rd3) s = .next t ∧ s.failedTo t 6 g := by
    rw [exec_keygen h12 h13 h23 h3 hL h]
    exact finishDraw_error s .timeout g
  refine ⟨fun g1 hp => htimeout (keyGenCore_of_no_p h3 hL hp), fun p g1 hp =>
    ⟨fun g2 hq => htimeout (keyGenCore_of_no_q h3 hL hp hq), fun q g2 g3 hq =>
      ⟨fun he => htimeout (keyGenCore_of_primes h3 hL hp hq he), fun e he => ?_⟩⟩⟩
  obtain ⟨hp4, hq2⟩ := lower_bounds_of_primeSearched h3 hp hq
  have hlam : 2 ≤ (p - 1) * (q - 1) := Nat.mul_le_mul (show 2 ≤ p - 1 by omega) (show 1 ≤ q - 1 by omega)
  obtain ⟨d, hd, hlt, hinv⟩ := modInvCore_of_coprime hlam (coprime_of_exponentSearched he)
  have hkey := keyGenCore_of_primes h3 hL hp hq he
  rw [exponentOutcome, hd] at hkey
  obtain ⟨t, ht, hc⟩ := finishDraw_ok s { writes := [(rd, enc (p * q : Nat)), (rd2, enc e), (rd3, enc d)] } g3
    (by simp [h12, h13, h23])
  rw [completed_writes] at hc
  exact ⟨d, t, (exec_keygen h12 h13 h23 h3 hL hkey).trans ht, hc, hlt, hinv⟩

end Sys2Proof.Machine

/-! PROOF. What a command reads (R21, R22, R29, R30, R55): on states that agree there it comes to the same results. -/

namespace Sys2Proof.Machine

/-! ## Registers alike -/

theorem BigReg.alike_refl (b : BigReg) : b.alike b := ⟨rfl, fun _ _ _ => rfl⟩

theorem BigReg.alike.isWritten_eq {a b : BigReg} (h : a.alike b) : b.isWritten = a.isWritten := by
  rw [BigReg.isWritten, BigReg.isWritten, h.1]

/-- A register wholly written has nothing unspecified left. -/
theorem BigReg.alike.val_eq {a b : BigReg} (h : a.alike b) (hw : a.isWritten = true) : b.val = a.val := by
  have hall : a.written = BitVec.allOnes 50 := by simpa [BigReg.isWritten] using hw
  exact eq_of_wordAt_eq fun j hj => (h.2 j hj (by rw [hall, BitVec.getLsbD_allOnes]; exact decide_eq_true hj)).symm

/-! ## What a command reads -/

/-- `t` holds what `s` holds of all that a command can read: registers alike, the same operand registers and the same
random port. -/
structure State.sameOperands (s t : State) : Prop where
  reg        : ∀ r, (s.reg r).alike (t.reg r)
  arg0       : t.arg0 = s.arg0
  arg1       : t.arg1 = s.arg1
  bitlen     : t.bitlen = s.bitlen
  confidence : t.confidence = s.confidence
  retryLimit : t.retryLimit = s.retryLimit
  rng        : t.rng = s.rng

/-! ## Completing alike -/

/-- Two states complete with the same results and the random port at the same place. -/
def completeAlike (s t : State) (o p : Host.Outcome State Fault Refusal) : Prop :=
  ∃ v : Except ErrCode Result × Rng, o = finishDraw s v ∧ p = finishDraw t v

/-- A completion leaves the random port where its command left it. -/
theorem finishDraw_next (s : State) (v : Except ErrCode Result × Rng) :
    ∃ t, finishDraw s v = .next t ∧ t.rng = v.2 := by
  obtain ⟨r, g⟩ := v
  cases r with
  | ok r => exact ⟨_, rfl, State.commit_rng _ _⟩
  | error e => exact ⟨_, rfl, rfl⟩

section
variable {s t : State} (h : s.sameOperands t)
include h

theorem State.sameOperands.readable_eq (rs : List Reg) : t.readable rs = s.readable rs := by
  simp only [State.readable, (h.reg _).isWritten_eq]

theorem State.sameOperands.sourcesWritten_eq (c : Word) : t.sourcesWritten c = s.sourcesWritten c := by
  unfold State.sourcesWritten
  split
  · exact h.readable_eq _
  · rfl

theorem State.sameOperands.val_eq {rs : List Reg} (hr : s.readable rs = true) : ∀ r ∈ rs, t.val r = s.val r :=
  fun r hm => (h.reg r).val_eq (List.all_eq_true.1 hr r hm)

theorem completeAlike_finish {v w : Except ErrCode Result} (hv : w = v) :
    completeAlike s t (finish s v) (finish t w) :=
  ⟨(v, s.rng), rfl, by rw [hv, ← h.rng]; rfl⟩

theorem completeAlike_raise (e : ErrCode) : completeAlike s t (.next (s.raise e)) (.next (t.raise e)) :=
  completeAlike_finish h (v := .error e) rfl

/-- A command that draws no word, made of what its sources hold. -/
theorem completeAlike_withSources {rs : List Reg} (hr : s.readable rs = true) (F : State → Except ErrCode Result)
    (hF : (∀ r ∈ rs, t.val r = s.val r) → F t = F s) :
    completeAlike s t (withSources rs s fun s => finish s (F s)) (withSources rs t fun s => finish s (F s)) := by
  rw [withSources_of_readable hr, withSources_of_readable (by rw [h.readable_eq, hr])]
  exact completeAlike_finish h (hF (h.val_eq hr))

/-- A well-formed command on written sources completes alike. -/
theorem exec_completeAlike (i : Instr) (hw : i.wellFormed = true) (hr : s.readable i.sources = true) :
    completeAlike s t (exec i s) (exec i t) := by
  cases i with
  | nop => exact completeAlike_finish h (v := .ok {}) rfl
  | ldi rd =>
    unfold exec execLdi
    exact completeAlike_finish h (by rw [h.arg0, h.arg1])
  | mov rd rs1 =>
    unfold exec execMov
    exact completeAlike_withSources h (by exact hr) _ fun hv => by simp [hv]
  | add rd rs1 rs2 =>
    unfold exec execAdd
    exact completeAlike_withSources h (by exact hr) _ fun hv => by simp [State.sval, hv]
  | sub rd rs1 rs2 =>
    unfold exec execSub
    exact completeAlike_withSources h (by exact hr) _ fun hv => by simp [State.sval, hv]
  | neg rd rs1 =>
    unfold exec execNeg
    exact completeAlike_withSources h (by exact hr) _ fun hv => by simp [State.sval, hv]
  | cmp rs1 rs2 =>
    unfold exec execCmp
    exact completeAlike_withSources h (by exact hr) _ fun hv => by simp [hv]
  | shl rd rs1 shamt =>
    unfold exec execShl
    exact completeAlike_withSources h (by exact hr) _ fun hv => by simp [State.sval, hv]
  | shr rd rs1 shamt =>
    unfold exec execShr
    exact completeAlike_withSources h (by exact hr) _ fun hv => by simp [State.sval, hv]
  | mul rd rs1 rs2 =>
    unfold exec execMul
    exact completeAlike_withSources h (by exact hr) _ fun hv => by simp [State.sval, hv]
  | div rd rs1 rs2 =>
    unfold exec execDiv
    exact completeAlike_withSources h (by exact hr) _ fun hv => by simp [State.sval, hv]
  | rem rd rs1 rs2 =>
    unfold exec execRem
    exact completeAlike_withSources h (by exact hr) _ fun hv => by simp [State.sval, hv]
  | divrem rd rs1 rs2 rd2 =>
    have hn : rd ≠ rd2 := by simpa [Instr.wellFormed, Instr.dests] using hw
    simp only [exec, execDivrem, if_neg hn]
    exact completeAlike_withSources h (by exact hr) _ fun hv => by simp [State.sval, hv]
  | mu rd rs1 =>
    unfold exec execMu
    exact completeAlike_withSources h (by exact hr) _ fun hv => by simp [hv]
  | bred rd rs1 rs2 rs3 =>
    unfold exec execBred
    exact completeAlike_withSources h (by exact hr) _ fun hv => by simp [hv]
  | modmul rd rs1 rs2 rs3 =>
    unfold exec execModmul
    exact completeAlike_withSources h (by exact hr) _ fun hv => by simp [hv]
  | modpow rd rs1 rs2 rs3 =>
    unfold exec execModpow
    exact completeAlike_withSources h (by exact hr) _ fun hv => by simp [hv]
  | gcd rd rs1 rs2 =>
    unfold exec execGcd
    exact completeAlike_withSources h (by exact hr) _ fun hv => by simp [State.sval, hv]
  | extgcd rd rs1 rs2 rd2 rd3 =>
    have hn : ¬ (rd = rd2 ∨ rd = rd3 ∨ rd2 = rd3) :=
      distinct_of_nodup (by simpa [Instr.wellFormed, Instr.dests] using hw)
    simp only [exec, execExtgcd, if_neg hn]
    exact completeAlike_withSources h (by exact hr) _ fun hv => by simp [State.sval, hv]
  | modinv rd rs1 rs2 =>
    unfold exec execModinv
    exact completeAlike_withSources h (by exact hr) _ fun hv => by simp [State.sval, hv]
  | randbits rd =>
    unfold exec execRandbits
    exact ⟨_, rfl, by rw [h.bitlen, h.rng]⟩
  | mrtest rd rs1 =>
    have hs : s.readable [rs1] = true := hr
    have ht : t.readable [rs1] = true := (h.readable_eq [rs1]).trans hs
    refine ⟨_, exec_mrtest hs, ?_⟩
    rw [exec_mrtest ht, State.sval, h.val_eq hs rs1 (List.mem_singleton.2 rfl), h.confidence, h.retryLimit, h.rng]
    rfl
  | genprime rd =>
    unfold exec execGenprime
    exact ⟨_, rfl, by rw [h.bitlen, h.confidence, h.retryLimit, h.rng]⟩
  | keygen rd rd2 rd3 =>
    have hn : ¬ (rd = rd2 ∨ rd = rd3 ∨ rd2 = rd3) :=
      distinct_of_nodup (by simpa [Instr.wellFormed, Instr.dests] using hw)
    simp only [exec, execKeygen, if_neg hn]
    exact ⟨_, rfl, by rw [h.bitlen, h.confidence, h.retryLimit, h.rng]⟩
  | sign rd rs1 rs2 rs3 =>
    unfold exec execSign
    exact completeAlike_withSources h (by exact hr) _ fun hv => by simp [hv]
  | verify rd rs1 rs2 rs3 rs4 =>
    unfold exec execVerify
    exact completeAlike_withSources h (by exact hr) _ fun hv => by simp [hv]

/-- Every command runs alike: to the same fault, or to a completion with the same results. -/
theorem exec_alike (i : Instr) :
    (exec i s = .fault .unwrittenSource ∧ exec i t = .fault .unwrittenSource) ∨
      completeAlike s t (exec i s) (exec i t) := by
  rcases exec_cases i s with ⟨hw, hs⟩ | ⟨hw, hr, hs⟩ | ⟨hw, hr, -⟩
  · rw [hs, exec_illFormed i t hw]
    exact .inr (completeAlike_raise h .illegal)
  · exact .inl ⟨hs, exec_unwritten i t hw ((h.readable_eq _).trans hr)⟩
  · exact .inr (exec_completeAlike h i hw hr)

/-- So does every command word. -/
theorem runWord_alike (c : Word) :
    (runWord c s = .fault .unwrittenSource ∧ runWord c t = .fault .unwrittenSource) ∨
      completeAlike s t (runWord c s) (runWord c t) := by
  cases hd : decode c with
  | error e =>
    rw [runWord_error hd, runWord_error hd]
    exact .inr (completeAlike_raise h .illegal)
  | ok i =>
    rw [runWord_ok hd, runWord_ok hd]
    exact exec_alike h i

/-- The number of random words a command consumes is a matter of its operands alone. -/
theorem wordsNeeded_eq (hl : t.latched = s.latched) : wordsNeeded t = wordsNeeded s := by
  unfold wordsNeeded
  rw [State.fetch, State.fetch, hl, h.rng]
  rcases runWord_alike h s.latched with ⟨hs, ht⟩ | ⟨v, hs, ht⟩
  · rw [hs, ht]
  · obtain ⟨u, hu, hur⟩ := finishDraw_next s v
    obtain ⟨w, hw, hwr⟩ := finishDraw_next t v
    rw [hs, ht, hu, hw]
    simp only [hur, hwr]

end

end Sys2Proof.Machine

/-! PROOF. What one step can do, said once (R24, R26, R36, R48, R49, R125, R126). -/

namespace Sys2Proof.Machine

/-! ## Completions -/

/-- A command that gives a next state has completed: with results for its destinations, which are distinct, or with an
error. -/
theorem exec_next {i : Instr} {s t : State} (h : exec i s = .next t) :
    ∃ g : Rng, (i.draws = false → g = s.rng) ∧
      ((∃ r : Result, r.fitsCommand i ∧ i.dests.Nodup ∧ t = (s.setRng g).commit r) ∨
        ∃ e, t = (s.setRng g).raise e) := by
  rcases exec_cases i s with ⟨-, hs⟩ | ⟨-, -, hs⟩ | ⟨hw, -, g, hg, ⟨r, hr, hs⟩ | ⟨e, hs⟩⟩
  · exact ⟨s.rng, fun _ => rfl, .inr ⟨.illegal, Host.Outcome.next.inj (h.symm.trans hs)⟩⟩
  · cases hs.symm.trans h
  · exact ⟨g, hg, .inl ⟨r, hr, of_decide_eq_true hw, Host.Outcome.next.inj (h.symm.trans hs)⟩⟩
  · exact ⟨g, hg, .inr ⟨e, Host.Outcome.next.inj (h.symm.trans hs)⟩⟩

theorem runWord_next {c : Word} {s t : State} (h : runWord c s = .next t) :
    ∃ g, (∃ r, t = (s.setRng g).commit r) ∨ ∃ e, t = (s.setRng g).raise e := by
  cases hd : decode c with
  | error e => exact ⟨s.rng, .inr ⟨.illegal, Host.Outcome.next.inj (h.symm.trans (runWord_error hd s))⟩⟩
  | ok i =>
    obtain ⟨g, -, ⟨r, -, -, ht⟩ | ⟨e, ht⟩⟩ := exec_next ((runWord_ok hd s).symm.trans h)
    · exact ⟨g, .inl ⟨r, ht⟩⟩
    · exact ⟨g, .inr ⟨e, ht⟩⟩

/-- A draw counts one word more, where the command in progress still needs one. -/
theorem engineDraw_busy {s t : State} (hb : s.status.busy = true) (h : runWord s.latched s = .next t) :
    engineDraw s = .next { s with drawn := if s.drawn < wordsNeeded s then s.drawn + 1 else s.drawn } := by
  rw [engineDraw, if_pos hb, State.fetch, h]
  show Host.Outcome.next _ = _
  split <;> rfl

/-- A draw of a command that faults is that fault. -/
theorem engineDraw_fault {s : State} {f : Fault} (hb : s.status.busy = true) (h : runWord s.latched s = .fault f) :
    engineDraw s = .fault f := by
  rw [engineDraw, if_pos hb, State.fetch, h]

/-! ## Host writes -/

/-- What a host write of `v` at the location `l` can make of the state `s`. -/
inductive Stored (s : State) (l : PortLoc) (v : Word) : State → Prop
  /-- A reserved or read-only location (R46). -/
  | ignored (hl : l = .id ∨ l = .reserved ∨ ∃ i, l = .len i) : Stored s l v s
  /-- The engine is busy (R48). -/
  | refused (hb : s.status.busy = true) : Stored s l v (s.setStatus s.status.refuse)
  /-- CTRL with SRST set (R126). -/
  | softReset (hl : l = .ctrl) (hv : v.getLsbD 1 = true) : Stored s l v s.softReset
  /-- CTRL with SRST clear (R28). -/
  | storedIe (hl : l = .ctrl) (hv : v.getLsbD 1 = false) : Stored s l v { s with ie := v.getLsbD 0 }
  /-- STATUS (R26). -/
  | cleared (hl : l = .status) : Stored s l v (s.setStatus (s.status.writeOneToClear v))
  /-- CMD of an idle engine (R24). -/
  | accepted (hl : l = .cmd) (hb : s.status.busy = false) (hc : s.sourcesWritten v = true) :
    Stored s l v (s.acceptCmd v)
  /-- An operand register or a word of a big register, of an idle engine (R29, R30, R45). -/
  | operand (hb : s.status.busy = false) (t : State)
      (ht : t = { s with
        x := t.x, arg0 := t.arg0, arg1 := t.arg1, bitlen := t.bitlen, confidence := t.confidence,
        retryLimit := t.retryLimit }) : Stored s l v t

/-- A write that a busy engine refuses: refused, or honoured while idle. -/
theorem unlessBusy_next {s t : State} {o : Host.Outcome State Fault Refusal} (h : s.unlessBusy o = .next t) :
    (s.status.busy = true ∧ t = s.setStatus s.status.refuse) ∨ (s.status.busy = false ∧ o = .next t) := by
  cases hb : s.status.busy with
  | true => exact .inl ⟨rfl, Host.Outcome.next.inj (h.symm.trans (unlessBusy_busy hb o))⟩
  | false => exact .inr ⟨rfl, (unlessBusy_idle hb o).symm.trans h⟩

theorem stored_of_operand {s t u : State} {l : PortLoc} {v : Word} (h : s.unlessBusy (.next u) = .next t)
    (hu : u = { s with
      x := u.x, arg0 := u.arg0, arg1 := u.arg1, bitlen := u.bitlen, confidence := u.confidence,
      retryLimit := u.retryLimit }) : Stored s l v t := by
  rcases unlessBusy_next h with ⟨hb, rfl⟩ | ⟨hb, he⟩
  · exact .refused hb
  · cases he
    exact .operand hb t hu

theorem store_next {s t : State} {l : PortLoc} {v : Word} (h : s.store l v = .next t) : Stored s l v t := by
  cases l with
  | id => cases h; exact .ignored (.inl rfl)
  | len i => cases h; exact .ignored (.inr (.inr ⟨i, rfl⟩))
  | reserved => cases h; exact .ignored (.inr (.inl rfl))
  | ctrl =>
    cases h
    cases hv : v.getLsbD 1 with
    | true =>
      rw [State.writeCtrl, if_pos hv]
      exact .softReset rfl hv
    | false =>
      rw [State.writeCtrl, if_neg (by rw [hv]; decide)]
      exact .storedIe rfl hv
  | status => cases h; exact .cleared rfl
  | cmd =>
    rcases unlessBusy_next h with ⟨hb, rfl⟩ | ⟨hb, he⟩
    · exact .refused hb
    · rcases startCmd_cases s v with ⟨hc, hs⟩ | ⟨-, hs⟩
      · cases hs.symm.trans he
        exact .accepted rfl hb hc
      · cases hs.symm.trans he
  | arg0 => exact stored_of_operand h rfl
  | arg1 => exact stored_of_operand h rfl
  | bitlen => exact stored_of_operand h rfl
  | confidence => exact stored_of_operand h rfl
  | retryLimit => exact stored_of_operand h rfl
  | word i j => exact stored_of_operand h rfl

/-- An access the port cannot express, one beyond the port, and one that leads to a location (R38, R39). -/
theorem checkAccess_cases (off bytes : Nat) :
    ((bytes ≠ 4 ∨ off % 4 ≠ 0) ∧ checkAccess off bytes = .error .inexpressibleAccess) ∨
    (bytes = 4 ∧ off % 4 = 0 ∧ Config.portSize ≤ off ∧ checkAccess off bytes = .error .outsidePort) ∨
    (bytes = 4 ∧ off % 4 = 0 ∧ off < Config.portSize ∧ checkAccess off bytes = .ok (portLoc off)) := by
  by_cases h : bytes ≠ 4 ∨ off % 4 ≠ 0
  · exact .inl ⟨h, if_pos h⟩
  · have hb : bytes = 4 := by omega
    have ho : off % 4 = 0 := by omega
    by_cases hl : Config.portSize ≤ off
    · exact .inr (.inl ⟨hb, ho, hl, (if_neg h).trans (if_pos hl)⟩)
    · exact .inr (.inr ⟨hb, ho, by omega, (if_neg h).trans (if_neg hl)⟩)

/-- A host write that has a step reaches a location of the port. -/
theorem hostWrite_next {off bytes : Nat} {v : Word} {s t : State} (h : hostWrite off bytes v s = .next t) :
    bytes = 4 ∧ Stored s (portLoc off) v t := by
  rw [hostWrite] at h
  rcases checkAccess_cases off bytes with ⟨-, hc⟩ | ⟨-, -, -, hc⟩ | ⟨hb, -, -, hc⟩
  · rw [hc] at h; cases h
  · rw [hc] at h; cases h
  · rw [hc] at h; exact ⟨hb, store_next h⟩

/-- Above RETRY_LIMIT stand no control registers (R23, R32, R45). -/
theorem portLoc_of_ge {off : Nat} (h : 0x024 ≤ off) :
    portLoc off = .reserved ∨ (∃ i, portLoc off = .len i) ∨ ∃ i j, portLoc off = .word i j := by
  unfold portLoc
  repeat rw [if_neg (show ¬ off = _ by omega)]
  by_cases h1 : off < 0x040
  · exact .inl (if_pos h1)
  rw [if_neg h1]
  by_cases h2 : off < 0x080
  · exact .inr (.inl ⟨_, if_pos h2⟩)
  rw [if_neg h2]
  by_cases h3 : off < 0x1000
  · exact .inl (if_pos h3)
  rw [if_neg h3]
  by_cases h4 : off % 0x100 / 4 < 50
  · exact .inr (.inr ⟨_, _, dif_pos h4⟩)
  · exact .inl (dif_neg h4)

/-- CTRL and CMD stand at one offset each (R23). -/
theorem offset_of_ctrl_and_cmd (off : Nat) :
    (portLoc off = .ctrl → off = 0x004) ∧ (portLoc off = .cmd → off = 0x00C) := by
  rcases Nat.lt_or_ge off 0x024 with hlt | hge
  · revert off
    decide
  · rcases portLoc_of_ge hge with he | ⟨i, he⟩ | ⟨i, j, he⟩ <;> simp [he]

/-! ## One step -/

/-- What one step can make of the state `s`. -/
inductive Stepped (s : State) : State → Prop
  /-- Nothing but the host's view has changed: a read, a poll, an event without effect. -/
  | observed (agenda : List Event) (rdata : Option Word) (drawPos : Nat) :
    Stepped s { s with agenda := agenda, rdata := rdata, drawPos := drawPos }
  /-- The engine has taken a random word. -/
  | drew (rest : List Event) (hb : s.status.busy = true) (hd : s.drawn < wordsNeeded { s with agenda := rest }) :
    Stepped s { s with agenda := rest, drawn := s.drawn + 1 }
  /-- The engine has completed its command. -/
  | completed (rest : List Event) (t : State) (hb : s.status.busy = true)
    (ha : s.agenda = [] ∨ s.agenda = .engineComplete :: rest)
    (ht : runWord s.latched { s with agenda := rest } = .next t) : Stepped s t
  /-- Hardware reset. -/
  | reset (rest : List Event) (ha : s.agenda = .hardReset :: rest) : Stepped s { s with agenda := rest }.hardReset
  /-- A host write. -/
  | wrote (off : Nat) (v : Word) (rest : List Event) (t : State) (ha : s.agenda = .hostWrite off 4 v :: rest)
    (ht : Stored { s with agenda := rest } (portLoc off) v t) : Stepped s t

theorem hostRead_next {off bytes : Nat} {s t : State} (h : hostRead off bytes s = .next t) :
    t = { s with rdata := t.rdata, drawPos := t.drawPos } := by
  unfold hostRead at h
  split at h
  · cases h
  · cases h; exact answer_eq s _

theorem hostWait_next {s t : State} (h : hostWait s = .next t) :
    t = { s with rdata := t.rdata, agenda := t.agenda } := by
  cases hb : s.status.busy with
  | true => cases (hostWait_busy hb).symm.trans h; rfl
  | false => cases (hostWait_idle hb).symm.trans h; rfl

theorem engineComplete_next {s t : State} (h : engineComplete s = .next t) :
    (s.status.busy = true ∧ runWord s.latched s = .next t) ∨ t = s := by
  cases hb : s.status.busy with
  | true => exact .inl ⟨rfl, (engineComplete_busy hb).symm.trans h⟩
  | false => cases (engineComplete_idle hb).symm.trans h; exact .inr rfl

/-- Every step is one of these. -/
theorem step_next {s t : State} (h : step s = .next t) : Stepped s t := by
  cases ha : s.agenda with
  | nil =>
    have hs : { s with agenda := [] } = s := by rw [← ha]
    rcases engineComplete_next ((step_empty ha).symm.trans h) with ⟨hb, ht⟩ | rfl
    · exact .completed [] t hb (.inl ha) (by rw [hs]; exact ht)
    · exact .observed _ _ _
  | cons e rest =>
    have h := (step_event ha).symm.trans h
    cases e with
    | hostRead off bytes => rw [hostRead_next h]; exact .observed ..
    | hostWrite off bytes v =>
      obtain ⟨rfl, ht⟩ := hostWrite_next h
      exact .wrote off v rest t ha ht
    | hostWait => rw [hostWait_next h]; exact .observed ..
    | engineDraw =>
      rcases engineDraw_next h with rfl | ⟨hb, hd, rfl⟩
      · exact .observed ..
      · exact .drew rest hb hd
    | engineComplete =>
      rcases engineComplete_next h with ⟨hb, ht⟩ | rfl
      · exact .completed rest t hb (.inr ha) ht
      · exact .observed ..
    | hardReset =>
      cases h
      exact .reset rest ha

end Sys2Proof.Machine

/-! PROOF. What every step keeps: sound states, busy periods, the count of drawn words (R22, R24, R25, R34, R36,
R37). -/

namespace Sys2Proof.Machine

/-! ## Sound STATUS values -/

/-- The rules on STATUS, one by one. -/
theorem Status.sound_iff (t : Status) : t.sound = true ↔
    t.err = decide (t.errcode ≠ 0) ∧ t.errcode.toNat ≤ 6 ∧ t.cmp ≠ 0b11 ∧
      (t.busy = true → t.done = false ∧ t.err = false) := by
  cases hb : t.busy <;> simp [Status.sound, hb, and_assoc]

theorem cmpBits_ne_three (o : Ordering) : cmpBits o ≠ 0b11 := by cases o <;> decide

theorem errCodeBits_le_six (e : ErrCode) : (errCodeBits e).toNat ≤ 6 := by cases e <;> decide

section
variable {t : Status} (h : t.sound = true)
include h

theorem Status.sound_accept : t.accept.sound = true := by
  obtain ⟨-, -, hc, -⟩ := t.sound_iff.1 h
  exact (Status.sound_iff _).2 ⟨rfl, Nat.zero_le 6, hc, fun _ => ⟨rfl, rfl⟩⟩

theorem Status.sound_completed (r : Result) : (t.completed r).sound = true := by
  obtain ⟨-, -, hc, -⟩ := t.sound_iff.1 h
  refine (Status.sound_iff _).2 ⟨rfl, Nat.zero_le 6, ?_, fun hb => by cases hb⟩
  show (r.cmp.map cmpBits).getD t.cmp ≠ 0b11
  cases r.cmp with
  | none => exact hc
  | some o => exact cmpBits_ne_three o

theorem Status.sound_failed (e : ErrCode) : (t.failed e).sound = true := by
  obtain ⟨-, -, hc, -⟩ := t.sound_iff.1 h
  exact (Status.sound_iff _).2
    ⟨(decide_eq_true (errCodeBits_ne_zero e)).symm, errCodeBits_le_six e, hc, fun hb => by cases hb⟩

theorem Status.sound_writeOneToClear (v : Word) : (t.writeOneToClear v).sound = true := by
  obtain ⟨he, h6, hc, hb⟩ := t.sound_iff.1 h
  refine (Status.sound_iff _).2 ⟨he, h6, hc, fun h1 => ⟨?_, (hb h1).2⟩⟩
  simp [Status.writeOneToClear, (hb h1).1]

end

theorem Status.sound_reset : Status.reset.sound = true := rfl

/-! ## Sound states -/

/-- The rules on a state, one by one. -/
theorem State.sound_iff (s : State) : s.sound = true ↔
    s.status.sound = true ∧ (s.status.busy = true → s.latched = s.cmd ∧ s.sourcesWritten s.latched = true) ∧
      (s.status.busy = false → s.drawn = 0) := by
  cases hb : s.status.busy <;> simp [State.sound, hb]

/-- An idle state is sound where its STATUS is and no drawn word is counted. -/
theorem State.sound_of_idle {s : State} (hs : s.status.sound = true) (hb : s.status.busy = false) (hd : s.drawn = 0) :
    s.sound = true :=
  s.sound_iff.2 ⟨hs, fun h => (nomatch hb.symm.trans h), fun _ => hd⟩

theorem runWord_sound {c : Word} {s t : State} (hs : s.status.sound = true) (h : runWord c s = .next t) :
    t.sound = true := by
  obtain ⟨g, ⟨r, rfl⟩ | ⟨e, rfl⟩⟩ := runWord_next h
  · exact State.sound_of_idle (Status.sound_completed hs r) rfl rfl
  · exact State.sound_of_idle (Status.sound_failed hs e) rfl rfl

theorem stored_sound {s t : State} {l : PortLoc} {v : Word} (hs : s.sound = true) (h : Stored s l v t) :
    t.sound = true := by
  obtain ⟨hst, hbusy, hidle⟩ := s.sound_iff.1 hs
  cases h with
  | ignored => exact hs
  | refused hb => exact (State.sound_iff _).2 ⟨hst, hbusy, hidle⟩
  | softReset => exact State.sound_of_idle Status.sound_reset rfl rfl
  | storedIe => exact (State.sound_iff _).2 ⟨hst, hbusy, hidle⟩
  | cleared => exact (State.sound_iff _).2 ⟨Status.sound_writeOneToClear hst v, hbusy, hidle⟩
  | accepted hl hb hc => exact (State.sound_iff _).2 ⟨Status.sound_accept hst, fun _ => ⟨rfl, hc⟩, fun _ => rfl⟩
  | operand hb _ ht =>
    rw [ht]
    exact State.sound_of_idle hst hb (hidle hb)

/-- Settles O55: each kind of step keeps the rules on STATUS, and leaves the engine idle or its command as accepted. -/
theorem stepKeepsTheStateSound : Obligations.StepKeepsTheStateSound := by
  intro s t hs h
  obtain ⟨hst, hbusy, hidle⟩ := s.sound_iff.1 hs
  cases step_next h with
  | observed => exact (State.sound_iff _).2 ⟨hst, hbusy, hidle⟩
  | drew rest hb =>
    exact (State.sound_iff _).2 ⟨hst, hbusy, fun hi => by cases hb.symm.trans hi⟩
  | completed rest _ hb ha ht => exact runWord_sound (s := { s with agenda := rest }) hst ht
  | reset => exact State.sound_of_idle Status.sound_reset rfl rfl
  | wrote off v rest _ ha ht => exact stored_sound (s := { s with agenda := rest }) hs ht

/-- Settles O56: the block is idle and STATUS is 0. -/
theorem resetStateIsSound : Obligations.ResetStateIsSound := State.sound_of_idle Status.sound_reset rfl rfl

/-! ## Busy periods -/

theorem runWord_idle {c : Word} {s t : State} (h : runWord c s = .next t) :
    t.status.busy = false ∧ t.status.done = true ∧ t.drawn = 0 := by
  obtain ⟨g, ⟨r, rfl⟩ | ⟨e, rfl⟩⟩ := runWord_next h
  · exact ⟨rfl, rfl, rfl⟩
  · exact ⟨rfl, rfl, rfl⟩

theorem runWord_of_sourcesWritten {c : Word} {s : State} (h : s.sourcesWritten c = true) :
    ∃ t, runWord c s = .next t := by
  rcases runWord_completes h with ⟨_, -, hr⟩ | ⟨_, -, _, -, ⟨_, -, hr⟩ | ⟨_, hr⟩⟩ <;> exact ⟨_, hr⟩

/-- `t` holds what a busy engine holds in `s`: the command, everything it reads, the random port, and no fewer words. -/
structure State.holdsStill (s t : State) : Prop where
  x          : t.x = s.x
  cmd        : t.cmd = s.cmd
  latched    : t.latched = s.latched
  rng        : t.rng = s.rng
  drawn      : s.drawn ≤ t.drawn
  arg0       : t.arg0 = s.arg0
  arg1       : t.arg1 = s.arg1
  bitlen     : t.bitlen = s.bitlen
  confidence : t.confidence = s.confidence
  retryLimit : t.retryLimit = s.retryLimit

/-- The host's view, STATUS and the events to come are no part of it. -/
theorem State.holdsStill_with (s : State) (ie : Bool) (status : Status) (agenda : List Event) (rdata : Option Word)
    (drawPos : Nat) :
    s.holdsStill { s with ie := ie, status := status, agenda := agenda, rdata := rdata, drawPos := drawPos } :=
  ⟨rfl, rfl, rfl, rfl, le_rfl, rfl, rfl, rfl, rfl, rfl⟩

theorem stored_holdsStill {s t : State} {l : PortLoc} {v : Word} (hb : s.status.busy = true) (h : Stored s l v t) :
    (s.holdsStill t ∧ t.status.busy = true) ∨ (t = s.softReset ∧ l = .ctrl ∧ v.getLsbD 1 = true) := by
  cases h with
  | ignored => exact .inl ⟨s.holdsStill_with .., hb⟩
  | refused => exact .inl ⟨s.holdsStill_with .., hb⟩
  | softReset hl hv => exact .inr ⟨rfl, hl, hv⟩
  | storedIe => exact .inl ⟨s.holdsStill_with .., hb⟩
  | cleared => exact .inl ⟨s.holdsStill_with .., hb⟩
  | accepted hl hi => cases hb.symm.trans hi
  | operand hi => cases hb.symm.trans hi

/-- A step of a busy engine holds still, or ends the busy period: by a completion, a hardware reset or a soft reset. -/
theorem stepped_busy {s t : State} (hb : s.status.busy = true) (h : Stepped s t) :
    (s.holdsStill t ∧ t.status.busy = true) ∨
    (t.status.busy = false ∧ (s.agenda = [] ∨ ∃ (e : Event) (rest : List Event), s.agenda = e :: rest ∧
      (e = .engineComplete ∨ e = .hardReset ∨ ∃ v : Word, e = .hostWrite 0x004 4 v ∧ v.getLsbD 1 = true))) := by
  cases h with
  | observed => exact .inl ⟨s.holdsStill_with .., hb⟩
  | drew => exact .inl ⟨⟨rfl, rfl, rfl, rfl, Nat.le_succ _, rfl, rfl, rfl, rfl, rfl⟩, hb⟩
  | completed rest _ _ ha ht =>
    exact .inr ⟨(runWord_idle ht).1, ha.imp_right fun ha => ⟨_, rest, ha, .inl rfl⟩⟩
  | reset rest ha => exact .inr ⟨rfl, .inr ⟨_, rest, ha, .inr (.inl rfl)⟩⟩
  | wrote off v rest _ ha ht =>
    rcases stored_holdsStill (s := { s with agenda := rest }) hb ht with ⟨hk, ht⟩ | ⟨rfl, hl, hv⟩
    · exact .inl ⟨{ hk with }, ht⟩
    · rw [(offset_of_ctrl_and_cmd off).1 hl] at ha
      exact .inr ⟨rfl, .inr ⟨_, rest, ha, .inr (.inr ⟨v, rfl, hv⟩)⟩⟩

/-- With a completion lined up, or nothing at all, a busy engine runs its command. -/
theorem step_runs {s : State} (hb : s.status.busy = true)
    (ha : s.agenda = [] ∨ ∃ rest, s.agenda = .engineComplete :: rest) :
    ∃ rest, step s = runWord s.latched { s with agenda := rest } := by
  rcases ha with ha | ⟨rest, ha⟩
  · have hs : { s with agenda := [] } = s := by rw [← ha]
    exact ⟨[], by rw [step_empty ha, hs]; exact engineComplete_busy hb⟩
  · exact ⟨rest, (step_event ha).trans (engineComplete_busy (s := { s with agenda := rest }) hb)⟩

/-- Settles O57: the step's cases, and in a sound state the command in progress can complete. -/
theorem busyPeriodEndsOnlyByCompletionOrReset : Obligations.BusyPeriodEndsOnlyByCompletionOrReset := by
  intro s hb
  refine ⟨fun t h => ?_, fun hs ha => ?_⟩
  · rcases stepped_busy hb (step_next h) with ⟨hk, ht⟩ | ⟨ht, he⟩
    · exact ⟨fun _ => ⟨hk.x, hk.cmd, hk.latched, hk.rng, hk.drawn, hk.arg0, hk.arg1, hk.bitlen, hk.confidence,
        hk.retryLimit⟩, fun hi => nomatch ht.symm.trans hi⟩
    · exact ⟨fun hi => (nomatch ht.symm.trans hi), fun _ => he⟩
  · obtain ⟨-, hbusy, -⟩ := s.sound_iff.1 hs
    obtain ⟨rest, hrun⟩ := step_runs hb ha
    obtain ⟨t, ht⟩ := runWord_of_sourcesWritten (s := { s with agenda := rest }) (hbusy hb).2
    exact ⟨t, hrun.trans ht, (runWord_idle ht).1, (runWord_idle ht).2.1⟩

/-! ## The words drawn -/

/-- The count of drawn words is within what the command in progress consumes, and 0 without one (R34). -/
def State.countSound (s : State) : Prop :=
  (s.status.busy = true → s.drawn ≤ wordsNeeded s) ∧ (s.status.busy = false → s.drawn = 0)

theorem State.countSound_of_none {s : State} (h : s.drawn = 0) : s.countSound :=
  ⟨fun _ => h ▸ Nat.zero_le _, fun _ => h⟩

/-- What a command needs does not depend on STATUS, on what the host sees or on the words already drawn. -/
theorem wordsNeeded_with (s : State) (ie : Bool) (status : Status) (cmd : Word) (drawn : Nat) (agenda : List Event)
    (rdata : Option Word) (drawPos : Nat) :
    wordsNeeded { s with
      ie := ie, status := status, cmd := cmd, drawn := drawn, agenda := agenda, rdata := rdata, drawPos := drawPos } =
      wordsNeeded s :=
  wordsNeeded_eq ⟨fun r => (s.reg r).alike_refl, rfl, rfl, rfl, rfl, rfl, rfl⟩ rfl

/-- So the count stays sound where BUSY and the count itself stay. -/
theorem State.countSound.withView {s : State} (h : s.countSound) (ie : Bool) (status : Status)
    (hb : status.busy = s.status.busy) (agenda : List Event) (rdata : Option Word) (drawPos : Nat) :
    { s with ie := ie, status := status, agenda := agenda, rdata := rdata, drawPos := drawPos }.countSound :=
  ⟨fun h1 => (h.1 (hb.symm.trans h1)).trans_eq (wordsNeeded_with s ie status s.cmd s.drawn agenda rdata drawPos).symm,
    fun h0 => h.2 (hb.symm.trans h0)⟩

theorem stored_countSound {s t : State} {l : PortLoc} {v : Word} (hs : s.countSound) (h : Stored s l v t) :
    t.countSound := by
  cases h with
  | ignored => exact hs
  | refused => exact hs.withView s.ie s.status.refuse rfl s.agenda s.rdata s.drawPos
  | softReset => exact State.countSound_of_none rfl
  | storedIe => exact hs.withView _ _ rfl _ _ _
  | cleared => exact hs.withView s.ie (s.status.writeOneToClear v) rfl s.agenda s.rdata s.drawPos
  | accepted => exact State.countSound_of_none rfl
  | operand hb _ ht =>
    rw [ht]
    exact State.countSound_of_none (hs.2 hb)

/-- Settles O58: a draw stops at the words the command needs, and until the command ends that number stands still. -/
theorem engineDrawsOnlyWordsItNeeds : Obligations.EngineDrawsOnlyWordsItNeeds := by
  intro s t hbusy hidle h
  have hs : s.countSound := ⟨hbusy, hidle⟩
  show t.countSound
  cases step_next h with
  | observed => exact hs.withView _ _ rfl _ _ _
  | drew rest hb hd =>
    refine ⟨fun _ => ?_, fun h0 => nomatch hb.symm.trans h0⟩
    rw [wordsNeeded_with] at hd ⊢
    exact hd
  | completed rest _ _ _ ht => exact State.countSound_of_none (runWord_idle ht).2.2
  | reset => exact State.countSound_of_none rfl
  | wrote off v rest _ _ ht => exact stored_countSound (hs.withView _ _ rfl rest _ _) ht

end Sys2Proof.Machine

/-! PROOF. Nothing that the block does shows what an unwritten word holds (R22, 93 I1-I3). -/

namespace Sys2Proof.Machine

/-! ## Updates of states alike -/

section
variable {s t : State} (h : s.alike t)
include h

theorem State.alike.status_eq : t.status = s.status := by rw [h.2]
theorem State.alike.latched_eq : t.latched = s.latched := by rw [h.2]
theorem State.alike.agenda_eq : t.agenda = s.agenda := by rw [h.2]
theorem State.alike.drawn_eq : t.drawn = s.drawn := by rw [h.2]

theorem State.alike.sameOperands : s.sameOperands t where
  reg := h.1
  arg0 := by rw [h.2]
  arg1 := by rw [h.2]
  bitlen := by rw [h.2]
  confidence := by rw [h.2]
  retryLimit := by rw [h.2]
  rng := by rw [h.2]

end

/-- A function that keeps the registers, and does not look at them, keeps states alike. -/
theorem State.alike.map {s t : State} (h : s.alike t) (f : State → State) (hx : ∀ u, (f u).x = u.x := by intros; rfl)
    (hf : ∀ u y, f { u with x := y } = { f u with x := y } := by intros; rfl) : (f s).alike (f t) := by
  obtain ⟨hreg, ht⟩ := h
  refine ⟨fun r => ?_, ?_⟩
  · rw [State.reg_def, State.reg_def, hx, hx]
    exact hreg r
  · rw [hx]
    exact (congrArg f ht).trans (hf s t.x)

/-- An update of one register keeps states alike where it keeps the register alike. -/
theorem State.alike.setX {s t : State} (h : s.alike t) (r : Reg) {a b : BigReg} (hab : a.alike b) :
    State.alike { s with x := s.x.set r.val a } { t with x := t.x.set r.val b } := by
  obtain ⟨hreg, ht⟩ := h
  refine ⟨fun q => ?_, by rw [ht]⟩
  by_cases hq : q = r
  · subst hq
    simpa [State.reg] using hab
  · have hv : r.val ≠ q.val := fun e => hq (Fin.ext e.symm)
    simpa [State.reg, hv] using hreg q

theorem State.alike.setReg {s t : State} (h : s.alike t) (r : Reg) (v : Big) : (s.setReg r v).alike (t.setReg r v) :=
  h.setX r (BigReg.alike_refl _)

theorem State.alike.setRegs {s t : State} (h : s.alike t) (ws : List (Reg × Big)) :
    (s.setRegs ws).alike (t.setRegs ws) := by
  induction ws generalizing s t with
  | nil => exact h
  | cons p ws ih => exact ih (h.setReg p.1 p.2)

/-- A word written is the same word in both, and the other 49 stay as they were. -/
theorem BigReg.alike.setWord {a b : BigReg} (h : a.alike b) (j : Nat) (v : Word) :
    BigReg.alike ⟨setWordAt a.val j v, a.written ||| BitVec.twoPow 50 j⟩
      ⟨setWordAt b.val j v, b.written ||| BitVec.twoPow 50 j⟩ := by
  refine ⟨congrArg (· ||| BitVec.twoPow 50 j) h.1, fun k hk hw => ?_⟩
  by_cases hkj : k = j
  · subst hkj
    exact (wordAt_setWordAt_same _ k v hk).trans (wordAt_setWordAt_same _ k v hk).symm
  · have hwk : a.written.getLsbD k = true := by
      simpa [BitVec.getLsbD_or, BitVec.getLsbD_twoPow, hk, hkj, Ne.symm hkj] using hw
    exact (wordAt_setWordAt_other _ j k v hk hkj).trans
      ((h.2 k hk hwk).trans (wordAt_setWordAt_other _ j k v hk hkj).symm)

theorem State.alike.setRegWord {s t : State} (h : s.alike t) (r : Reg) (j : Nat) (v : Word) :
    (s.setRegWord r j v).alike (t.setRegWord r j v) := h.setX r ((h.1 r).setWord j v)

theorem State.alike.commit {s t : State} (h : s.alike t) (r : Result) : (s.commit r).alike (t.commit r) := by
  refine ⟨fun q => ?_, ?_⟩
  · rw [State.commit_reg, State.commit_reg]
    exact (h.setRegs r.writes).1 q
  · rw [State.commit_eq s, State.commit_eq t, h.2]

/-! ## Runs of the engine -/

theorem alikeOutcome_finishDraw {s t : State} (h : s.alike t) (v : Except ErrCode Result × Rng) :
    alikeOutcome (finishDraw s v) (finishDraw t v) := by
  obtain ⟨r, g⟩ := v
  have hg : (s.setRng g).alike (t.setRng g) := h.map (·.setRng g)
  cases r with
  | error e => exact hg.map (·.raise e)
  | ok r => exact hg.commit r

theorem alikeOutcome_runWord {s t : State} (h : s.alike t) (c : Word) : alikeOutcome (runWord c s) (runWord c t) := by
  rcases runWord_alike h.sameOperands c with ⟨hs, ht⟩ | ⟨v, hs, ht⟩
  · rw [hs, ht]
    exact rfl
  · rw [hs, ht]
    exact alikeOutcome_finishDraw h v

theorem alikeOutcome_engineComplete {s t : State} (h : s.alike t) :
    alikeOutcome (engineComplete s) (engineComplete t) := by
  cases hb : s.status.busy with
  | true =>
    have hbt : t.status.busy = true := by rw [h.status_eq, hb]
    rw [engineComplete_busy hb, engineComplete_busy hbt, State.fetch, State.fetch, h.latched_eq]
    exact alikeOutcome_runWord h _
  | false =>
    rw [engineComplete_idle hb, engineComplete_idle (by rw [h.status_eq, hb])]
    exact h

theorem alikeOutcome_engineDraw {s t : State} (h : s.alike t) : alikeOutcome (engineDraw s) (engineDraw t) := by
  cases hb : s.status.busy with
  | false =>
    rw [engineDraw_idle hb, engineDraw_idle (by rw [h.status_eq, hb])]
    exact h
  | true =>
    have hbt : t.status.busy = true := by rw [h.status_eq, hb]
    have hrun := runWord_alike h.sameOperands s.latched
    rw [← h.latched_eq] at hrun
    rcases hrun with ⟨hs, ht⟩ | ⟨v, hs, ht⟩
    · rw [engineDraw_fault hb (h.latched_eq ▸ hs), engineDraw_fault hbt ht]
      exact rfl
    · obtain ⟨u, hu, -⟩ := finishDraw_next s v
      obtain ⟨w, hw, -⟩ := finishDraw_next t v
      rw [engineDraw_busy hb (h.latched_eq ▸ hs.trans hu), engineDraw_busy hbt (ht.trans hw), h.drawn_eq,
        wordsNeeded_eq h.sameOperands h.latched_eq]
      exact h.map fun u => { u with drawn := if s.drawn < wordsNeeded s then s.drawn + 1 else s.drawn }

/-! ## Host accesses -/

/-- What stands at a location and may be seen is the same in both. -/
theorem State.alike.readLoc_eq {s t : State} (h : s.alike t) (l : PortLoc) : t.readLoc l = s.readLoc l := by
  cases l with
  | len i =>
    exact ite_congr (by rw [(h.1 i).isWritten_eq]) (fun hw => by rw [State.val, (h.1 i).val_eq hw, State.val])
      fun _ => rfl
  | word i j =>
    exact ite_congr (by rw [BigReg.wordWritten, BigReg.wordWritten, (h.1 i).1])
      (fun hw => congrArg some ((h.1 i).2 j j.isLt hw).symm) fun _ => rfl
  | _ =>
    rw [h.2]
    rfl

theorem State.alike.answer {s t : State} (h : s.alike t) (l : PortLoc) : (s.answer l).alike (t.answer l) := by
  unfold State.answer
  rw [h.readLoc_eq l]
  cases s.readLoc l with
  | some w => exact h.map fun u => { u with rdata := some w }
  | none =>
    exact h.map fun u => { u with rdata := some (Config.readDraw u.drawPos), drawPos := u.drawPos + 1 }

theorem alikeOutcome_hostRead {s t : State} (h : s.alike t) (off bytes : Nat) :
    alikeOutcome (hostRead off bytes s) (hostRead off bytes t) := by
  unfold hostRead
  cases checkAccess off bytes with
  | error f => exact rfl
  | ok l => exact h.answer l

theorem alikeOutcome_unlessBusy {s t : State} (h : s.alike t) {o p : Host.Outcome State Fault Refusal}
    (ho : alikeOutcome o p) : alikeOutcome (s.unlessBusy o) (t.unlessBusy p) := by
  unfold State.unlessBusy
  rw [h.status_eq]
  split
  · exact h.map (·.setStatus s.status.refuse)
  · exact ho

theorem alikeOutcome_startCmd {s t : State} (h : s.alike t) (c : Word) :
    alikeOutcome (s.startCmd c) (t.startCmd c) := by
  unfold State.startCmd
  rw [h.sameOperands.sourcesWritten_eq]
  split
  · exact h.map (·.acceptCmd c)
  · exact rfl

theorem State.alike.writeCtrl {s t : State} (h : s.alike t) (v : Word) : (s.writeCtrl v).alike (t.writeCtrl v) := by
  unfold State.writeCtrl
  split
  · exact h.map (·.softReset)
  · exact h.map fun u => { u with ie := v.getLsbD 0 }

theorem alikeOutcome_store {s t : State} (h : s.alike t) (l : PortLoc) (v : Word) :
    alikeOutcome (s.store l v) (t.store l v) := by
  cases l with
  | id => exact h
  | len i => exact h
  | reserved => exact h
  | ctrl => exact h.writeCtrl v
  | status => exact h.map (fun u => u.setStatus (u.status.writeOneToClear v))
  | cmd => exact alikeOutcome_unlessBusy h (alikeOutcome_startCmd h v)
  | arg0 => exact alikeOutcome_unlessBusy h (h.map fun u => { u with arg0 := v })
  | arg1 => exact alikeOutcome_unlessBusy h (h.map fun u => { u with arg1 := v })
  | bitlen =>
    exact alikeOutcome_unlessBusy h (h.map fun u => { u with bitlen := v.setWidth 16 })
  | confidence =>
    exact alikeOutcome_unlessBusy h (h.map fun u => { u with confidence := v.setWidth 16 })
  | retryLimit =>
    exact alikeOutcome_unlessBusy h (h.map fun u => { u with retryLimit := v })
  | word i j => exact alikeOutcome_unlessBusy h (h.setRegWord i j v)

theorem alikeOutcome_hostWrite {s t : State} (h : s.alike t) (off bytes : Nat) (v : Word) :
    alikeOutcome (hostWrite off bytes v s) (hostWrite off bytes v t) := by
  unfold hostWrite
  cases checkAccess off bytes with
  | error f => exact rfl
  | ok l => exact alikeOutcome_store h l v

theorem alikeOutcome_hostWait {s t : State} (h : s.alike t) : alikeOutcome (hostWait s) (hostWait t) := by
  cases hb : s.status.busy with
  | true =>
    rw [hostWait_busy hb, hostWait_busy (by rw [h.status_eq, hb])]
    exact h.map fun u => { u with rdata := some u.status.toWord, agenda := pollAgain u.agenda }
  | false =>
    rw [hostWait_idle hb, hostWait_idle (by rw [h.status_eq, hb])]
    exact h.map fun u => { u with rdata := some u.status.toWord }

/-! ## One step -/

/-- Hardware reset clears every written bit: nothing of the registers is left to compare. -/
theorem State.alike.hardReset {s t : State} (h : s.alike t) : s.hardReset.alike t.hardReset := by
  have he : t.hardReset = s.hardReset := by rw [h.2]; rfl
  rw [he]
  exact ⟨fun r => BigReg.alike_refl _, rfl⟩

theorem alikeOutcome_handle {s t : State} (h : s.alike t) (e : Event) : alikeOutcome (handle e s) (handle e t) := by
  cases e with
  | hostRead off bytes => exact alikeOutcome_hostRead h off bytes
  | hostWrite off bytes v => exact alikeOutcome_hostWrite h off bytes v
  | hostWait => exact alikeOutcome_hostWait h
  | engineDraw => exact alikeOutcome_engineDraw h
  | engineComplete => exact alikeOutcome_engineComplete h
  | hardReset => exact h.hardReset

/-- Settles O59: every event keeps states alike, for a command reads only registers wholly written. -/
theorem unwrittenWordsCannotBeSeen : Obligations.UnwrittenWordsCannotBeSeen := by
  intro s t h
  cases ha : s.agenda with
  | nil =>
    rw [step_empty ha, step_empty (by rw [h.agenda_eq, ha])]
    exact alikeOutcome_engineComplete h
  | cons e rest =>
    rw [step_event ha, step_event (by rw [h.agenda_eq, ha])]
    exact alikeOutcome_handle (h.map fun u => { u with agenda := rest }) e

end Sys2Proof.Machine

/-! PROOF. What every command does to the state (R21, R22, R33, R36, R132), and CMP (R27, R75). -/

namespace Sys2Proof.Machine

/-! ## Readable sources -/

theorem written_ne_allOnes_iff (w : BitVec 50) : w ≠ BitVec.allOnes 50 ↔ ∃ j, j < 50 ∧ w.getLsbD j = false := by
  constructor
  · intro h
    by_contra hn
    push Not at hn
    refine h (BitVec.eq_of_getLsbD_eq fun j hj => ?_)
    rw [BitVec.getLsbD_allOnes, decide_eq_true hj]
    simpa using hn j hj
  · rintro ⟨j, hj, hw⟩ rfl
    rw [BitVec.getLsbD_allOnes, decide_eq_true hj] at hw
    cases hw

theorem readable_eq_false_iff (s : State) (rs : List Reg) :
    s.readable rs = false ↔ ∃ r ∈ rs, (s.reg r).written ≠ BitVec.allOnes 50 := by
  rw [← Bool.not_eq_true, readable_iff]
  push Not
  rfl

/-- Settles O8: of the outcomes of a well-formed command only the one on unwritten sources is a fault. -/
theorem faultsExactlyOnUnwrittenSources : Obligations.FaultsExactlyOnUnwrittenSources := by
  intro i s f hw
  have hiff : s.readable i.sources = false ↔ ∃ r ∈ i.sources, ∃ j, j < 50 ∧ (s.reg r).written.getLsbD j = false := by
    simp only [readable_eq_false_iff, written_ne_allOnes_iff]
  rw [← hiff]
  constructor
  · intro h
    rcases exec_cases i s with ⟨-, hs⟩ | ⟨-, hr, hs⟩ | ⟨-, -, g, -, ⟨r, -, hs⟩ | ⟨e, hs⟩⟩
    · cases hs.symm.trans h
    · cases hs.symm.trans h
      exact ⟨rfl, hr⟩
    · cases hs.symm.trans h
    · cases hs.symm.trans h
  · rintro ⟨rfl, hr⟩
    exact exec_unwritten i s hw hr

/-- Settles O7: both kinds of completion leave BUSY 0, DONE 1 and ERR as the code says. -/
theorem readableCommandAlwaysCompletes : Obligations.ReadableCommandAlwaysCompletes := by
  intro i s hw hr
  obtain ⟨g, -, ⟨r, -, hs⟩ | ⟨e, hs⟩⟩ := exec_completes i s hw ((readable_iff s _).2 hr)
  · exact ⟨_, hs, rfl, rfl, rfl, Nat.zero_le 6⟩
  · exact ⟨_, hs, rfl, rfl, (decide_eq_true (errCodeBits_ne_zero e)).symm, errCodeBits_le_six e⟩

/-! ## Frames -/

/-- Settles O10: the writes of a command's results are for its destinations. -/
theorem commandWritesExactlyItsDestinations : Obligations.CommandWritesExactlyItsDestinations := by
  intro i s t h herr
  obtain ⟨g, hg, ⟨r, hr, hn, rfl⟩ | ⟨e, rfl⟩⟩ := exec_next h
  · rw [← hr.dests] at hn ⊢
    refine ⟨fun q hq => ?_, fun q hq => State.commit_reg_other _ r q hq, fun hd => ?_, ?_⟩
    · obtain ⟨p, hp, rfl⟩ := List.mem_map.1 hq
      rw [State.commit_reg_of_mem _ r hn p.1 p.2 hp]
    · rw [State.commit_rng, State.setRng_rng, hg hd]
    · rw [State.commit_eq]
      rfl
  · cases herr

/-- Results that fit the command change only the STATUS fields that are the command's. -/
theorem Result.fitsCommand.completed_status {r : Result} {i : Instr} (h : r.fitsCommand i) (t : Status) :
    (i.writesCmp = false → (t.completed r).cmp = t.cmp) ∧ (i.writesRes = false → (t.completed r).res = t.res) ∧
      (i.mayOverflow = false → (t.completed r).ovf = t.ovf) := by
  refine ⟨fun hf => ?_, fun hf => ?_, fun hf => ?_⟩
  · have hc : r.cmp = none := by_contra fun hc => nomatch hf.symm.trans (h.cmp hc)
    rw [Status.completed, hc]
    rfl
  · have hc : r.res = none := by_contra fun hc => nomatch hf.symm.trans (h.res hc)
    rw [Status.completed, hc]
    rfl
  · have hc : r.ovf = false := Bool.eq_false_iff.2 fun hc => nomatch hf.symm.trans (h.ovf hc)
    rw [Status.completed, hc]
    exact Bool.or_false _

/-- Settles O11: by the fields that the results of a command may hold. -/
theorem statusFieldsWrittenPerCommand : Obligations.StatusFieldsWrittenPerCommand := by
  intro i s t h
  obtain ⟨g, -, ⟨r, hr, -, rfl⟩ | ⟨e, rfl⟩⟩ := exec_next h
  · obtain ⟨hcmp, hres, hovf⟩ := hr.completed_status s.status
    have hno {P : Prop} (hf : (s.status.completed r).err = true ∨ P) : P := hf.resolve_left (by simp)
    exact ⟨rfl, rfl, rfl, fun _ => rfl, fun hf => hcmp (hno hf), fun hf => hres (hno hf), fun hf => hovf (hno hf),
      fun ho => Bool.or_eq_true_iff.2 (.inl ho)⟩
  · exact ⟨rfl, rfl, rfl, fun herr => (nomatch herr), fun _ => rfl, fun _ => rfl, fun _ => rfl, fun ho => ho⟩

/-! ## CMP -/

section
set_option exponentiation.threshold 2000

/-- The signed reading is the unsigned one, less `2^1600` where the sign bit is set (R8). -/
theorem sval_eq_sub (u : Big) : sval u = uval u - if isNeg u then 2 ^ 1600 else 0 := by
  rw [sval, BitVec.toInt_eq_msb_cond, isNeg_eq_msb]
  split
  · rfl
  · exact (Int.sub_zero _).symm

end

/-- Of two numbers with a leading digit each, the leading digits decide, and then what stands below them. -/
theorem compare_leading_digit {B x y : Nat} (hx : x < B) (hy : y < B) (a b : Nat) :
    compare (x + B * a) (y + B * b) = if a ≠ b then compare a b else compare x y := by
  rcases Nat.lt_trichotomy a b with h | rfl | h
  · have hm := Nat.mul_le_mul_left B (Nat.succ_le_of_lt h)
    rw [Nat.mul_succ] at hm
    rw [if_pos h.ne, compare_lt_iff_lt.2 h, compare_lt_iff_lt]
    omega
  · rw [if_neg (not_not_intro rfl)]
    rcases Nat.lt_trichotomy x y with h | rfl | h
    · rw [compare_lt_iff_lt.2 h, compare_lt_iff_lt.2 (Nat.add_lt_add_right h _)]
    · rw [compare_eq_iff_eq.2 rfl, compare_eq_iff_eq.2 rfl]
    · rw [compare_gt_iff_gt.2 h, compare_gt_iff_gt.2 (Nat.add_lt_add_right h _)]
  · have hm := Nat.mul_le_mul_left B (Nat.succ_le_of_lt h)
    rw [Nat.mul_succ] at hm
    rw [if_pos h.ne', compare_gt_iff_gt.2 h, compare_gt_iff_gt]
    omega

/-- The words of two patterns are compared as the numbers that they spell. -/
theorem compareWords_eq (u v : Big) (n : Nat) :
    compareWords u v n = compare (uval u % Config.radix ^ n) (uval v % Config.radix ^ n) := by
  induction n with
  | zero => simp [compareWords, Nat.mod_one]
  | succ n ih =>
    have hB : 0 < Config.radix ^ n := Nat.pow_pos (by decide)
    rw [Nat.pow_succ, Nat.mod_mul, Nat.mod_mul, ← wordAt_toNat, ← wordAt_toNat,
      compare_leading_digit (Nat.mod_lt _ hB) (Nat.mod_lt _ hB), compareWords, ih]
    refine ite_congr (by rw [ne_eq, ne_eq, BitVec.toNat_inj]) (fun hw => ?_) fun _ => rfl
    split
    · next hlt => rw [compare_lt_iff_lt.2 hlt]
    · next hlt => rw [compare_gt_iff_gt.2 (lt_of_le_of_ne (Nat.le_of_not_lt hlt) hw.symm)]

/-- The comparison procedure of R75 finds the signed order: where the signs agree, that of the unsigned readings. -/
theorem compareBig_eq (u v : Big) : compareBig u v = compare (sval u) (sval v) := by
  unfold compareBig
  by_cases hn : isNeg u = isNeg v
  · have hmono (c : Int) : StrictMono fun n : Nat => (n : Int) - c := fun a b h => by simpa using h
    rw [if_neg (not_not_intro hn), compareWords_eq, Nat.mod_eq_of_lt (uval_lt u), Nat.mod_eq_of_lt (uval_lt v),
      sval_eq_sub u, sval_eq_sub v, hn, ← cmp_eq_compare, ← cmp_eq_compare]
    exact ((hmono _).cmp_map_eq _ _).symm
  · rw [if_pos hn]
    cases hnu : isNeg u with
    | false =>
      have hnv : isNeg v = true := by simpa [hnu] using hn
      exact (compare_gt_iff_gt.2 (lt_of_lt_of_le ((isNeg_iff v).1 hnv) ((isNeg_eq_false_iff u).1 hnu))).symm
    | true =>
      have hnv : isNeg v = false := by simpa [hnu] using hn
      exact (compare_lt_iff_lt.2 (lt_of_lt_of_le ((isNeg_iff u).1 hnu) ((isNeg_eq_false_iff v).1 hnv))).symm

theorem cmpBits_compare (a b : Int) : cmpBits (compare a b) = if a = b then 0b00 else if a < b then 0b01 else 0b10 := by
  rcases lt_trichotomy a b with h | h | h
  · rw [compare_lt_iff_lt.2 h, if_neg h.ne, if_pos h]; rfl
  · rw [compare_eq_iff_eq.2 h, if_pos h]; rfl
  · rw [compare_gt_iff_gt.2 h, if_neg h.ne', if_neg h.not_gt]; rfl

/-- Settles O15: CMP's result is the signed order, and no register is among its writes. -/
theorem cmpReportsTheSignedOrder : Obligations.CmpReportsTheSignedOrder := by
  intro rs1 rs2 s hr
  have hc := completedTo_commit s s.rng { cmp := some (compareBig (s.val rs1) (s.val rs2)) } List.nodup_nil
  rw [exec, execCmp, withSources_of_readable hr]
  refine ⟨(s.setRng s.rng).commit _, rfl, ?_⟩
  rw [← cmpBits_compare, State.sval, State.sval, ← compareBig_eq]
  simpa [Status.completed, Status.doneOk] using hc

end Sys2Proof.Machine

/-! PROOF. The register port's accesses, CTRL, STATUS and CMD writes, the two resets, and one step
(R22-R31, R37-R39, R43, R49, R65, R125, R126). -/

namespace Sys2Proof.Machine

/-! ## Accesses that have no step -/

theorem hostRead_of_check {off bytes : Nat} {f : Fault} (h : checkAccess off bytes = .error f) (s : State) :
    hostRead off bytes s = .fault f := by rw [hostRead, h]

theorem hostWrite_of_check {off bytes : Nat} {f : Fault} (h : checkAccess off bytes = .error f) (v : Word) (s : State) :
    hostWrite off bytes v s = .fault f := by rw [hostWrite, h]

/-- A command word may start exactly where every source of the command that it is, if it is one, is written (R22). -/
theorem sourcesWritten_iff (s : State) (c : Word) :
    s.sourcesWritten c = true ↔ ∀ i, decode c = .ok i → ∀ r ∈ i.sources, (s.reg r).written = BitVec.allOnes 50 := by
  cases hd : decode c with
  | error e => simp [sourcesWritten_error hd]
  | ok i => simp [sourcesWritten_ok hd, readable_iff]

theorem sourcesWritten_eq_false {s : State} {c : Word} {i : Instr} (hd : decode c = .ok i)
    (h : ∃ r ∈ i.sources, (s.reg r).written ≠ BitVec.allOnes 50) : s.sourcesWritten c = false := by
  rw [sourcesWritten_ok hd, readable_eq_false_iff]
  exact h

theorem startCmd_written {s : State} {c : Word} (h : s.sourcesWritten c = true) :
    s.startCmd c = .next (s.acceptCmd c) := if_pos h

theorem startCmd_unwritten {s : State} {c : Word} (h : s.sourcesWritten c = false) :
    s.startCmd c = .fault .unwrittenSource := if_neg (by rw [h]; decide)

/-- Every write but the start of a command that reads an unwritten word has a step. -/
theorem store_total {s : State} {l : PortLoc} {v : Word}
    (h : l ≠ .cmd ∨ s.status.busy = true ∨ s.sourcesWritten v = true) : ∃ t, s.store l v = .next t := by
  have hop (t : State) : ∃ u, s.unlessBusy (.next t) = .next u := by
    unfold State.unlessBusy
    split <;> exact ⟨_, rfl⟩
  cases l with
  | id => exact ⟨_, rfl⟩
  | ctrl => exact ⟨_, rfl⟩
  | status => exact ⟨_, rfl⟩
  | len i => exact ⟨_, rfl⟩
  | reserved => exact ⟨_, rfl⟩
  | arg0 => exact hop _
  | arg1 => exact hop _
  | bitlen => exact hop _
  | confidence => exact hop _
  | retryLimit => exact hop _
  | word i j => exact hop _
  | cmd =>
    rcases h with h | hb | hc
    · exact absurd rfl h
    · exact ⟨_, unlessBusy_busy hb _⟩
    · rw [State.store, startCmd_written hc]
      exact hop _

/-- Settles O49: `checkAccess` decides whether an access has a step, but for the start of a command. -/
theorem accessesTheBlockHasNoStepFor : Obligations.AccessesTheBlockHasNoStepFor := by
  intro off bytes v s
  refine ⟨fun h => ?_, fun hb ho hl => ?_, fun hb ho hl => ?_⟩
  · have hc : checkAccess off bytes = .error .inexpressibleAccess := if_pos h
    exact ⟨hostRead_of_check hc s, hostWrite_of_check hc v s⟩
  · have hc : checkAccess off bytes = .error .outsidePort := (if_neg (by omega)).trans (if_pos hl)
    exact ⟨hostRead_of_check hc s, hostWrite_of_check hc v s⟩
  · subst hb
    refine ⟨⟨_, hostRead_ok ho hl s⟩, fun h => ?_, ?_⟩
    · rw [hostWrite_ok ho hl]
      rw [← sourcesWritten_iff] at h
      exact store_total (h.imp_left fun hne he => hne ((offset_of_ctrl_and_cmd off).2 he))
    · rintro rfl hb ⟨i, hd, hr⟩
      rw [hostWrite_ok ho hl]
      exact (unlessBusy_idle hb _).trans (startCmd_unwritten (sourcesWritten_eq_false hd hr))

/-! ## STATUS and CTRL writes -/

theorem getLsbD_eq_decide (v : Word) (i : Nat) : v.getLsbD i = decide (v.toNat / 2 ^ i % 2 = 1) := by
  rw [← BitVec.testBit_toNat, Nat.testBit_eq_decide_div_mod_eq]

/-- A bit that is cleared where `v` names it. -/
theorem and_not_getLsbD (b : Bool) (v : Word) (i : Nat) :
    (b && !v.getLsbD i) = true ↔ b = true ∧ v.toNat / 2 ^ i % 2 = 0 := by
  rw [getLsbD_eq_decide]
  simp

/-- Settles O51: STATUS is written through `writeOneToClear`, busy or not. -/
theorem statusWriteClearsTheNamedBits : Obligations.StatusWriteClearsTheNamedBits := by
  intro v s
  exact ⟨s.setStatus (s.status.writeOneToClear v), rfl, rfl, and_not_getLsbD _ v 1, and_not_getLsbD _ v 12,
    and_not_getLsbD _ v 13⟩

theorem toWord_reset : Status.reset.toWord = 0 := rfl

/-- Settles O52: bit 1 of the value decides between the soft reset and the store of IE. -/
theorem softResetKeepsTheRegisters : Obligations.SoftResetKeepsTheRegisters := by
  intro v s
  have hbit := getLsbD_eq_decide v 1
  have hstep : hostWrite 0x004 4 v s = .next (s.writeCtrl v) := rfl
  rw [hstep]
  constructor
  · intro h
    rw [State.writeCtrl, if_pos (hbit.trans (decide_eq_true h))]
    exact ⟨_, rfl, rfl, toWord_reset, rfl, rfl, rfl, rfl, rfl, rfl, rfl, rfl, rfl, rfl, rfl, rfl, rfl⟩
  · intro h
    rw [State.writeCtrl, if_neg (by rw [hbit]; simp [h]), getLsbD_eq_decide, Nat.pow_zero, Nat.div_one]

/-! ## Control registers as read -/

theorem toNat_append_eq_add {m n : Nat} (x : BitVec m) (y : BitVec n) :
    (x ++ y).toNat = 2 ^ n * x.toNat + y.toNat := by
  rw [BitVec.toNat_append, ← Nat.shiftLeft_add_eq_or_of_lt y.isLt, Nat.shiftLeft_eq, Nat.mul_comm]

/-- STATUS as a number: each field at its place, the reserved bits 0 (R25). -/
theorem toWord_toNat (t : Status) :
    t.toWord.toNat = t.busy.toNat + 2 * t.done.toNat + 4 * t.err.toNat + 16 * t.errcode.toNat + 256 * t.cmp.toNat +
      1024 * t.res.toNat + 4096 * t.ovf.toNat + 8192 * t.lost.toNat := by
  simp only [Status.toWord, toNat_append_eq_add, BitVec.toNat_ofBool, BitVec.toNat_ofNat]
  omega

/-- Settles O46: each register is one case of `readLoc` and `store`. -/
theorem controlRegistersReadTheirFields : Obligations.ControlRegistersReadTheirFields := by
  intro s
  refine ⟨rfl, ?_, ⟨s.status.toWord, rfl, toWord_toNat _⟩, rfl, rfl, rfl, ?_, ?_, rfl, fun v hb => ?_⟩
  · rw [← BitVec.toNat_ofBool, BitVec.ofNat_toNat]
    rfl
  · rw [BitVec.ofNat_toNat]
    rfl
  · rw [BitVec.ofNat_toNat]
    rfl
  · have hidle (o) : s.unlessBusy o = o := unlessBusy_idle hb o
    rw [BitVec.ofNat_toNat]
    exact ⟨hidle _, hidle _, hidle _, hidle _, hidle _⟩

/-! ## CMD writes -/

/-- Settles O50: an accepted word is `acceptCmd`'s, any other is the fault of an unwritten source. -/
theorem acceptedCmdWriteStartsTheCommand : Obligations.AcceptedCmdWriteStartsTheCommand := by
  intro s c rest ha hb
  have hstep : step s = State.startCmd { s with agenda := rest } c :=
    (step_event ha).trans (unlessBusy_idle (s := { s with agenda := rest }) hb _)
  rw [hstep]
  constructor
  · intro h
    exact ⟨_, startCmd_written ((sourcesWritten_iff _ c).2 h), rfl, rfl, rfl, rfl, rfl⟩
  · rintro i hd ⟨r, hr, hw⟩
    exact startCmd_unwritten (sourcesWritten_eq_false hd ⟨r, hr, (written_ne_allOnes_iff _).2 hw⟩)

/-! ## Hardware reset -/

theorem hardReset_written (s : State) (r : Reg) : (s.hardReset.reg r).written = 0 := by
  simp [State.reg, State.hardReset, State.reset]

/-- Settles O53: `hardReset` gives the reset state, but for the port, the agenda and the host's view. -/
theorem hardResetGivesTheResetValues : Obligations.HardResetGivesTheResetValues := by
  intro s rest ha
  exact ⟨_, step_event ha, toWord_reset, rfl, rfl, rfl, rfl, rfl, rfl, rfl, rfl, hardReset_written _, rfl, rfl,
    rfl, rfl, rfl⟩

/-! ## One step -/

/-- The moves of the engine and the platform, which a poll of BUSY = 1 lets pass before the next one (R65). -/
theorem pollAgain_move {e : Event} (r : List Event) (h : e = .engineDraw ∨ e = .engineComplete ∨ e = .hardReset) :
    pollAgain (e :: r) = e :: .hostWait :: r := by
  rcases h with rfl | rfl | rfl <;> rfl

theorem pollAgain_other {rest : List Event}
    (h : ∀ (e : Event) (r : List Event), rest = e :: r → e ≠ .engineDraw ∧ e ≠ .engineComplete ∧ e ≠ .hardReset) :
    pollAgain rest = .engineComplete :: .hostWait :: rest := by
  cases rest with
  | nil => rfl
  | cons e r =>
    obtain ⟨hd, hc, hr⟩ := h e r rfl
    cases e with
    | engineDraw => exact absurd rfl hd
    | engineComplete => exact absurd rfl hc
    | hardReset => exact absurd rfl hr
    | _ => rfl

theorem wordsNeeded_of_next {s t : State} (h : runWord s.latched s = .next t) :
    wordsNeeded s = t.rng.pos - s.rng.pos := by
  rw [wordsNeeded, State.fetch, h]

/-- Settles O5: the step takes the agenda's head to the rule of that event. -/
theorem stepRunsTheLatchedCommand : Obligations.StepRunsTheLatchedCommand := by
  intro s rest
  refine ⟨fun i hd hb => ⟨fun ha => ?_, fun ha => ?_, fun ha => ?_⟩, fun hb => ⟨fun ha => ?_, fun ha => ?_⟩,
    fun off bytes ha => step_event ha, fun off bytes v ha => step_event ha, fun ha hb => ?_, fun ha hb => ?_⟩
  · rw [step_event ha]
    exact (engineComplete_busy (s := { s with agenda := rest }) hb).trans (runWord_ok hd _)
  · rw [step_empty ha]
    exact (engineComplete_busy hb).trans (runWord_ok hd _)
  · rw [step_event ha]
    refine ⟨fun t ht => ?_, fun f hf => engineDraw_fault hb ((runWord_ok hd _).trans hf)⟩
    have hrun := (runWord_ok hd { s with agenda := rest }).trans ht
    refine (engineDraw_busy (s := { s with agenda := rest }) hb hrun).trans ?_
    rw [wordsNeeded_of_next hrun]
    simp only [Nat.lt_sub_iff_add_lt']
  · rcases ha with ha | ha
    · exact (step_event ha).trans (engineComplete_idle hb)
    · exact (step_event ha).trans (engineDraw_idle hb)
  · exact (step_empty ha).trans (engineComplete_idle hb)
  · exact (step_event ha).trans (hostWait_idle hb)
  · have hstep := (step_event ha).trans (hostWait_busy (s := { s with agenda := rest }) hb)
    constructor
    · rintro e r rfl he
      rw [← pollAgain_move r he]
      exact hstep
    · intro he
      rw [← pollAgain_other he]
      exact hstep

end Sys2Proof.Machine

/-! PROOF. The words of the big registers at the port, reads, writes to a busy block, reserved offsets, and LDVAL
(R22, R32, R43, R45, R46, R48, R54, R66). -/

namespace Sys2Proof.Machine

/-! ## The address map -/

theorem portLoc_reserved {off : Nat}
    (h : (0x024 ≤ off ∧ off < 0x040) ∨ (0x080 ≤ off ∧ off < 0x1000) ∨ (0x1000 ≤ off ∧ 0xC8 ≤ off % 0x100)) :
    portLoc off = .reserved := by
  unfold portLoc
  repeat rw [if_neg (show ¬ off = _ by omega)]
  rcases h with ⟨-, h⟩ | ⟨h1, h2⟩ | ⟨h1, h2⟩
  · exact if_pos h
  · rw [if_neg (by omega), if_neg (by omega), if_pos h2]
  · rw [if_neg (by omega), if_neg (by omega), if_neg (by omega)]
    exact dif_neg (by omega)

theorem exists_lenOffset {off : Nat} (ha : off % 4 = 0) (h1 : 0x040 ≤ off) (h2 : off < 0x080) :
    ∃ i, off = lenOffset i :=
  ⟨⟨(off - 0x040) / 4, by omega⟩, by simp only [lenOffset]; omega⟩

theorem exists_wordOffset {off : Nat} (ha : off % 4 = 0) (h1 : 0x1000 ≤ off) (hl : off < 0x2000)
    (h2 : off % 0x100 < 0xC8) : ∃ (i : Reg) (j : Fin 50), off = wordOffset i j :=
  ⟨⟨(off - 0x1000) / 0x100, by omega⟩, ⟨off % 0x100 / 4, by omega⟩, by simp only [wordOffset]; omega⟩

/-- Every aligned offset of the port leads to a control register, to a LEN, to a word of a big register or to nothing. -/
theorem offset_cases {off : Nat} (ha : off % 4 = 0) (hl : off < 0x2000) :
    off < 0x024 ∨ portLoc off = .reserved ∨ (∃ i, off = lenOffset i) ∨
      ∃ (i : Reg) (j : Fin 50), off = wordOffset i j := by
  by_cases h0 : off < 0x024
  · exact .inl h0
  by_cases h1 : 0x040 ≤ off ∧ off < 0x080
  · exact .inr (.inr (.inl (exists_lenOffset ha h1.1 h1.2)))
  by_cases h2 : 0x1000 ≤ off ∧ off % 0x100 < 0xC8
  · exact .inr (.inr (.inr (exists_wordOffset ha h2.1 hl h2.2)))
  · exact .inr (.inl (portLoc_reserved (by omega)))

/-- Below 0x024 stand control registers, no LEN and no word of a big register (R23). -/
theorem portLoc_of_lt {off : Nat} (h : off < 0x024) :
    portLoc off ∈ [.id, .ctrl, .status, .cmd, .arg0, .arg1, .bitlen, .confidence, .retryLimit, .reserved] := by
  revert off
  decide

theorem offset_of_len {off : Nat} {i : Reg} (ha : off % 4 = 0) (hl : off < 0x2000) (h : portLoc off = .len i) :
    off = lenOffset i := by
  rcases offset_cases ha hl with h0 | hr | ⟨q, rfl⟩ | ⟨q, j, rfl⟩
  · exact absurd (h ▸ portLoc_of_lt h0) (by simp)
  · cases hr.symm.trans h
  · cases (portLoc_lenOffset q).symm.trans h
    rfl
  · cases (portLoc_wordOffset q j).symm.trans h

theorem offset_of_word {off : Nat} {i : Reg} {j : Fin 50} (ha : off % 4 = 0) (hl : off < 0x2000)
    (h : portLoc off = .word i j) : off = wordOffset i j := by
  rcases offset_cases ha hl with h0 | hr | ⟨q, rfl⟩ | ⟨q, k, rfl⟩
  · exact absurd (h ▸ portLoc_of_lt h0) (by simp)
  · cases hr.symm.trans h
  · cases (portLoc_lenOffset q).symm.trans h
  · cases (portLoc_wordOffset q k).symm.trans h
    rfl

theorem lenOffset_lt (i : Reg) : lenOffset i < Config.portSize := by
  have := i.isLt
  simp only [lenOffset, Config.portSize]
  omega

theorem lenOffset_aligned (i : Reg) : lenOffset i % 4 = 0 := by simp only [lenOffset]; omega

/-! ## Reads and ignored writes -/

theorem answer_some {s : State} {l : PortLoc} {w : Word} (h : s.readLoc l = some w) :
    s.answer l = { s with rdata := some w } := by
  rw [State.answer, h]

theorem hostRead_word_answer (i : Reg) (j : Fin 50) (s : State) :
    hostRead (wordOffset i j) 4 s = .next (s.answer (.word i j)) := by
  rw [hostRead_ok (wordOffset_aligned i j) (wordOffset_lt i j), portLoc_wordOffset]

theorem hostRead_len_answer (i : Reg) (s : State) : hostRead (lenOffset i) 4 s = .next (s.answer (.len i)) := by
  rw [hostRead_ok (lenOffset_aligned i) (lenOffset_lt i), portLoc_lenOffset]

theorem hostRead_reserved {off : Nat} (ha : off % 4 = 0) (hl : off < 0x2000) (h : portLoc off = .reserved) (s : State) :
    hostRead off 4 s = .next { s with rdata := some 0 } := by
  rw [hostRead_ok ha hl, h, answer_some rfl]

/-- A write at a reserved or read-only location changes nothing, busy or not (R46). -/
theorem hostWrite_ignored {off : Nat} (ha : off % 4 = 0) (hl : off < 0x2000)
    (h : portLoc off = .id ∨ portLoc off = .reserved ∨ ∃ i, portLoc off = .len i) (v : Word) (s : State) :
    hostWrite off 4 v s = .next s := by
  rw [hostWrite_ok ha hl]
  rcases h with h | h | ⟨i, h⟩ <;> rw [h] <;> rfl

/-- ID and the LEN registers are read-only (R31, R32). -/
theorem portLoc_readOnly {off : Nat} (ha : off % 4 = 0) (h : off = 0 ∨ (0x040 ≤ off ∧ off < 0x080)) :
    portLoc off = .id ∨ ∃ i, portLoc off = .len i := by
  rcases h with rfl | ⟨h1, h2⟩
  · exact .inl rfl
  · obtain ⟨i, rfl⟩ := exists_lenOffset ha h1 h2
    exact .inr ⟨i, portLoc_lenOffset i⟩

/-- Settles O45: the map sends the listed ranges to locations that read 0 or ignore a write. -/
theorem reservedAndReadOnlyOffsetsIgnoreWrites : Obligations.ReservedAndReadOnlyOffsetsIgnoreWrites := by
  intro off v s ha hl
  refine ⟨fun h => ?_, fun h => ?_⟩
  · have hr := portLoc_reserved h
    exact ⟨hostRead_reserved ha hl hr s, hostWrite_ignored ha hl (.inr (.inl hr)) v s⟩
  · exact hostWrite_ignored ha hl ((portLoc_readOnly ha h).imp_right .inr) v s

/-! ## Words of a big register -/

@[simp] theorem State.val_setRegWord_same (s : State) (r : Reg) (j : Nat) (v : Word) :
    (s.setRegWord r j v).val r = setWordAt (s.val r) j v := by
  rw [State.val, State.reg_setRegWord_same]

/-- A word write sets that word's written bit and no other. -/
theorem State.written_setRegWord (s : State) (r : Reg) (j : Nat) (v : Word) {k : Nat} (hk : k < 50) :
    ((s.setRegWord r j v).reg r).written.getLsbD k = ((s.reg r).written.getLsbD k || decide (j = k)) := by
  rw [State.reg_setRegWord_same, BitVec.getLsbD_or, BitVec.getLsbD_twoPow]
  by_cases hjk : j = k
  · rw [hjk, decide_eq_true hk, Bool.true_and]
  · rw [decide_eq_false hjk, Bool.and_false]

/-- Settles O43: a word write is `setRegWord`, and words 50 to 63 of a slot lead nowhere. -/
theorem bigRegisterWordsReadAndWrite : Obligations.BigRegisterWordsReadAndWrite := by
  intro i j v s hj
  refine ⟨fun hb => ?_, fun hw => ?_, fun k h1 h2 => ?_⟩
  · refine ⟨s.setRegWord i j v, (hostWrite_word i ⟨j, hj⟩ v s).trans (unlessBusy_idle hb _), ?_, ?_, fun k hk hkj => ?_,
      fun r hr => s.reg_setRegWord_other i r j v hr, rfl⟩
    · rw [s.val_setRegWord_same, wordAt_setWordAt_same _ _ _ hj]
    · rw [s.written_setRegWord i j v hj, decide_eq_true rfl, Bool.or_true]
    · rw [s.val_setRegWord_same, wordAt_setWordAt_other _ _ _ _ hk hkj, s.written_setRegWord i j v hk,
        decide_eq_false (Ne.symm hkj), Bool.or_false]
      exact ⟨rfl, rfl⟩
  · have hread : s.readLoc (.word i ⟨j, hj⟩) = some (wordAt (s.val i) j) := if_pos hw
    exact (hostRead_word_answer i ⟨j, hj⟩ s).trans (congrArg _ (answer_some hread))
  · have hi := i.isLt
    have hr : portLoc (0x1000 + 0x100 * i.val + 4 * k) = .reserved := portLoc_reserved (by omega)
    exact ⟨hostRead_reserved (by omega) (by omega) hr s, hostWrite_ignored (by omega) (by omega) (.inr (.inl hr)) v s⟩

/-! ## Writes to a busy block -/

theorem writeCtrl_srst {v : Word} (h : v.getLsbD 1 = true) (s : State) : s.writeCtrl v = s.softReset := if_pos h

theorem writeCtrl_ie {v : Word} (h : v.getLsbD 1 = false) (s : State) :
    s.writeCtrl v = { s with ie := v.getLsbD 0 } := if_neg (by rw [h]; decide)

/-- The control registers whose writes a busy block refuses (R48). -/
theorem hostWrite_control_busy {off : Nat} {s : State} (hoff : off ∈ [0x00C, 0x010, 0x014, 0x018, 0x01C, 0x020])
    (hb : s.status.busy = true) (v : Word) : hostWrite off 4 v s = .next (s.setStatus s.status.refuse) := by
  have hrefuse (o) : s.unlessBusy o = .next (s.setStatus s.status.refuse) := unlessBusy_busy hb o
  simp only [List.mem_cons, List.not_mem_nil, or_false] at hoff
  rcases hoff with rfl | rfl | rfl | rfl | rfl | rfl <;> exact hrefuse _

/-- Settles O44: operands, CMD and big registers are written `unlessBusy`, CTRL and STATUS always. -/
theorem busyWritesAreRefusedAndSetLost : Obligations.BusyWritesAreRefusedAndSetLost := by
  intro off v s hb
  refine ⟨?_, ?_, ?_, ?_, ?_⟩
  · rintro (hoff | ⟨i, j, hj, rfl⟩)
    · exact hostWrite_control_busy hoff hb v
    · exact (hostWrite_word i ⟨j, hj⟩ v s).trans (unlessBusy_busy hb _)
  · rintro rfl hv
    exact congrArg _ (writeCtrl_ie hv s)
  · rintro rfl hv
    exact ⟨s.softReset, congrArg _ (writeCtrl_srst hv s), toWord_reset, rfl, rfl⟩
  · rintro rfl
    exact ⟨s.setStatus (s.status.writeOneToClear v), rfl, rfl, hb, rfl, rfl, rfl⟩
  · rintro ⟨ha, hl, h⟩
    refine hostWrite_ignored ha hl ?_ v s
    by_cases hro : off = 0 ∨ (0x040 ≤ off ∧ off < 0x080)
    · exact (portLoc_readOnly ha hro).imp_right .inr
    · exact .inr (.inl (portLoc_reserved (by omega)))

/-! ## Answers -/

/-- The spec leaves open what an unwritten word reads, and the LEN of a register with one, and nothing else (R22). -/
theorem readLoc_eq_none_iff (s : State) (l : PortLoc) :
    s.readLoc l = none ↔ (∃ i j, l = .word i j ∧ (s.reg i).written.getLsbD j = false) ∨
      ∃ i, l = .len i ∧ (s.reg i).written ≠ BitVec.allOnes 50 := by
  cases l with
  | word i j => simp [State.readLoc, BigReg.wordWritten]
  | len i => simp [State.readLoc, BigReg.isWritten]
  | _ => simp [State.readLoc]

/-- An answer does not change what stands at the port. -/
theorem readLoc_answer (s : State) (l m : PortLoc) : (s.answer l).readLoc m = s.readLoc m := by
  rw [answer_eq]
  cases m <;> rfl

/-- A read that has a step answers at an aligned offset of the port. -/
theorem hostRead_next_answer {off : Nat} {s t : State} (h : hostRead off 4 s = .next t) :
    off % 4 = 0 ∧ off < 0x2000 ∧ t = s.answer (portLoc off) := by
  rw [hostRead] at h
  rcases checkAccess_cases off 4 with ⟨-, hc⟩ | ⟨-, -, -, hc⟩ | ⟨-, ha, hl, hc⟩ <;> rw [hc] at h
  · cases h
  · cases h
  · cases h
    exact ⟨ha, hl, rfl⟩

/-- Settles O48: an answer is the word that stands at the location, or the next free value where none does. -/
theorem readsHaveNoSideEffect : Obligations.ReadsHaveNoSideEffect := by
  refine ⟨fun off s t u ht hu => ?_, fun i j s hj hw => ?_, fun i s hw => ?_⟩
  · obtain ⟨ha, hl, rfl⟩ := hostRead_next_answer ht
    obtain ⟨-, -, rfl⟩ := hostRead_next_answer hu
    refine ⟨answer_eq s _, ?_⟩
    cases hread : s.readLoc (portLoc off) with
    | some w =>
      have hagain := (readLoc_answer s (portLoc off) (portLoc off)).trans hread
      rw [answer_some hagain, answer_some hread]
      exact ⟨fun _ => rfl, fun hlt => absurd hlt (Nat.lt_irrefl _)⟩
    | none =>
      refine ⟨fun heq => ?_, fun _ => ?_⟩
      · rw [answer_free hread] at heq
        exact absurd heq (Nat.succ_ne_self _)
      · rcases (readLoc_eq_none_iff s _).1 hread with ⟨i, j, hloc, hw⟩ | ⟨i, hloc, hw⟩
        · exact .inl ⟨i, j, j.isLt, offset_of_word ha hl hloc, hw⟩
        · exact .inr ⟨i, offset_of_len ha hl hloc, hw⟩
  · have hfree : s.readLoc (.word i ⟨j, hj⟩) = none := (readLoc_eq_none_iff s _).2 (.inl ⟨i, ⟨j, hj⟩, rfl, hw⟩)
    exact (hostRead_word_answer i ⟨j, hj⟩ s).trans (congrArg _ (answer_free hfree))
  · have hfree : s.readLoc (.len i) = none := (readLoc_eq_none_iff s _).2 (.inr ⟨i, rfl, hw⟩)
    exact (hostRead_len_answer i s).trans (congrArg _ (answer_free hfree))

/-! ## LDVAL -/

theorem wr_eq {off : Nat} (hl : off < Config.portSize) (v : Word) : wr off v = [.hostWrite off 4 v] := by
  have hbus : busOffset (Config.portBase + off) = some off := by
    rw [busOffset, if_pos ⟨by omega, by omega⟩, Nat.add_sub_cancel_left]
  rw [wr, memWrite, hbus]
  rfl

/-- The host's write of word `j` of `u` to register `i`. -/
def wordWrite (i : Reg) (u : Big) (j : Nat) : Event := .hostWrite (wordOffset i j) 4 (wordAt u j)

theorem ldval_eq (i : Reg) (v : Int) : ldval i v = (List.range 50).map (wordWrite i (enc v)) := by
  rw [← List.flatMap_pure_eq_map]
  exact List.flatMap_congr fun j hj => wr_eq (wordOffset_lt i ⟨j, List.mem_range.1 hj⟩) _

/-- Word `k` of the register is written, and with that of `u`. -/
def BigReg.holdsWord (b : BigReg) (u : Big) (k : Nat) : Prop :=
  wordAt b.val k = wordAt u k ∧ b.written.getLsbD k = true

theorem BigReg.eq_of_holdsWord {b : BigReg} {u : Big} (h : ∀ k, k < 50 → b.holdsWord u k) :
    b = ⟨u, BitVec.allOnes 50⟩ := by
  have hval : b.val = u := eq_of_wordAt_eq fun k hk => (h k hk).1
  have hwritten : b.written = BitVec.allOnes 50 := BitVec.eq_of_getLsbD_eq fun k hk => by
    rw [(h k hk).2, BitVec.getLsbD_allOnes, decide_eq_true hk]
  rw [← hval, ← hwritten]

/-- The write of one more word of `u` keeps those that the register holds. -/
theorem State.holdsWord_setRegWord {s : State} {i : Reg} {u : Big} {j k : Nat} (hk : k < 50)
    (h : k = j ∨ (s.reg i).holdsWord u k) : ((s.setRegWord i j (wordAt u j)).reg i).holdsWord u k := by
  rw [BigReg.holdsWord, s.written_setRegWord i j _ hk, ← State.val, s.val_setRegWord_same]
  by_cases hkj : k = j
  · subst hkj
    exact ⟨wordAt_setWordAt_same _ k _ hk, by simp⟩
  · obtain ⟨hval, hwritten⟩ := h.resolve_left hkj
    exact ⟨(wordAt_setWordAt_other _ j k _ hk hkj).trans hval, by rw [hwritten, Bool.true_or]⟩

theorem run_succ_of_next (M : Host.Core) {s t : M.State} (h : M.step s = .next t) (n : Nat) :
    M.run (n + 1) s = M.run n t := by
  rw [Host.Core.run, h]

theorem step_wordWrite {s : State} {i : Reg} {u : Big} {j : Nat} {rest : List Event} (hj : j < 50)
    (hb : s.status.busy = false) (ha : s.agenda = wordWrite i u j :: rest) :
    step s = .next (State.setRegWord { s with agenda := rest } i j (wordAt u j)) :=
  (step_event ha).trans ((hostWrite_word i ⟨j, hj⟩ _ _).trans (unlessBusy_idle (s := { s with agenda := rest }) hb _))

/-- Word writes to one register of an idle block: each word written holds, and nothing else changes. -/
theorem run_wordWrites (i : Reg) (u : Big) (js : List Nat) (s : State) (hjs : ∀ j ∈ js, j < 50)
    (hb : s.status.busy = false) (ha : s.agenda = js.map (wordWrite i u)) :
    ∃ t, core.run js.length s = .next t ∧
      (∀ k, k < 50 → k ∈ js ∨ (s.reg i).holdsWord u k → (t.reg i).holdsWord u k) ∧
      (∀ r, r ≠ i → t.reg r = s.reg r) ∧ t = { s with x := t.x, agenda := [] } := by
  induction js generalizing s with
  | nil =>
    have ha : s.agenda = [] := ha
    exact ⟨s, rfl, fun k _ h => h.resolve_left List.not_mem_nil, fun _ _ => rfl, by rw [← ha]⟩
  | cons j js ih =>
    have hj := hjs j List.mem_cons_self
    obtain ⟨t, hrun, hword, hother, hrest⟩ :=
      ih (State.setRegWord { s with agenda := js.map (wordWrite i u) } i j (wordAt u j))
        (fun q hq => hjs q (List.mem_cons_of_mem j hq)) hb rfl
    refine ⟨t, (run_succ_of_next core (step_wordWrite hj hb ha) _).trans hrun, fun k hk h => hword k hk ?_,
      fun r hr => ?_, hrest⟩
    · rw [List.mem_cons, or_assoc, or_left_comm] at h
      exact h.imp_right (State.holdsWord_setRegWord hk)
    · exact (hother r hr).trans (State.reg_setRegWord_other _ i r j _ hr)

/-- Settles O60: after the 50 writes, every word of the register holds. -/
theorem ldvalLoadsTheValue : Obligations.LdvalLoadsTheValue := by
  intro i v s hb ha
  obtain ⟨t, hrun, hword, hother, hrest⟩ :=
    run_wordWrites i (enc v) (List.range 50) s (fun _ => List.mem_range.1) hb (ha.trans (ldval_eq i v))
  exact ⟨t, hrun, BigReg.eq_of_holdsWord fun k hk => hword k hk (.inl (List.mem_range.2 hk)), hother, hrest⟩

end Sys2Proof.Machine

/-! PROOF. The command word (R56-R62): the decoder and the encoder are inverse to each other, no word selects two rows of
the opcode map, and a latched word that is no command completes with EILLEGAL alone. -/

namespace Sys2Proof

/-! ## The fields of an encoded command (R57, R58) -/

section
variable (op : BitVec 8) (rd rs1 rs2 rs3 rs4 : Reg) (shamt : BitVec 16)

@[simp] theorem fields_encodeR :
    fieldRd (encodeR op rd rs1 rs2 rs3 rs4) = rd ∧ fieldRs1 (encodeR op rd rs1 rs2 rs3 rs4) = rs1 ∧
    fieldRs2 (encodeR op rd rs1 rs2 rs3 rs4) = rs2 ∧ fieldRs3 (encodeR op rd rs1 rs2 rs3 rs4) = rs3 ∧
    fieldRs4 (encodeR op rd rs1 rs2 rs3 rs4) = rs4 := by
  unfold encodeR
  refine ⟨congrArg BitVec.toFin (a₂ := .ofFin (w := 4) rd) ?_, congrArg BitVec.toFin (a₂ := .ofFin (w := 4) rs1) ?_,
    congrArg BitVec.toFin (a₂ := .ofFin (w := 4) rs2) ?_, congrArg BitVec.toFin (a₂ := .ofFin (w := 4) rs3) ?_,
    congrArg BitVec.toFin (a₂ := .ofFin (w := 4) rs4) ?_⟩
  all_goals
    repeat rw [BitVec.extractLsb'_append_eq_of_le (by decide)]
    exact BitVec.extractLsb'_append_eq_right

@[simp] theorem fields_encodeS :
    fieldRd (encodeS op rd rs1 shamt) = rd ∧ fieldRs1 (encodeS op rd rs1 shamt) = rs1 ∧
    fieldShamt (encodeS op rd rs1 shamt) = shamt := by
  unfold encodeS
  refine ⟨congrArg BitVec.toFin (a₂ := .ofFin (w := 4) rd) ?_, congrArg BitVec.toFin (a₂ := .ofFin (w := 4) rs1) ?_, ?_⟩
  · rw [BitVec.extractLsb'_append_eq_of_le (by decide)]
    exact BitVec.extractLsb'_append_eq_right
  · rw [BitVec.extractLsb'_append_eq_of_le (by decide), BitVec.extractLsb'_append_eq_of_le (by decide)]
    exact BitVec.extractLsb'_append_eq_right
  · rw [fieldShamt, BitVec.extractLsb'_append_eq_of_le (by decide), BitVec.extractLsb'_append_eq_of_le (by decide)]
    exact BitVec.extractLsb'_append_eq_left

end

/-! ## The word with given fields -/

section
variable {c m : Word} {op : BitVec 8} {rd rs1 rs2 rs3 rs4 : Reg}

/-- A word whose bits 31:28 are zero is the one of format R made from its own fields. -/
theorem encodeR_eq (hz : c.extractLsb' 28 4 = 0) (hop : fieldOp c = op) (hrd : fieldRd c = rd) (hrs1 : fieldRs1 c = rs1)
    (hrs2 : fieldRs2 c = rs2) (hrs3 : fieldRs3 c = rs3) (hrs4 : fieldRs4 c = rs4) :
    encodeR op rd rs1 rs2 rs3 rs4 = c := by
  subst hop hrd hrs1 hrs2 hrs3 hrs4
  show 0#4 ++ c.extractLsb' 24 4 ++ c.extractLsb' 20 4 ++ c.extractLsb' 16 4 ++ c.extractLsb' 12 4 ++ c.extractLsb' 8 4
    ++ c.extractLsb' 0 8 = c
  rw [← show c.extractLsb' 28 4 = 0#4 from hz]
  repeat rw [BitVec.extractLsb'_append_extractLsb'_eq_extractLsb' (by rfl)]
  exact BitVec.extractLsb'_eq_self

/-- Every word is the one of format S made from its own fields. -/
theorem encodeS_eq (hop : fieldOp c = op) : encodeS op (fieldRd c) (fieldRs1 c) (fieldShamt c) = c := by
  subst hop
  show c.extractLsb' 16 16 ++ c.extractLsb' 12 4 ++ c.extractLsb' 8 4 ++ c.extractLsb' 0 8 = c
  repeat rw [BitVec.extractLsb'_append_extractLsb'_eq_extractLsb' (by rfl)]
  exact BitVec.extractLsb'_eq_self

/-- The bits that a mask keeps are those of the pattern. -/
theorem extractLsb'_of_and {p : Word} {start len : Nat} (h : c &&& m = p)
    (hm : m.extractLsb' start len = BitVec.allOnes len) : c.extractLsb' start len = p.extractLsb' start len := by
  rw [← h, BitVec.extractLsb'_and, hm, BitVec.and_allOnes]

theorem fieldOp_of_and (h : c &&& m = op.setWidth 32) (hm : fieldOp m = 0xFF := by rfl) : fieldOp c = op :=
  calc fieldOp c
    _ = (op.setWidth 32).extractLsb' 0 8 := extractLsb'_of_and h hm
    _ = op := by rw [BitVec.extractLsb'_setWidth_of_le (by decide), BitVec.extractLsb'_eq_self]

/-- A field above the opcode that the mask keeps must be zero. -/
theorem extractLsb'_eq_zero_of_and {start len : Nat} (h : c &&& m = op.setWidth 32) (hs : 8 ≤ start := by decide)
    (hm : m.extractLsb' start len = BitVec.allOnes len := by rfl) : c.extractLsb' start len = 0 := by
  rw [extractLsb'_of_and h hm]
  ext k hk
  simp [BitVec.getLsbD_of_ge op (start + k) (by omega)]

theorem reg_eq_zero_of_and {start : Nat} (h : c &&& m = op.setWidth 32) (hs : 8 ≤ start := by decide)
    (hm : m.extractLsb' start 4 = BitVec.allOnes 4 := by rfl) : (c.extractLsb' start 4).toFin = (0 : Reg) :=
  congrArg BitVec.toFin (extractLsb'_eq_zero_of_and h hs hm)

end

/-! ## The operand shapes of the opcode map (R60)

For each mask of the map: a word that the mask takes to an opcode is made from that opcode and the fields the mask leaves
free. -/

section
variable {c : Word} {op : BitVec 8}

theorem encodeR_noOperand (h : c &&& 0xFFFFFFFF = op.setWidth 32) : encodeR op 0 0 0 0 0 = c :=
  encodeR_eq (extractLsb'_eq_zero_of_and h) (fieldOp_of_and h)
    (reg_eq_zero_of_and h) (reg_eq_zero_of_and h) (reg_eq_zero_of_and h) (reg_eq_zero_of_and h) (reg_eq_zero_of_and h)

theorem encodeR_rd (h : c &&& 0xFFFFF0FF = op.setWidth 32) : encodeR op (fieldRd c) 0 0 0 0 = c :=
  encodeR_eq (extractLsb'_eq_zero_of_and h) (fieldOp_of_and h) rfl
    (reg_eq_zero_of_and h) (reg_eq_zero_of_and h) (reg_eq_zero_of_and h) (reg_eq_zero_of_and h)

theorem encodeR_rd_rs1 (h : c &&& 0xFFFF00FF = op.setWidth 32) : encodeR op (fieldRd c) (fieldRs1 c) 0 0 0 = c :=
  encodeR_eq (extractLsb'_eq_zero_of_and h) (fieldOp_of_and h) rfl rfl
    (reg_eq_zero_of_and h) (reg_eq_zero_of_and h) (reg_eq_zero_of_and h)

theorem encodeR_rs1_rs2 (h : c &&& 0xFFF00FFF = op.setWidth 32) : encodeR op 0 (fieldRs1 c) (fieldRs2 c) 0 0 = c :=
  encodeR_eq (extractLsb'_eq_zero_of_and h) (fieldOp_of_and h)
    (reg_eq_zero_of_and h) rfl rfl (reg_eq_zero_of_and h) (reg_eq_zero_of_and h)

theorem encodeR_rd_rs1_rs2 (h : c &&& 0xFFF000FF = op.setWidth 32) :
    encodeR op (fieldRd c) (fieldRs1 c) (fieldRs2 c) 0 0 = c :=
  encodeR_eq (extractLsb'_eq_zero_of_and h) (fieldOp_of_and h) rfl rfl rfl
    (reg_eq_zero_of_and h) (reg_eq_zero_of_and h)

theorem encodeR_rd_rs1_rs2_rs3 (h : c &&& 0xFF0000FF = op.setWidth 32) :
    encodeR op (fieldRd c) (fieldRs1 c) (fieldRs2 c) (fieldRs3 c) 0 = c :=
  encodeR_eq (extractLsb'_eq_zero_of_and h) (fieldOp_of_and h) rfl rfl rfl rfl
    (reg_eq_zero_of_and h)

theorem encodeR_rd_rd2_rd3 (h : c &&& 0xF00FF0FF = op.setWidth 32) :
    encodeR op (fieldRd c) 0 0 (fieldRs3 c) (fieldRs4 c) = c :=
  encodeR_eq (extractLsb'_eq_zero_of_and h) (fieldOp_of_and h) rfl
    (reg_eq_zero_of_and h) (reg_eq_zero_of_and h) rfl rfl

theorem encodeR_allOperands (h : c &&& 0xF00000FF = op.setWidth 32) :
    encodeR op (fieldRd c) (fieldRs1 c) (fieldRs2 c) (fieldRs3 c) (fieldRs4 c) = c :=
  encodeR_eq (extractLsb'_eq_zero_of_and h) (fieldOp_of_and h) rfl rfl rfl rfl rfl

theorem encodeS_rd_rs1_shamt (h : c &&& 0x000000FF = op.setWidth 32) :
    encodeS op (fieldRd c) (fieldRs1 c) (fieldShamt c) = c :=
  encodeS_eq (fieldOp_of_and h)

end

/-! ## Rows of the opcode map -/

/-- A word that a row accepts is the encoding of the command the row builds from it. -/
theorem encode_build {r : OpcodeRow} {c : Word} (hr : r ∈ opcodeRows) (h : c &&& r.mask = r.pattern) :
    encode (r.build c) = c := by
  revert r
  simp only [opcodeRows, opcodeRowsLow, opcodeRowsMid, opcodeRowsHigh, List.forall_mem_append, List.forall_mem_cons]
  refine ⟨⟨⟨?nop, ?ldi, ?mov, ?add, ?sub, ?neg, ?cmp, ?shl, ?shr, nofun⟩,
    ?mul, ?div, ?rem, ?divrem, ?mu, ?bred, ?modmul, ?modpow, nofun⟩,
    ?gcd, ?extgcd, ?modinv, ?randbits, ?mrtest, ?genprime, ?keygen, ?sign, ?verify, nofun⟩
  case nop => exact fun h => encodeR_noOperand h
  case cmp => exact fun h => encodeR_rs1_rs2 h
  case keygen => exact fun h => encodeR_rd_rd2_rd3 h
  case shl | shr => exact fun h => encodeS_rd_rs1_shamt h
  case ldi | randbits | genprime => exact fun h => encodeR_rd h
  case mov | neg | mu | mrtest => exact fun h => encodeR_rd_rs1 h
  case add | sub | mul | div | rem | gcd | modinv => exact fun h => encodeR_rd_rs1_rs2 h
  case divrem | bred | modmul | modpow | sign => exact fun h => encodeR_rd_rs1_rs2_rs3 h
  case extgcd | verify => exact fun h => encodeR_allOperands h

/-- The row that a command's encoding selects builds the command again. -/
theorem build_encode {i : Instr} {r : OpcodeRow} (h : rowOf (fieldOp (encode i)) = some r) : r.build (encode i) = i := by
  cases i with
  | shl | shr =>
    rw [encode, Laws.fieldOp_encodeS] at h
    cases h
    simp [encode]
  | _ =>
    rw [encode, Laws.fieldOp_encodeR] at h
    cases h
    simp [encode]

section
open Laws

/-- The family of `Sys2Proof/Laws/PerInstr.lean`, over all commands. -/
theorem encode_selectsRow : ∀ i : Instr, EncodeSelectsRow.Statement i
  | .nop => EncodeSelectsRow.nop
  | .ldi .. => EncodeSelectsRow.ldi ..
  | .mov .. => EncodeSelectsRow.mov ..
  | .add .. => EncodeSelectsRow.add ..
  | .sub .. => EncodeSelectsRow.sub ..
  | .neg .. => EncodeSelectsRow.neg ..
  | .cmp .. => EncodeSelectsRow.cmp ..
  | .shl .. => EncodeSelectsRow.shl ..
  | .shr .. => EncodeSelectsRow.shr ..
  | .mul .. => EncodeSelectsRow.mul ..
  | .div .. => EncodeSelectsRow.div ..
  | .rem .. => EncodeSelectsRow.rem ..
  | .divrem .. => EncodeSelectsRow.divrem ..
  | .mu .. => EncodeSelectsRow.mu ..
  | .bred .. => EncodeSelectsRow.bred ..
  | .modmul .. => EncodeSelectsRow.modmul ..
  | .modpow .. => EncodeSelectsRow.modpow ..
  | .gcd .. => EncodeSelectsRow.gcd ..
  | .extgcd .. => EncodeSelectsRow.extgcd ..
  | .modinv .. => EncodeSelectsRow.modinv ..
  | .randbits .. => EncodeSelectsRow.randbits ..
  | .mrtest .. => EncodeSelectsRow.mrtest ..
  | .genprime .. => EncodeSelectsRow.genprime ..
  | .keygen .. => EncodeSelectsRow.keygen ..
  | .sign .. => EncodeSelectsRow.sign ..
  | .verify .. => EncodeSelectsRow.verify ..

end

theorem rowOf_mem {op : BitVec 8} {r : OpcodeRow} (h : rowOf op = some r) : r ∈ opcodeRows := List.mem_of_find?_eq_some h

/-- A word that a row accepts has the row's opcode: every mask keeps bits 7:0. -/
theorem fieldOp_eq_of_accepts {r : OpcodeRow} {c : Word} (hr : r ∈ opcodeRows) (h : c &&& r.mask = r.pattern) :
    fieldOp c = fieldOp r.pattern := by
  have hmask : ∀ a ∈ opcodeRows, fieldOp a.mask = 0xFF := by decide
  exact extractLsb'_of_and h (hmask r hr)

/-! ## Decoding -/

/-- What a word needs to decode to a command. -/
theorem decode_eq_ok_iff {c : Word} {i : Instr} :
    decode c = .ok i ↔
      ∃ r, rowOf (fieldOp c) = some r ∧ c &&& r.mask = r.pattern ∧ r.build c = i ∧ i.wellFormed = true := by
  unfold decode
  cases rowOf (fieldOp c) with
  | none => simp
  | some r =>
    simp only [Option.some.injEq, exists_eq_left']
    split
    · next hm =>
      split
      · next hw =>
        simp only [Except.ok.injEq, hm, true_and]
        exact ⟨fun h => ⟨h, h ▸ hw⟩, And.left⟩
      · next hw =>
        refine iff_of_false nofun ?_
        rintro ⟨-, rfl, h⟩
        exact hw h
    · next hm => exact iff_of_false nofun fun h => hm h.1

theorem decode_eq_reservedOpcode_iff {c : Word} : decode c = .error .reservedOpcode ↔ rowOf (fieldOp c) = none := by
  unfold decode
  cases rowOf (fieldOp c) with
  | none => simp
  | some r =>
    refine iff_of_false ?_ nofun
    dsimp only
    split_ifs <;> exact nofun

/-- The opcodes that R62 lists as reserved are the ones without a row. -/
theorem rowOf_eq_none_iff (op : BitVec 8) :
    rowOf op = none ↔
      (0x03 ≤ op.toNat ∧ op.toNat ≤ 0x0F) ∨ (0x16 ≤ op.toNat ∧ op.toNat ≤ 0x17) ∨
      (0x19 ≤ op.toNat ∧ op.toNat ≤ 0x1B) ∨ op.toNat = 0x1F ∨
      (0x24 ≤ op.toNat ∧ op.toNat ≤ 0x27) ∨ (0x2B ≤ op.toNat ∧ op.toNat ≤ 0x2F) ∨
      (0x33 ≤ op.toNat ∧ op.toNat ≤ 0x37) ∨ 0x3B ≤ op.toNat := by
  rw [← Option.isNone_iff_eq_none]
  revert op
  decide

theorem toNat_fieldOp (c : Word) : (fieldOp c).toNat = c.toNat % 256 := by
  simp [fieldOp]

/-- Settles O1: the encoding selects a row that accepts it, and that row builds the command again. -/
theorem decodeOfEncodeIsTheCommand : Obligations.DecodeOfEncodeIsTheCommand := by
  intro i hw
  obtain ⟨r, hr, hm⟩ := encode_selectsRow i
  exact decode_eq_ok_iff.2 ⟨r, hr, hm, build_encode hr, hw⟩

/-- Settles O2: the row that accepts the word builds a command whose encoding is the word. -/
theorem acceptedWordIsItsCommandsEncoding : Obligations.AcceptedWordIsItsCommandsEncoding := by
  intro c i h
  obtain ⟨r, hr, hm, rfl, hw⟩ := decode_eq_ok_iff.1 h
  exact ⟨encode_build (rowOf_mem hr) hm, hw⟩

/-- Settles O3: the opcodes of the rows are pairwise different, and a reserved opcode is one without a row. -/
theorem decodingIsUnambiguousAndReserved : Obligations.DecodingIsUnambiguousAndReserved := by
  intro c
  have hdistinct : opcodeRows.Pairwise fun a b => fieldOp a.pattern ≠ fieldOp b.pattern := by decide
  constructor
  · refine hdistinct.imp_of_mem ?_
    rintro a b ha hb hne ⟨hca, hcb⟩
    exact hne ((fieldOp_eq_of_accepts ha hca).symm.trans (fieldOp_eq_of_accepts hb hcb))
  · rw [decode_eq_reservedOpcode_iff, rowOf_eq_none_iff, toNat_fieldOp]

/-- Settles O4: each word is decoded by computation. -/
theorem writtenOutWordsDecode : Obligations.WrittenOutWordsDecode := by
  and_intros <;> rfl

end Sys2Proof

/-! ## The latched word (R61) -/

namespace Sys2Proof.Machine

/-- A latched word that is no command ends the command in progress with EILLEGAL. -/
theorem engineComplete_illegal {s : State} {e : DecodeError} (hb : s.status.busy = true)
    (hd : decode s.latched = .error e) : engineComplete s = .next (s.raise .illegal) :=
  (engineComplete_busy hb).trans (runWord_error hd s)

/-- It needs no random word, so that a draw takes none. -/
theorem engineDraw_illegal {s : State} {e : DecodeError} (hb : s.status.busy = true)
    (hd : decode s.latched = .error e) : engineDraw s = .next s := by
  have hrun : runWord s.latched s = .next (s.raise .illegal) := runWord_error hd s
  have hneed : wordsNeeded s = 0 := (wordsNeeded_of_next hrun).trans (Nat.sub_self _)
  rw [engineDraw_busy hb hrun, hneed, if_neg (Nat.not_lt_zero _)]

theorem raise_illegal_failedTo (s : State) : s.failedTo (s.raise .illegal) 1 s.rng := rfl

/-- Settles O6: the engine's completion raises EILLEGAL, and its draw leaves the state as it is. -/
theorem illegalWordCompletesWithEillegal : Obligations.IllegalWordCompletesWithEillegal := by
  intro s rest e hb hd
  refine ⟨fun ha => ?_, fun ha => ?_, fun ha => ?_⟩
  · exact ⟨_, (step_event ha).trans (engineComplete_illegal hb hd), raise_illegal_failedTo _⟩
  · exact ⟨_, (step_empty ha).trans (engineComplete_illegal hb hd), raise_illegal_failedTo _⟩
  · exact (step_event ha).trans (engineDraw_illegal hb hd)

end Sys2Proof.Machine

/-! PROOF. The results of the data movement commands (R67-R69). -/

namespace Sys2Proof.Machine

/-- A command that only writes registers completes with them, STATUS merely done and the random port where it was (R33). -/
theorem finish_writes (s : State) (ws : List (Reg × Big)) (hn : (ws.map Prod.fst).Nodup) :
    ∃ t, finish s (.ok { writes := ws }) = .next t ∧ s.completedTo t ws s.status.doneOk s.rng := by
  rw [← completed_writes s.status ws]
  exact ⟨_, rfl, completedTo_commit s s.rng { writes := ws } hn⟩

/-- The encoded constant is the 64-bit pattern with its sign extended: both are the pattern of one integer (R29, R68). -/
theorem enc_sval64 (arg1 arg0 : Word) : enc (sval64 arg1 arg0) = (arg1 ++ arg0 : BitVec 64).signExtend 1600 := rfl

/-- A register wholly written is the pattern it holds with every written bit set, so that writing its own value to it
changes no register (R22, R69). -/
theorem State.completedTo.x_eq_of_self {s t : State} {r : Reg} {st : Status} {g : Rng}
    (h : s.completedTo t [(r, s.val r)] st g) (hr : s.readable [r] = true) : t.x = s.x := by
  obtain ⟨hwritten, hother, -⟩ := h
  have hall : (s.reg r).written = BitVec.allOnes 50 := (readable_iff s [r]).1 hr r List.mem_cons_self
  have hself : t.reg r = s.reg r := (hwritten _ List.mem_cons_self).trans (by rw [← hall, State.val])
  refine State.x_ext fun q => ?_
  by_cases hq : q = r
  · rw [hq, hself]
  · exact hother q (by simpa using hq)

/-- Settles O13: NOP writes no register, LDI its sign-extended constant and MOV the pattern of its source. -/
theorem dataMovementResults : Obligations.DataMovementResults := by
  intro rd rs1 s
  refine ⟨?_, ?_, fun hr => ?_⟩
  · rw [exec, execNop]
    exact finish_writes s [] List.nodup_nil
  · rw [exec, execLdi, oneWrite, enc_sval64]
    exact finish_writes s _ (List.nodup_singleton rd)
  · rw [exec, execMov, withSources_of_readable hr]
    obtain ⟨t, ht, hc⟩ := finish_writes s [(rd, s.val rs1)] (List.nodup_singleton rd)
    refine ⟨t, ht, hc, ?_⟩
    rintro rfl
    exact hc.x_eq_of_self hr

end Sys2Proof.Machine

/-! PROOF. The results of the adder, the shifter and the multiplier with their overflow flag, and the datapaths of the
adder and the shifter (R70-R74, R76, R77, R79). -/

namespace Sys2Proof.Machine

set_option exponentiation.threshold 2000

/-! ## Wrapped results and the overflow flag (R71) -/

theorem not_fits (v : Int) : (!fits v) = overflows v := by
  rw [overflows, Bool.eq_iff_iff, Bool.not_eq_true', ← Bool.not_eq_true, fits_iff, decide_eq_true_iff]
  omega

@[simp] theorem enc_state_sval (s : State) (r : Reg) : enc (s.sval r) = s.val r := enc_sval _

/-- A command that writes one register and reports whether the integer `v` overflows completes with just that: OVF is
sticky, the random port stays where it was (R33, R71). -/
theorem finish_overflow (s : State) (rd : Reg) (u : Big) (v : Int) :
    ∃ t, finish s (.ok { writes := [(rd, u)], ovf := !fits v }) = .next t ∧
      s.completedTo t [(rd, u)] { s.status.doneOk with ovf := s.status.ovf || overflows v } s.rng := by
  rw [← not_fits]
  exact ⟨_, rfl, completedTo_commit s s.rng _ (List.nodup_singleton rd)⟩

/-- A wrapped result, its pattern under another name. -/
theorem finish_wrapped (s : State) (rd : Reg) {u : Big} {v : Int} (h : enc v = u) :
    ∃ t, finish s (.ok (wrapped rd v)) = .next t ∧
      s.completedTo t [(rd, u)] { s.status.doneOk with ovf := s.status.ovf || overflows v } s.rng := by
  rw [wrapped, h]
  exact finish_overflow s rd u v

/-! ## ADD, SUB and NEG -/

/-- The one value whose negation does not fit is the least one (R74). -/
theorem overflows_neg_sval (u : Big) : overflows (-sval u) = decide (sval u = -2 ^ 1599) := by
  obtain ⟨hlo, hhi⟩ := (fits_iff _).1 (fits_sval u)
  exact decide_eq_decide.2 (by omega)

/-- Settles O14: `enc` carries sums, differences and negations of integers to those of patterns. -/
theorem addSubNegWrapAndFlagOverflow : Obligations.AddSubNegWrapAndFlagOverflow := by
  intro rd rs1 rs2 s
  refine ⟨fun hr => ⟨?_, ?_⟩, fun hr => ?_⟩
  · rw [exec, execAdd, withSources_of_readable hr]
    exact finish_wrapped s rd (by rw [enc_add, enc_state_sval, enc_state_sval])
  · rw [exec, execSub, withSources_of_readable hr]
    exact finish_wrapped s rd (by rw [enc_sub, enc_state_sval, enc_state_sval])
  · rw [exec, execNeg, withSources_of_readable hr, State.sval, ← overflows_neg_sval]
    exact finish_wrapped s rd (by rw [enc_neg, enc_sval, State.val])

/-! ## SHL and SHR -/

theorem enc_two_pow (n : Nat) : enc (2 ^ n) = BitVec.twoPow 1600 n := by
  rw [← Nat.cast_two, ← Nat.cast_pow, enc_natCast]
  exact BitVec.eq_of_toNat_eq (by rw [BitVec.toNat_ofNat, BitVec.toNat_twoPow])

/-- Settles O16: a left shift is the product with the encoded power of two. -/
theorem shlShiftsAndFlagsOverflow : Obligations.ShlShiftsAndFlagsOverflow := by
  intro rd rs1 n s hr
  rw [exec, execShl, withSources_of_readable hr]
  exact finish_wrapped s rd (by rw [enc_mul, enc_state_sval, enc_two_pow, BitVec.shiftLeft_eq_mul_twoPow])

theorem enc_sval_div_two_pow (u : Big) (n : Nat) : enc (sval u / 2 ^ n) = u.sshiftRight n := by
  rw [BitVec.sshiftRight, Int.shiftRight_eq_div_pow, Nat.cast_pow, Nat.cast_ofNat, enc, sval]

/-- Settles O17: the arithmetic shift is the floor quotient by the power of two. -/
theorem shrShiftsArithmetically : Obligations.ShrShiftsArithmetically := by
  intro rd rs1 n s hr
  rw [exec, execShr, withSources_of_readable hr, oneWrite, State.sval, enc_sval_div_two_pow]
  exact finish_writes s _ (List.nodup_singleton rd)

/-! ## MUL -/

/-- The sign-magnitude rule (R79): the product of the magnitudes, negated where the signs differ. -/
theorem signed_natAbs_mul (a b : Int) :
    (if xor (decide (a < 0)) (decide (b < 0)) then -((a.natAbs : Int) * b.natAbs) else (a.natAbs : Int) * b.natAbs)
      = a * b := by
  rcases Int.lt_or_le a 0 with ha | ha <;> rcases Int.lt_or_le b 0 with hb | hb
  · simp [ha, hb, abs_of_neg]
  · simp [ha, hb, abs_of_neg, abs_of_nonneg, Int.not_lt.2]
  · simp [ha, hb, abs_of_neg, abs_of_nonneg, Int.not_lt.2]
  · simp [ha, hb, abs_of_nonneg, Int.not_lt.2]

/-- Modulo `2^1600` nothing is lost on the way through the magnitudes, that of `-2^1599` included. -/
theorem mulSigned_eq (u v : Big) : mulSigned u v = u * v := by
  have hmag : enc ((uval (enc (sval u).natAbs) * uval (enc (sval v).natAbs) : Nat) : Int)
      = enc ((sval u).natAbs * (sval v).natAbs) := by
    rw [Nat.cast_mul, enc_mul, enc_uval, enc_uval, ← enc_mul]
  calc mulSigned u v
      = enc (if xor (decide (sval u < 0)) (decide (sval v < 0)) then
          -((sval u).natAbs * (sval v).natAbs : Int) else (sval u).natAbs * (sval v).natAbs) := by
        simp only [mulSigned, hmag]
        split
        · rw [enc_neg, enc_uval, enc_neg]
        · rfl
    _ = u * v := by rw [signed_natAbs_mul, enc_mul, enc_sval, enc_sval]

/-- Settles O19, by the sign-magnitude rule. -/
theorem mulWrapsAndFlagsOverflow : Obligations.MulWrapsAndFlagsOverflow := by
  intro rd rs1 rs2 s hr
  rw [exec, execMul, withSources_of_readable hr, mulSigned_eq]
  exact finish_overflow s rd _ _

/-! ## The datapaths of the adder and the shifter -/

/-- The low `n` result words and the carry out of them spell the sum of the operands' low `n` words and the carry in. -/
theorem addWordsUpTo_spec (u v : Big) (cin n : Nat) :
    (addWordsUpTo u v cin n).1 + Config.radix ^ n * (addWordsUpTo u v cin n).2
      = uval u % Config.radix ^ n + uval v % Config.radix ^ n + cin := by
  induction n with
  | zero => simp [addWordsUpTo, Nat.mod_one]
  | succ n ih =>
    rw [Nat.pow_succ, Nat.mod_mul, Nat.mod_mul, ← wordAt_toNat, ← wordAt_toNat, addWordsUpTo]
    generalize addWordsUpTo u v cin n = r at *
    have ht := Nat.mod_add_div ((wordAt u n).toNat + (wordAt v n).toNat + r.2) Config.radix
    linear_combination ih + Config.radix ^ n * ht

/-- The carry out of word 49 has weight `2^1600`, so that dropping it keeps the sum modulo `2^1600` (R70). -/
theorem addWords_eq (u v : Big) (cin : Nat) : addWords u v cin = u + v + BitVec.ofNat 1600 cin := by
  have hweight : Config.radix ^ 50 = 2 ^ 1600 := (Nat.pow_mul 2 32 50).symm
  have hsum := addWordsUpTo_spec u v cin 50
  rw [Nat.mod_eq_of_lt (uval_lt u), Nat.mod_eq_of_lt (uval_lt v), hweight] at hsum
  apply BitVec.eq_of_toNat_eq
  rw [addWords, BitVec.toNat_ofNat, ← Nat.add_mul_mod_self_left, hsum]
  simp [uval]

theorem shlChunks_eq {fuel n : Nat} (u : Big) (h : n ≤ fuel) : shlChunks fuel u n = u <<< n := by
  induction fuel generalizing u n with
  | zero => rw [Nat.le_zero.1 h, shlChunks, BitVec.shiftLeft_zero]
  | succ fuel ih =>
    rw [shlChunks]
    split
    · next hn => rw [hn, BitVec.shiftLeft_zero]
    · rw [ih _ (by omega), ← BitVec.shiftLeft_add, Nat.add_sub_cancel' (Nat.min_le_left n 32)]

theorem shrChunks_eq {fuel n : Nat} (u : Big) (h : n ≤ fuel) : shrChunks fuel u n = u.sshiftRight n := by
  induction fuel generalizing u n with
  | zero => rw [Nat.le_zero.1 h, shrChunks, BitVec.sshiftRight_zero]
  | succ fuel ih =>
    rw [shrChunks]
    split
    · next hn => rw [hn, BitVec.sshiftRight_zero]
    · rw [ih _ (by omega), ← BitVec.sshiftRight_add, Nat.add_sub_cancel' (Nat.min_le_left n 32)]

/-- Settles O18: the carry chain adds, subtraction adds the complement with a carry in, and shifts by chunks add up. -/
theorem adderAndShifterDatapathsAreExact : Obligations.AdderAndShifterDatapathsAreExact := by
  intro u v c n
  refine ⟨addWords_eq u v c.toNat, ?_, shlChunks_eq u (Nat.le_succ n), shrChunks_eq u (Nat.le_succ n)⟩
  rw [addWords_eq, BitVec.add_assoc, BitVec.sub_eq_add_neg, BitVec.neg_eq_not_add]

end Sys2Proof.Machine

/-! PROOF. The schoolbook multiplier (R78). -/

namespace Sys2Proof.Machine

/-! ## The words of a pattern and their value -/

theorem wordsValue_eq_ofDigits (ws : List Nat) : wordsValue ws = Nat.ofDigits Config.radix ws := by
  induction ws with
  | nil => rfl
  | cons w ws ih => rw [wordsValue, ih, Nat.ofDigits_cons]

theorem wordsValue_append_singleton (ws : List Nat) (w : Nat) :
    wordsValue (ws ++ [w]) = wordsValue ws + Config.radix ^ ws.length * w := by
  simp only [wordsValue_eq_ofDigits, Nat.ofDigits_append, Nat.ofDigits_singleton]

theorem wordsValue_replicate_zero (n : Nat) : wordsValue (List.replicate n 0) = 0 := by
  rw [wordsValue_eq_ofDigits, Nat.ofDigits_replicate_zero]

theorem wordsValue_lowWords (u : Big) (n : Nat) :
    wordsValue ((List.range n).map fun j => (wordAt u j).toNat) = uval u % Config.radix ^ n := by
  induction n with
  | zero => simp [wordsValue, Nat.mod_one]
  | succ n ih =>
    rw [List.range_succ, List.map_append, List.map_singleton, wordsValue_append_singleton, ih, List.length_map,
      List.length_range, wordAt_toNat, Nat.pow_succ, Nat.mod_mul]

/-- The significant words hold the whole pattern, a negative one included (R9). -/
theorem uval_lt_radix_pow_len (u : Big) : uval u < Config.radix ^ len u := by
  by_cases hn : isNeg u = true
  · rw [len, if_pos hn]
    exact uval_lt u
  · exact uval_lt_pow_len (Bool.eq_false_of_not_eq_true hn)

theorem wordsValue_sigWords (u : Big) : wordsValue (sigWords u) = uval u := by
  rw [sigWords, wordsValue_lowWords, Nat.mod_eq_of_lt (uval_lt_radix_pow_len u)]

/-! ## The rows of the product -/

theorem mulRow_ne_nil (pi : Nat) (q r : List Nat) (c : Nat) : mulRow pi q r c ≠ [] := by
  cases q <;> cases r <;> simp [mulRow]

/-- A row writes its last carry over the word above `q`. Where the partial product is zero from that word on, the carry is
not lost: the row adds `pi * q`, and the words above the carry are zero again. -/
theorem mulRow_spec (pi : Nat) (q r : List Nat) (c : Nat) (hr : wordsValue (r.drop q.length) = 0) :
    wordsValue (mulRow pi q r c) = wordsValue r + pi * wordsValue q + c ∧
      wordsValue ((mulRow pi q r c).drop (q.length + 1)) = 0 := by
  induction q, r, c using mulRow.induct pi with
  | case1 c => simp [mulRow, wordsValue]
  | case2 r rs c =>
    obtain ⟨hr0, hrs⟩ : r = 0 ∧ wordsValue rs = 0 := by simpa [wordsValue, Config.radix] using hr
    simp [mulRow, wordsValue, hr0, hrs]
  | case3 q qs c ih =>
    obtain ⟨hvalue, habove⟩ := ih (by simp [wordsValue])
    refine ⟨?_, by simpa [mulRow] using habove⟩
    have hdigit := Nat.mod_add_div (pi * q + c) Config.radix
    simp only [mulRow, wordsValue, hvalue]
    linear_combination hdigit
  | case4 q qs r rs c ih =>
    obtain ⟨hvalue, habove⟩ := ih (by simpa using hr)
    refine ⟨?_, by simpa [mulRow] using habove⟩
    have hdigit := Nat.mod_add_div (r + pi * q + c) Config.radix
    simp only [mulRow, wordsValue, hvalue]
    linear_combination hdigit

/-- Row by row the partial product gains `p * q`; each row leaves the next one the zero words it needs. -/
theorem mulRows_value (q p r : List Nat) (hr : wordsValue (r.drop q.length) = 0) :
    wordsValue (mulRows q p r) = wordsValue r + wordsValue p * wordsValue q := by
  induction p generalizing r with
  | nil => simp [mulRows, wordsValue]
  | cons pi ps ih =>
    obtain ⟨w, rs, hrow⟩ := List.exists_cons_of_ne_nil (mulRow_ne_nil pi q r 0)
    obtain ⟨hvalue, habove⟩ := mulRow_spec pi q r 0 hr
    rw [hrow, wordsValue] at hvalue
    rw [hrow, List.drop_succ_cons] at habove
    simp only [mulRows, hrow, wordsValue, ih rs habove]
    linear_combination hvalue

/-- Settles O20: from zero words the rows build the exact product of the patterns, which dropping the words above 49
reduces modulo `2^1600`. -/
theorem schoolbookMultiplierIsExact : Obligations.SchoolbookMultiplierIsExact := by
  intro p q
  have hzero : wordsValue ((List.replicate (len p + len q) 0).drop (sigWords q).length) = 0 := by
    rw [List.drop_replicate, wordsValue_replicate_zero]
  rw [mulMag, mulRows_value _ _ _ hzero, wordsValue_replicate_zero, wordsValue_sigWords, wordsValue_sigWords, Nat.zero_add]
  apply BitVec.eq_of_toNat_eq
  rw [BitVec.toNat_ofNat, BitVec.toNat_mul, uval, uval]

end Sys2Proof.Machine

/-! PROOF. The division commands: the pair they write and the errors they raise (R80, R82-R84). -/

namespace Sys2Proof.Machine

set_option exponentiation.threshold 2000

/-! ## The cases of DivMod (R80) -/

theorem divMod_zero (a : Int) : divMod a 0 = .error .divZero := if_pos rfl

theorem divMod_of_lt {a b : Int} (h0 : b ≠ 0) (h : a < b) : divMod a b = .ok (0, a) := by
  rw [divMod, if_neg h0, if_pos h]

theorem divMod_of_neg {a b : Int} (hb : b < 0) (h : b ≤ a) : divMod a b = .error .domain := by
  rw [divMod, if_neg (by omega), if_neg (by omega), if_pos hb]

theorem divMod_of_le {a b : Int} (hb : 0 < b) (h : b ≤ a) : divMod a b = .ok (a / b, a % b) := by
  rw [divMod, if_neg (by omega), if_neg (by omega), if_neg (by omega)]

/-- A number between 0 and one that fits a register fits it too (R82). -/
theorem fits_of_nonneg_of_le {a v : Int} (ha : fits a = true) (h0 : 0 ≤ v) (hv : v ≤ a) : fits v = true := by
  obtain ⟨-, hhi⟩ := (fits_iff a).1 ha
  exact (fits_iff v).2 ⟨by omega, by omega⟩

/-! ## The commands over DivMod -/

section
variable {s : State} {rs1 rs2 : Reg} (hr : s.readable [rs1, rs2] = true)
include hr

theorem exec_div (rd : Reg) : exec (.div rd rs1 rs2) s =
    finish s ((divMod (s.sval rs1) (s.sval rs2)).map fun qr => oneWrite rd qr.1) := by
  rw [exec, execDiv, withSources_of_readable hr]

theorem exec_rem (rd : Reg) : exec (.rem rd rs1 rs2) s =
    finish s ((divMod (s.sval rs1) (s.sval rs2)).map fun qr => oneWrite rd qr.2) := by
  rw [exec, execRem, withSources_of_readable hr]

theorem exec_divrem {rd rd2 : Reg} (hn : rd ≠ rd2) : exec (.divrem rd rs1 rs2 rd2) s =
    finish s ((divMod (s.sval rs1) (s.sval rs2)).map fun qr =>
      { writes := [(rd, enc qr.1), (rd2, enc qr.2)] }) := by
  rw [exec, execDivrem, if_neg hn, withSources_of_readable hr]

/-- An error of DivMod is the outcome of each division command (R82-R84). -/
theorem exec_of_divMod_error {rd rd2 : Reg} {i : Instr} {e : ErrCode} (hn : rd ≠ rd2)
    (hi : i = .div rd rs1 rs2 ∨ i = .rem rd rs1 rs2 ∨ i = .divrem rd rs1 rs2 rd2)
    (h : divMod (s.sval rs1) (s.sval rs2) = .error e) :
    ∃ t, exec i s = .next t ∧ s.failedTo t (errCodeBits e) s.rng := by
  obtain rfl | rfl | rfl := hi
  · rw [exec_div hr, h]
    exact ⟨_, rfl, rfl⟩
  · rw [exec_rem hr, h]
    exact ⟨_, rfl, rfl⟩
  · rw [exec_divrem hr hn, h]
    exact ⟨_, rfl, rfl⟩

end

/-- A completed command's integer reads back from its destination where it fits. -/
theorem State.completedTo.sval_eq {s t : State} {ws : List (Reg × Big)} {st : Status} {g : Rng} {r : Reg} {v : Int}
    (h : s.completedTo t ws st g) (hm : (r, enc v) ∈ ws) (hv : fits v = true) : t.sval r = v := by
  obtain ⟨hwritten, -⟩ := h
  rw [State.sval, State.val, hwritten _ hm, sval_enc hv]

/-- A command whose one result fits completes with it, and it reads back. -/
theorem finish_oneWrite (s : State) (rd : Reg) {v : Int} (hv : fits v = true) :
    ∃ t, finish s (.ok (oneWrite rd v)) = .next t ∧ s.completedTo t [(rd, enc v)] s.status.doneOk s.rng ∧
      t.sval rd = v := by
  obtain ⟨t, ht, hc⟩ := finish_writes s [(rd, enc v)] (List.nodup_singleton rd)
  exact ⟨t, ht, hc, hc.sval_eq List.mem_cons_self hv⟩

/-- The pair of DivMod is what the division commands write (R82-R84). -/
theorem exec_of_divMod_ok {s : State} {rd rd2 rs1 rs2 : Reg} {q r : Int} (hr : s.readable [rs1, rs2] = true)
    (hn : rd ≠ rd2) (h : divMod (s.sval rs1) (s.sval rs2) = .ok (q, r)) (hq : fits q = true) (hrem : fits r = true) :
    (∃ t, exec (.div rd rs1 rs2) s = .next t ∧ s.completedTo t [(rd, enc q)] s.status.doneOk s.rng ∧ t.sval rd = q) ∧
    (∃ t, exec (.rem rd rs1 rs2) s = .next t ∧ s.completedTo t [(rd, enc r)] s.status.doneOk s.rng ∧ t.sval rd = r) ∧
    (∃ t, exec (.divrem rd rs1 rs2 rd2) s = .next t ∧
      s.completedTo t [(rd, enc q), (rd2, enc r)] s.status.doneOk s.rng) := by
  rw [exec_div hr, exec_rem hr, exec_divrem hr hn, h]
  exact ⟨finish_oneWrite s rd hq, finish_oneWrite s rd hrem, finish_writes s _ (by simpa using hn)⟩

/-- Settles O21: below the divisor the pair is `(0, A)`, else the floor pair, whose parts lie between 0 and `A`. -/
theorem divisionWritesQuotientAndRemainder : Obligations.DivisionWritesQuotientAndRemainder := by
  intro rd rd2 rs1 rs2 s hr hn h0 hb
  have hA : fits (s.sval rs1) = true := fits_sval _
  by_cases hlt : s.sval rs1 < s.sval rs2
  · refine ⟨0, s.sval rs1, by omega, fun _ => rfl, fun hle => absurd hlt (by omega), ?_⟩
    exact exec_of_divMod_ok hr hn (divMod_of_lt h0 hlt) (by simp [fits_iff]) hA
  · have hpos : 0 < s.sval rs2 := by omega
    have hle : s.sval rs2 ≤ s.sval rs1 := by omega
    have hr0 := Int.emod_nonneg (s.sval rs1) h0
    have hrlt := Int.emod_lt_of_pos (s.sval rs1) hpos
    refine ⟨s.sval rs1 / s.sval rs2, s.sval rs1 % s.sval rs2, Int.ediv_mul_add_emod _ _,
      fun hlt' => absurd hlt' hlt, fun _ => ⟨hr0, hrlt⟩, ?_⟩
    have hq : fits (s.sval rs1 / s.sval rs2) = true :=
      fits_of_nonneg_of_le hA (Int.ediv_nonneg (by omega) hpos.le) (Int.ediv_le_self _ (by omega))
    exact exec_of_divMod_ok hr hn (divMod_of_le hpos hle) hq (fits_of_nonneg_of_le hA hr0 (by omega))

/-- Settles O22: the two errors of DivMod, EDIVZERO (2) and EDOMAIN (3). -/
theorem divisionRejectsBadDivisors : Obligations.DivisionRejectsBadDivisors := by
  intro rd rd2 rs1 rs2 s i hr hn hi
  constructor
  · intro h0
    exact exec_of_divMod_error hr hn hi (by rw [h0, divMod_zero])
  · intro hneg hle
    exact exec_of_divMod_error hr hn hi (divMod_of_neg hneg hle)

end Sys2Proof.Machine

/-! PROOF. The Knuth divider (R81): its words, its short path, its quotient digits and its multi-word path. -/

namespace Sys2Proof.Machine

/-! ## The words and the length of a natural number -/

theorem radix_pos : 0 < Config.radix := by decide

theorem natWord_lt (v j : Nat) : natWord v j < Config.radix := Nat.mod_lt _ radix_pos

theorem natWord_top {v k : Nat} (h : v < Config.radix ^ (k + 1)) : natWord v k = v / Config.radix ^ k :=
  Nat.mod_eq_of_lt (Nat.div_lt_of_lt_mul h)

/-- The words from `k` on are those from `k + 1` on with word `k` below them. -/
theorem div_radix_pow_succ (v k : Nat) :
    v / Config.radix ^ (k + 1) * Config.radix + natWord v k = v / Config.radix ^ k := by
  rw [Nat.pow_succ, ← Nat.div_div_eq_div_mul, natWord, Nat.div_add_mod']

theorem topTwoWords {v k : Nat} (h : v < Config.radix ^ (k + 2)) :
    natWord v (k + 1) * Config.radix + natWord v k = v / Config.radix ^ k := by
  rw [natWord_top h, div_radix_pow_succ]

theorem natLen_le_iff {k : Nat} (v : Nat) (hk : 1 ≤ k) : natLen v ≤ k ↔ v < Config.radix ^ k := by
  have hbits : bitLength v ≤ 32 * k ↔ v < Config.radix ^ k := by rw [bitLength_le_iff, Nat.pow_mul, Config.radix]
  rw [natLen, ← hbits]
  omega

theorem lt_radix_pow_natLen (v : Nat) : v < Config.radix ^ natLen v :=
  (natLen_le_iff v (Nat.le_max_left _ _)).1 le_rfl

theorem natLen_mono {u v : Nat} (h : v ≤ u) : natLen v ≤ natLen u :=
  (natLen_le_iff v (Nat.le_max_left _ _)).2 (h.trans_lt (lt_radix_pow_natLen u))

/-! ## Long division -/

/-- Long division leaves the remainder of the high part above the low part. -/
theorem longDivision_step (t b l d : Nat) :
    t / d * b + (t % d * b + l) / d = (t * b + l) / d ∧ (t % d * b + l) % d = (t * b + l) % d := by
  have hsplit : t * b + l = t % d * b + l + d * (t / d * b) := by
    have hdigit := Nat.mod_add_div t d
    linear_combination b * -hdigit
  obtain rfl | hd := Nat.eq_zero_or_pos d
  · simp
  · rw [hsplit, Nat.add_mul_div_left _ _ hd, Nat.add_mul_mod_self_left]
    exact ⟨Nat.add_comm _ _, rfl⟩

theorem divShort_zero (u d q r : Nat) : divShort u d 0 q r = (q, r) := rfl

/-- Taken from the definition's unfolding: on the equation Lean makes for this case the kernel counts through the radix. -/
theorem divShort_succ (u d j q r : Nat) :
    divShort u d (j + 1) q r = divShort u d j (q * Config.radix + (r * Config.radix + natWord u j) / d)
      ((r * Config.radix + natWord u j) % d) := by
  rw [divShort.eq_def]

/-- The single-word path divides what its remainder and the words still to come spell. -/
theorem divShort_eq {u d r : Nat} (j q : Nat) (hr : r < d) :
    divShort u d j q r = (q * Config.radix ^ j + (r * Config.radix ^ j + u % Config.radix ^ j) / d,
      (r * Config.radix ^ j + u % Config.radix ^ j) % d) := by
  induction j generalizing q r with
  | zero => simp [divShort_zero, Nat.mod_one, Nat.div_eq_of_lt hr, Nat.mod_eq_of_lt hr]
  | succ j ih =>
    have hwords : r * Config.radix ^ (j + 1) + u % Config.radix ^ (j + 1) =
        (r * Config.radix + natWord u j) * Config.radix ^ j + u % Config.radix ^ j := by
      rw [Nat.mod_pow_succ, natWord]
      ring
    obtain ⟨hquot, hrem⟩ := longDivision_step (r * Config.radix + natWord u j) (Config.radix ^ j) (u % Config.radix ^ j) d
    rw [divShort_succ, ih _ (Nat.mod_lt _ (Nat.zero_lt_of_lt hr)), hwords, hrem, ← hquot, Nat.pow_succ', ← Nat.add_assoc,
      Nat.add_mul, Nat.mul_assoc]

/-! ## The estimate of a quotient digit

`vt` and `vs` are the divisor's two top words, `num` the two top words of the dividend's slice and `us` its third. That the
divisor is normalized only bounds how often the estimate is corrected: it is exact in the words it looks at for any
nonzero `vt`. -/

/-- The exact quotient of the slice's three top words by the divisor's two, capped below the radix. -/
def digitEstimate (vt vs num us : Nat) : Nat :=
  min (Config.radix - 1) ((num * Config.radix + us) / (vt * Config.radix + vs))

theorem le_digitEstimate_iff {vt : Nat} (hvt : 0 < vt) (vs num us p : Nat) :
    p ≤ digitEstimate vt vs num us ↔
      p < Config.radix ∧ p * (vt * Config.radix + vs) ≤ num * Config.radix + us := by
  have hdivisor : 0 < vt * Config.radix + vs := Nat.add_pos_left (Nat.mul_pos hvt radix_pos) vs
  rw [digitEstimate, le_min_iff, Nat.le_div_iff_mul_le hdivisor, Nat.le_sub_one_iff_lt radix_pos]

/-- A digit whose partial remainder is no longer a word is not above the estimate. -/
theorem le_digitEstimate_of_radix_le {vt vs num p rhat : Nat} (us : Nat) (hvt : 0 < vt) (hvs : vs < Config.radix)
    (hnum : num ≤ vt * Config.radix + vs) (hpr : p * vt + rhat = num) (hrhat : Config.radix ≤ rhat) :
    p ≤ digitEstimate vt vs num us := by
  have hp : p < Config.radix := Nat.lt_of_mul_lt_mul_right (a := vt) (by linarith)
  have hprod : p * vs ≤ rhat * Config.radix := by
    calc p * vs ≤ Config.radix * Config.radix := Nat.mul_le_mul hp.le hvs.le
      _ ≤ rhat * Config.radix := Nat.mul_le_mul_right _ hrhat
  refine (le_digitEstimate_iff hvt vs num us p).2 ⟨hp, ?_⟩
  rw [← hpr]
  linarith

/-- The correction ends at the estimate from any start that is not below it: its test is whether the digit is above it. -/
theorem correctDigit_eq {vt vs num us fuel qhat rhat : Nat} (hvt : 0 < vt) (hvs : vs < Config.radix)
    (hnum : num ≤ vt * Config.radix + vs) (hqr : qhat * vt + rhat = num) (hfuel : qhat ≤ fuel)
    (hlo : digitEstimate vt vs num us ≤ qhat) :
    correctDigit vt vs us fuel qhat rhat = digitEstimate vt vs num us := by
  induction fuel generalizing qhat rhat with
  | zero =>
    rw [correctDigit]
    omega
  | succ fuel ih =>
    have hslice : num * Config.radix + us = qhat * vt * Config.radix + (rhat * Config.radix + us) := by
      rw [← hqr]
      ring
    have htest : qhat ≤ digitEstimate vt vs num us ↔
        ¬(Config.radix ≤ qhat ∨ rhat * Config.radix + us < qhat * vs) := by
      rw [le_digitEstimate_iff hvt, hslice, Nat.mul_add, ← Nat.mul_assoc, Nat.add_le_add_iff_left]
      omega
    rw [correctDigit]
    split
    next habove =>
      obtain ⟨p, rfl⟩ : ∃ p, qhat = p + 1 := Nat.exists_eq_succ_of_ne_zero (by omega)
      have hlo' : digitEstimate vt vs num us ≤ p := by omega
      have hqr' : p * vt + (rhat + vt) = num := by linarith
      rw [Nat.add_sub_cancel]
      split
      next hstop => exact le_antisymm (le_digitEstimate_of_radix_le us hvt hvs hnum hqr' hstop) hlo'
      next => exact ih hqr' (by omega) hlo'
    next hexact => exact le_antisymm (htest.2 hexact) hlo

/-- The quotient of the top words alone, where the correction starts, is not below the estimate. -/
theorem digitEstimate_le_div {vt us : Nat} (hvt : 0 < vt) (hus : us < Config.radix) (vs num : Nat) :
    digitEstimate vt vs num us ≤ num / vt := by
  obtain ⟨-, hle⟩ := (le_digitEstimate_iff hvt vs num us _).1 le_rfl
  refine (Nat.le_div_iff_mul_le hvt).2 (Nat.le_of_lt_succ (Nat.lt_of_mul_lt_mul_right (a := Config.radix) ?_))
  calc digitEstimate vt vs num us * vt * Config.radix
      ≤ digitEstimate vt vs num us * (vt * Config.radix + vs) := by
        rw [Nat.mul_add, Nat.mul_assoc]
        exact Nat.le_add_right _ _
    _ ≤ num * Config.radix + us := hle
    _ < (num + 1) * Config.radix := by rw [Nat.add_one_mul]; omega

/-- The estimate is the digit itself or one above it: `b` is the place of the divisor's second word, below which neither
number's words are looked at. -/
theorem digitEstimate_bounds {x v b vt vs num us : Nat} (hb : 0 < b) (hvt : 0 < vt)
    (hv : vt * Config.radix + vs = v / b) (hx : num * Config.radix + us = x / b) (hdigit : x / v < Config.radix) :
    x / v ≤ digitEstimate vt vs num us ∧ digitEstimate vt vs num us ≤ x / v + 1 := by
  constructor
  · rw [le_digitEstimate_iff hvt, hv, hx, Nat.le_div_iff_mul_le hb]
    refine ⟨hdigit, ?_⟩
    calc x / v * (v / b) * b = x / v * (v / b * b) := Nat.mul_assoc _ _ _
      _ ≤ x / v * v := Nat.mul_le_mul_left _ (Nat.div_mul_le_self v b)
      _ ≤ x := Nat.div_mul_le_self x v
  · obtain ⟨hcap, hle⟩ := (le_digitEstimate_iff hvt vs num us _).1 le_rfl
    rw [hv, hx] at hle
    have hv0 : 0 < v := Nat.pos_of_div_pos (hv ▸ Nat.add_pos_left (Nat.mul_pos hvt radix_pos) vs)
    generalize digitEstimate vt vs num us = p at hcap hle
    obtain _ | p := p
    · exact Nat.zero_le _
    have hpv : p ≤ v / b := by
      calc p ≤ Config.radix := (Nat.lt_of_succ_lt hcap).le
        _ ≤ vt * Config.radix + vs := Nat.le_add_right_of_le (Nat.le_mul_of_pos_left _ hvt)
        _ = v / b := hv
    refine Nat.succ_le_succ ((Nat.le_div_iff_mul_le hv0).2 ?_)
    calc p * v ≤ p * (b * (v / b + 1)) := Nat.mul_le_mul_left p (Nat.lt_mul_div_succ v hb).le
      _ = (p * (v / b) + p) * b := by ring
      _ ≤ (p * (v / b) + v / b) * b := Nat.mul_le_mul_right b (Nat.add_le_add_left hpv _)
      _ = (p + 1) * (v / b) * b := by rw [Nat.add_one_mul]
      _ ≤ x / b * b := Nat.mul_le_mul_right b hle
      _ ≤ x := Nat.div_mul_le_self x b

/-! ## The digits of the multi-word path -/

/-- The trial subtraction is negative exactly where the estimate is one above the digit, and the add-back mends it. -/
theorem trialSubtraction_exact {x v qhat : Nat} (hle : x / v ≤ qhat) (hge : qhat ≤ x / v + 1) (hv : 0 < v) :
    (if x < qhat * v then (qhat - 1, x + v - qhat * v) else (qhat, x - qhat * v)) = (x / v, x % v) := by
  obtain rfl | rfl : qhat = x / v ∨ qhat = x / v + 1 := by omega
  · rw [if_neg (Nat.not_lt.2 (Nat.div_mul_le_self x v)), Nat.mod_eq_sub_div_mul]
  · rw [if_pos (Nat.mul_comm v _ ▸ Nat.lt_mul_div_succ x hv), Nat.add_sub_cancel, Nat.add_one_mul,
      Nat.add_sub_add_right, Nat.mod_eq_sub_div_mul]

section
/-! One digit: the dividend `un` has no more words than the slice of word `j` holds, and its quotient there is one word. -/

variable {un vn m j : Nat} (hhi : vn < Config.radix ^ (m + 2)) (hun : un < vn * Config.radix ^ (j + 1))
include hun

theorem slice_lt : un / Config.radix ^ j < vn * Config.radix := by
  rwa [Nat.div_lt_iff_lt_mul (Nat.pow_pos radix_pos), Nat.mul_assoc, ← Nat.pow_succ']

/-- The slice's two top words are not above the divisor's. -/
theorem sliceTop_le : un / Config.radix ^ (j + m + 1) ≤ vn / Config.radix ^ m := by
  rw [Nat.add_right_comm, Nat.pow_add, ← Nat.div_div_eq_div_mul]
  exact Nat.div_le_div_right (Nat.div_lt_of_lt_mul (Nat.mul_comm vn _ ▸ hun)).le

include hhi

theorem slice_lt_pow : un / Config.radix ^ j < Config.radix ^ (m + 3) := by
  rw [Nat.pow_succ]
  exact (slice_lt hun).trans_le (Nat.mul_le_mul_right _ hhi.le)

theorem topTwoWords_slice :
    natWord un (j + m + 2) * Config.radix + natWord un (j + m + 1) = un / Config.radix ^ (j + m + 1) := by
  have hlt := slice_lt_pow hhi hun
  rw [Nat.div_lt_iff_lt_mul (Nat.pow_pos radix_pos), ← Nat.pow_add, Nat.add_comm, ← Nat.add_assoc] at hlt
  exact topTwoWords hlt

/-- A digit and the slice that remains are exact. -/
theorem divDigit_eq (hlo : Config.radix ^ (m + 1) ≤ vn) :
    divDigit un vn (m + 2) j = (un / Config.radix ^ j / vn, un / Config.radix ^ j % vn) := by
  have hpow (k : Nat) : 0 < Config.radix ^ k := Nat.pow_pos radix_pos
  have hvt : 0 < natWord vn (m + 1) := natWord_top hhi ▸ Nat.div_pos hlo (hpow _)
  have hdivisor := topTwoWords hhi
  have hnum := topTwoWords_slice hhi hun
  have hslice : (natWord un (j + m + 2) * Config.radix + natWord un (j + m + 1)) * Config.radix + natWord un (j + m) =
      un / Config.radix ^ j / Config.radix ^ m := by
    rw [hnum, div_radix_pow_succ, Nat.pow_add, Nat.div_div_eq_div_mul]
  have htop : natWord un (j + m + 2) * Config.radix + natWord un (j + m + 1) ≤
      natWord vn (m + 1) * Config.radix + natWord vn m := by
    rw [hnum, hdivisor]
    exact sliceTop_le hun
  have hestimate := correctDigit_eq hvt (natWord_lt vn m) htop (Nat.div_add_mod' _ _) le_rfl
    (digitEstimate_le_div hvt (natWord_lt un (j + m)) _ _)
  obtain ⟨hle, hge⟩ := digitEstimate_bounds (hpow m) hvt hdivisor hslice (Nat.div_lt_of_lt_mul (slice_lt hun))
  simp only [divDigit, ← Nat.add_assoc, Nat.add_sub_cancel, Nat.add_succ_sub_one, hestimate,
    Nat.mod_eq_of_lt (slice_lt_pow hhi hun)]
  exact trialSubtraction_exact hle hge (lt_of_lt_of_le (hpow _) hlo)

end

theorem divDigits_zero (vn n un q : Nat) : divDigits vn n 0 un q = (q, un) := rfl

/-- From the definition's unfolding, as for the short path. -/
theorem divDigits_succ (vn n j un q : Nat) :
    divDigits vn n (j + 1) un q =
      divDigits vn n j ((divDigit un vn n j).2 * Config.radix ^ j + un % Config.radix ^ j)
        (q * Config.radix + (divDigit un vn n j).1) := by
  rw [divDigits.eq_def]

/-- The digits still to come divide the dividend that remains. -/
theorem divDigits_eq {vn m j un : Nat} (q : Nat) (hhi : vn < Config.radix ^ (m + 2)) (hlo : Config.radix ^ (m + 1) ≤ vn)
    (hun : un < vn * Config.radix ^ j) :
    divDigits vn (m + 2) j un q = (q * Config.radix ^ j + un / vn, un % vn) := by
  induction j generalizing un q with
  | zero =>
    have hun : un < vn := by simpa using hun
    simp [divDigits_zero, Nat.div_eq_of_lt hun, Nat.mod_eq_of_lt hun]
  | succ j ih =>
    have hvn : 0 < vn := lt_of_lt_of_le (Nat.pow_pos radix_pos) hlo
    have hrest : un / Config.radix ^ j % vn * Config.radix ^ j + un % Config.radix ^ j < vn * Config.radix ^ j := by
      have hlow := Nat.mod_lt un (Nat.pow_pos (n := j) radix_pos)
      have hhigh := Nat.mul_le_mul_right (Config.radix ^ j) (Nat.mod_lt (un / Config.radix ^ j) hvn)
      rw [Nat.succ_mul] at hhigh
      omega
    obtain ⟨hquot, hrem⟩ := longDivision_step (un / Config.radix ^ j) (Config.radix ^ j) (un % Config.radix ^ j) vn
    rw [Nat.div_add_mod'] at hquot hrem
    rw [divDigits_succ, divDigit_eq hhi hun hlo, ih _ hrest, hrem, ← hquot, Nat.pow_succ', ← Nat.add_assoc, Nat.add_mul,
      Nat.mul_assoc]

/-- Shifting the divisor by the leading zeros of its top word keeps its length. -/
theorem normalized_lt {v m : Nat} (hv : v < Config.radix ^ (m + 2)) :
    v * 2 ^ (32 - bitLength (natWord v (m + 1))) < Config.radix ^ (m + 2) := by
  have htop := lt_two_pow_bitLength (natWord v (m + 1))
  have hbits : bitLength (natWord v (m + 1)) ≤ 32 := (bitLength_le_iff _ _).2 (natWord_lt v (m + 1))
  nth_rw 1 [natWord_top hv, Nat.div_lt_iff_lt_mul (Nat.pow_pos radix_pos)] at htop
  calc v * 2 ^ (32 - bitLength (natWord v (m + 1)))
      < 2 ^ bitLength (natWord v (m + 1)) * Config.radix ^ (m + 1) * 2 ^ (32 - bitLength (natWord v (m + 1))) :=
        Nat.mul_lt_mul_of_pos_right htop (Nat.two_pow_pos _)
    _ = 2 ^ (bitLength (natWord v (m + 1)) + (32 - bitLength (natWord v (m + 1)))) * Config.radix ^ (m + 1) := by ring
    _ = Config.radix ^ (m + 2) := by rw [Nat.add_sub_cancel' hbits, Config.radix, ← Nat.pow_succ']

/-! ## Both paths -/

theorem divMag_of_short {u v : Nat} (hv : 0 < v) (h : natLen v = 1) : divMag u v = (u / v, u % v) := by
  simp only [divMag, h, if_true, divShort_eq _ _ hv, Nat.zero_mul, Nat.zero_add, Nat.mod_eq_of_lt (lt_radix_pow_natLen u)]

theorem divMag_of_long {u v m : Nat} (hvu : v ≤ u) (h : natLen v = m + 2) : divMag u v = (u / v, u % v) := by
  have hhi : v < Config.radix ^ (m + 2) := h ▸ lt_radix_pow_natLen v
  have hlo : Config.radix ^ (m + 1) ≤ v := by
    rw [← Nat.not_lt, ← natLen_le_iff v (by omega)]
    omega
  have hlen : m + 2 ≤ natLen u := h ▸ natLen_mono hvu
  have hu : u < v * Config.radix ^ (natLen u - (m + 2) + 1) := by
    calc u < Config.radix ^ natLen u := lt_radix_pow_natLen u
      _ = Config.radix ^ (m + 1) * Config.radix ^ (natLen u - (m + 2) + 1) := by rw [← Nat.pow_add]; congr 1; omega
      _ ≤ v * Config.radix ^ (natLen u - (m + 2) + 1) := Nat.mul_le_mul_right _ hlo
  have hs : 0 < 2 ^ (32 - bitLength (natWord v (m + 1))) := Nat.two_pow_pos _
  have hun := Nat.mul_lt_mul_of_pos_right hu hs
  rw [Nat.mul_right_comm] at hun
  simp only [divMag, h, Nat.add_succ_sub_one,
    divDigits_eq 0 (normalized_lt hhi) (hlo.trans (Nat.le_mul_of_pos_right v hs)) hun]
  rw [if_neg (by omega), Nat.zero_mul, Nat.zero_add, Nat.mul_div_mul_right _ _ hs, Nat.mul_mod_mul_right,
    Nat.mul_div_cancel _ hs]

/-- Settles O23: both paths are long division; the multi-word one divides the operands shifted alike. -/
theorem knuthDividerIsExact : Obligations.KnuthDividerIsExact := by
  intro u v hv hvu
  match h : natLen v with
  | 0 => exact absurd h (by simp [natLen])
  | 1 => exact divMag_of_short hv h
  | m + 2 => exact divMag_of_long hvu h

end Sys2Proof.Machine

/-! PROOF. The commands of the Barrett unit: their checks in order, and the results of MU, BRED, MODMUL, MODPOW and SIGN
(R85-R93, R108, R113). -/

namespace Sys2Proof.Machine

set_option exponentiation.threshold 2000

/-! ## The checks (R89-R93) -/

theorem raiseIf_bind {α : Type} (c : Bool) (e : ErrCode) (f : Unit → Except ErrCode α) :
    (raiseIf c e >>= f) = if c then .error e else f () := by
  cases c <;> rfl

/-- The checks that all commands of the Barrett unit share, on the modulus `n` and the integers `a` and `b` of the other
operands, before the outcome `v` (R85, R113). -/
def modulusChecked (n : Big) (a b : Int) (v : Except ErrCode Nat) : Except ErrCode Nat :=
  if sval n = 0 then .error .divZero
  else if sval n < 0 ∨ a < 0 ∨ b < 0 then .error .domain
  else if 24 < len n then .error .cap
  else v

theorem muValue_eq (n : Big) : muValue n = modulusChecked n 0 0 (.ok (muConst (sval n).toNat)) := by
  simp only [muValue, raiseIf_bind, decide_eq_true_eq, modulusChecked, Int.lt_irrefl, or_false]
  rfl

theorem bredValue_eq (x n mu : Big) : bredValue x n mu = modulusChecked n (sval x) (sval mu)
    (if (sval x).toNat ≥ Config.radix ^ (2 * len n) ∨ (sval mu).toNat > Config.radix ^ (len n + 1) then .error .domain
      else barrettCore (sval x).toNat (sval n).toNat (sval mu).toNat (len n)) := by
  simp only [bredValue, raiseIf_bind, decide_eq_true_eq]
  rfl

theorem modmulValue_eq (a b n : Big) : modmulValue a b n = modulusChecked n (sval a) (sval b)
    (barrettCore ((sval a).toNat % (sval n).toNat * ((sval b).toNat % (sval n).toNat)) (sval n).toNat
      (muConst (sval n).toNat) (len n)) := by
  simp only [modmulValue, raiseIf_bind, decide_eq_true_eq]
  rfl

/-- MODPOW checks the modulus and the other operands apart, with the one error for both. -/
theorem modpowValue_eq (a e n : Big) : modpowValue a e n = modulusChecked n (sval a) (sval e)
    (modPowCore (sval a).toNat (sval e).toNat (sval n).toNat) := by
  simp only [modpowValue, raiseIf_bind, decide_eq_true_eq, modulusChecked]
  by_cases hn : sval n < 0
  · simp only [hn, if_true, true_or]
  · simp only [hn, if_false, false_or]
    rfl

theorem modulusChecked_of_valid {n : Big} {a b : Int} (h0 : 0 < sval n) (ha : 0 ≤ a) (hb : 0 ≤ b) (hl : len n ≤ 24)
    (v : Except ErrCode Nat) : modulusChecked n a b v = v := by
  rw [modulusChecked, if_neg (by omega), if_neg (by omega), if_neg (by omega)]

/-! ## Completion -/

/-- The completion of a command that writes the number `v` to `rd`, or ends with its error. -/
def finishNat (s : State) (rd : Reg) (v : Except ErrCode Nat) : Host.Outcome State Fault Refusal :=
  finish s (v.map fun (m : Nat) => oneWrite rd m)

theorem finishNat_ok (s : State) (rd : Reg) {v : Int} {r : Except ErrCode Nat} (h : r = .ok v.toNat) (hv : 0 ≤ v) :
    ∃ t, finishNat s rd r = .next t ∧ s.completedTo t [(rd, enc v)] s.status.doneOk s.rng := by
  rw [h, finishNat, Except.map, Int.toNat_of_nonneg hv]
  exact finish_writes s _ (List.nodup_singleton rd)

theorem finishNat_error (s : State) (rd : Reg) {e : ErrCode} {r : Except ErrCode Nat} (h : r = .error e) :
    ∃ t, finishNat s rd r = .next t ∧ s.failedTo t (errCodeBits e) s.rng := by
  rw [h]
  exact ⟨_, rfl, rfl⟩

/-- The errors of the shared checks, in their order (R113). -/
theorem exec_modulusErrors {i : Instr} {s : State} {rd : Reg} {n : Big} {a b : Int} {r v : Except ErrCode Nat}
    (hi : exec i s = finishNat s rd r) (hr : r = modulusChecked n a b v) :
    (sval n = 0 → ∃ t, exec i s = .next t ∧ s.failedTo t 2 s.rng) ∧
    (sval n ≠ 0 → (sval n < 0 ∨ a < 0 ∨ b < 0) → ∃ t, exec i s = .next t ∧ s.failedTo t 3 s.rng) ∧
    (0 < sval n → 0 ≤ a → 0 ≤ b → 24 < len n → ∃ t, exec i s = .next t ∧ s.failedTo t 4 s.rng) := by
  rw [hi, hr, modulusChecked]
  refine ⟨fun h0 => ?_, fun h0 hneg => ?_, fun h0 ha hb hl => ?_⟩
  · exact finishNat_error s rd (if_pos h0)
  · exact finishNat_error s rd ((if_neg h0).trans (if_pos hneg))
  · exact finishNat_error s rd ((if_neg (by omega)).trans ((if_neg (by omega)).trans (if_pos hl)))

theorem exec_mu {s : State} {rs1 : Reg} (rd : Reg) (hr : s.readable [rs1] = true) :
    exec (.mu rd rs1) s = finishNat s rd (muValue (s.val rs1)) := by
  rw [exec, execMu, withSources_of_readable hr, finishNat]

section
variable {s : State} {rs1 rs2 rs3 : Reg} (hr : s.readable [rs1, rs2, rs3] = true)
include hr

theorem exec_bred (rd : Reg) :
    exec (.bred rd rs1 rs2 rs3) s = finishNat s rd (bredValue (s.val rs1) (s.val rs2) (s.val rs3)) := by
  rw [exec, execBred, withSources_of_readable hr, finishNat]

theorem exec_modmul (rd : Reg) :
    exec (.modmul rd rs1 rs2 rs3) s = finishNat s rd (modmulValue (s.val rs1) (s.val rs2) (s.val rs3)) := by
  rw [exec, execModmul, withSources_of_readable hr, finishNat]

/-- SIGN is MODPOW (R108). -/
theorem exec_modpow_or_sign {rd : Reg} {i : Instr} (hi : i = .modpow rd rs1 rs2 rs3 ∨ i = .sign rd rs1 rs2 rs3) :
    exec i s = finishNat s rd (modpowValue (s.val rs1) (s.val rs2) (s.val rs3)) := by
  obtain rfl | rfl := hi
  · rw [exec, execModpow, withSources_of_readable hr, finishNat]
  · rw [exec, execSign, withSources_of_readable hr, finishNat]

end

/-! ## Registers as natural numbers -/

theorem natCast_radix_pow (k : Nat) : ((Config.radix ^ k : Nat) : Int) = (2 ^ 32) ^ k := Nat.cast_pow _ _

theorem toNat_sval_lt (u : Big) : (sval u).toNat < 2 ^ 1599 := by
  have := ((fits_iff _).1 (fits_sval u)).2
  omega

theorem enc_toNat_sval {u : Big} (h : 0 ≤ sval u) : enc ((sval u).toNat : Int) = u := by
  rw [Int.toNat_of_nonneg h, enc_sval]

/-- A positive register lies between the powers of the radix that its length names (R9). -/
theorem len_bounds {u : Big} (h : 0 < sval u) :
    Config.radix ^ (len u - 1) ≤ (sval u).toNat ∧ (sval u).toNat < Config.radix ^ len u := by
  have hb := len_enc_bounds (n := (sval u).toNat) (by omega) (toNat_sval_lt u)
  rwa [enc_toNat_sval h.le] at hb

/-! ## MU -/

theorem muConst_toNat_sval {n : Big} (h : 0 ≤ sval n) :
    muConst (sval n).toNat = Config.radix ^ (2 * len n) / (sval n).toNat := by
  rw [muConst, enc_toNat_sval h]

/-- The Barrett constant as an integer (R86). -/
theorem natCast_muConst {n : Big} (h : 0 ≤ sval n) :
    (muConst (sval n).toNat : Int) = (2 ^ 32) ^ (2 * len n) / sval n := by
  rw [muConst_toNat_sval h, Int.natCast_div, natCast_radix_pow, Int.toNat_of_nonneg h]

/-- The constant has at most one word more than its modulus (R87). -/
theorem muConst_le {n : Big} (h0 : 0 < sval n) : muConst (sval n).toNat ≤ Config.radix ^ (len n + 1) := by
  have hk := len_pos n
  rw [muConst_toNat_sval h0.le]
  calc Config.radix ^ (2 * len n) / (sval n).toNat
      ≤ Config.radix ^ (2 * len n) / Config.radix ^ (len n - 1) :=
        Nat.div_le_div_left (len_bounds h0).1 (Nat.pow_pos radix_pos)
    _ = Config.radix ^ (len n + 1) := by rw [Nat.pow_div (by omega) radix_pos]; congr 1; omega

theorem fits_muConst {n : Big} (h0 : 0 < sval n) (hl : len n ≤ 24) : fits (muConst (sval n).toNat) = true := by
  have hlt : muConst (sval n).toNat < 2 ^ 1599 :=
    calc muConst (sval n).toNat
        ≤ Config.radix ^ (len n + 1) := muConst_le h0
      _ ≤ Config.radix ^ 25 := Nat.pow_le_pow_right radix_pos (by omega)
      _ < 2 ^ 1599 := by decide
  rw [fits_iff]
  omega

/-- Settles O24: the constant is written, and it fits a register. -/
theorem muWritesTheBarrettConstant : Obligations.MuWritesTheBarrettConstant := by
  intro rd rs1 s hr h0 hl
  rw [exec_mu rd hr, muValue_eq, modulusChecked_of_valid h0 le_rfl le_rfl hl, State.sval, ← natCast_muConst h0.le]
  obtain ⟨t, ht, hc⟩ := finishNat_ok s rd rfl (Int.natCast_nonneg (muConst (sval (s.val rs1)).toNat))
  exact ⟨t, ht, hc, hc.sval_eq List.mem_cons_self (fits_muConst h0 hl)⟩

/-! ## BRED -/

/-- The core's difference as an integer, with the estimate written out (R87). -/
theorem natCast_barrettDiff (x n mu k : Nat) : (barrettDiff x n mu k : Int) =
    (x - x / (2 ^ 32) ^ (k - 1) * mu / (2 ^ 32) ^ (k + 1) * n) % (2 ^ 32) ^ (k + 1) := by
  have hpow : ((Config.radix ^ (k + 1) : Nat) : Int) ≠ 0 := by exact_mod_cast (Nat.pow_pos radix_pos).ne'
  rw [barrettDiff, Int.toNat_of_nonneg (Int.emod_nonneg _ hpow), barrettQuotient, Int.natCast_mul, Int.natCast_div,
    Int.natCast_mul, Int.natCast_div, natCast_radix_pow, natCast_radix_pow]

section
variable {x n mu : Big} (h0 : 0 < sval n) (hl : len n ≤ 24) (hx0 : 0 ≤ sval x) (hmu0 : 0 ≤ sval mu)
include h0 hl hx0 hmu0

/-- On operands in range BRED is BarrettCore (R90). -/
theorem bredValue_of_range (hx : sval x < (2 ^ 32) ^ (2 * len n)) (hmu : sval mu ≤ (2 ^ 32) ^ (len n + 1)) :
    bredValue x n mu = barrettCore (sval x).toNat (sval n).toNat (sval mu).toNat (len n) := by
  rw [← natCast_radix_pow] at hx hmu
  rw [bredValue_eq, modulusChecked_of_valid h0 hx0 hmu0 hl, if_neg (by omega)]

theorem bredValue_out_of_range (h : (2 ^ 32) ^ (2 * len n) ≤ sval x ∨ (2 ^ 32) ^ (len n + 1) < sval mu) :
    bredValue x n mu = .error .domain := by
  rw [← natCast_radix_pow, ← natCast_radix_pow] at h
  rw [bredValue_eq, modulusChecked_of_valid h0 hx0 hmu0 hl, if_pos (by omega)]

/-- BRED's value depends on BarrettCore's difference alone (R87). -/
theorem bredValue_of_difference (hx : sval x < (2 ^ 32) ^ (2 * len n)) (hmu : sval mu ≤ (2 ^ 32) ^ (len n + 1)) {r : Int}
    (hr : r = (sval x - sval x / (2 ^ 32) ^ (len n - 1) * sval mu / (2 ^ 32) ^ (len n + 1) * sval n) %
      (2 ^ 32) ^ (len n + 1)) :
    bredValue x n mu = if r < 3 * sval n then .ok (r % sval n).toNat else .error .domain := by
  have hd : (barrettDiff (sval x).toNat (sval n).toNat (sval mu).toNat (len n) : Int) = r := by
    rw [hr, natCast_barrettDiff, Int.toNat_of_nonneg hx0, Int.toNat_of_nonneg h0.le, Int.toNat_of_nonneg hmu0]
  rw [bredValue_of_range h0 hl hx0 hmu0 hx hmu, barrettCore_eq _ _ _ _ (by omega), ← hd,
    Int.toNat_emod (Int.natCast_nonneg _) h0.le, Int.toNat_natCast]
  exact if_congr (by omega) rfl rfl

/-- With the exact constant BRED's value is the remainder (R87). -/
theorem bredValue_exact (hx : sval x < (2 ^ 32) ^ (2 * len n)) (hmu : sval mu = (2 ^ 32) ^ (2 * len n) / sval n) :
    bredValue x n mu = .ok (sval x % sval n).toNat := by
  obtain ⟨hlo, hhi⟩ := len_bounds h0
  rw [← natCast_muConst h0.le] at hmu
  have hmu1 : sval mu ≤ (2 ^ 32) ^ (len n + 1) := by
    rw [hmu, ← natCast_radix_pow]
    exact Int.ofNat_le.2 (muConst_le h0)
  rw [bredValue_of_range h0 hl hx0 hmu0 hx hmu1, hmu, Int.toNat_natCast, muConst_toNat_sval h0.le, Int.toNat_emod hx0 h0.le]
  rw [← natCast_radix_pow] at hx
  exact barrettCore_exact (len_pos n) hlo hhi (by omega)

end

/-- Settles O25: BarrettCore with the exact constant is the remainder, and that constant passes BRED's check. -/
theorem bredWithExactConstantIsTheRemainder : Obligations.BredWithExactConstantIsTheRemainder := by
  intro rd rs1 rs2 rs3 s hr h0 hl hx0 hx hmu
  have hmu0 : 0 ≤ s.sval rs3 := hmu ▸ Int.ediv_nonneg (by positivity) h0.le
  rw [exec_bred hr]
  exact finishNat_ok s rd (bredValue_exact h0 hl hx0 hmu0 hx hmu) (Int.emod_nonneg _ h0.ne')

/-- Settles O26: the difference decides, and its quotient by `N` is the number of corrections. -/
theorem bredWithAnyConstantStaysInRange : Obligations.BredWithAnyConstantStaysInRange := by
  intro rd rs1 rs2 rs3 s hr h0 hl hx0 hx hmu0 hmu q3 r0 hq3 hr0
  have hval := bredValue_of_difference h0 hl hx0 hmu0 hx hmu (hq3 ▸ hr0)
  have hr0_nonneg : 0 ≤ r0 := hr0 ▸ Int.emod_nonneg _ (by positivity)
  have hrem : r0 - r0 / s.sval rs2 * s.sval rs2 = r0 % s.sval rs2 := by rw [Int.emod_def, Int.mul_comm]
  rw [exec_bred hr]
  by_cases hlt : r0 < 3 * s.sval rs2
  · obtain ⟨t, ht, hc⟩ := finishNat_ok s rd (hval.trans (if_pos hlt)) (Int.emod_nonneg _ h0.ne')
    have hc2 : r0 / s.sval rs2 < 3 := Int.ediv_lt_of_lt_mul h0 hlt
    refine ⟨t, ht, fun _ => ⟨r0 / s.sval rs2, Int.ediv_nonneg hr0_nonneg h0.le, by omega, ?_⟩, fun hge => by omega⟩
    rw [hrem]
    exact ⟨Int.emod_nonneg _ h0.ne', Int.emod_lt_of_pos _ h0, hc⟩
  · obtain ⟨t, ht, hf⟩ := finishNat_error s rd (hval.trans (if_neg hlt))
    exact ⟨t, ht, fun h => absurd h hlt, fun _ => hf⟩

/-! ## MODMUL, MODPOW and SIGN -/

section
variable {a b n : Big} (h0 : 0 < sval n) (hl : len n ≤ 24) (ha : 0 ≤ sval a) (hb : 0 ≤ sval b)
include h0 hl ha hb

/-- The product of the reduced operands is below `N * N`, where the core is exact (R91). -/
theorem modmulValue_of_valid : modmulValue a b n = .ok (sval a * sval b % sval n).toNat := by
  have hn : 0 < (sval n).toNat := by omega
  have hcore := barrettCore_muConst hn (toNat_sval_lt n)
    (Nat.mul_lt_mul'' (Nat.mod_lt (sval a).toNat hn) (Nat.mod_lt (sval b).toNat hn))
  rw [enc_toNat_sval h0.le, ← Nat.mul_mod] at hcore
  rw [modmulValue_eq, modulusChecked_of_valid h0 ha hb hl, hcore, Int.toNat_emod (Int.mul_nonneg ha hb) h0.le,
    Int.toNat_mul ha hb]

theorem modpowValue_of_valid : modpowValue a b n = .ok (sval a ^ (sval b).toNat % sval n).toNat := by
  rw [modpowValue_eq, modulusChecked_of_valid h0 ha hb hl, modPowCore_eq (by omega) (toNat_sval_lt n),
    Int.toNat_emod (Int.pow_nonneg ha) h0.le, Int.toNat_pow_of_nonneg ha]

end

/-- Settles O27: MODMUL is BarrettCore with the exact constant on a product in its range. -/
theorem modmulIsTheModularProduct : Obligations.ModmulIsTheModularProduct := by
  intro rd rs1 rs2 rs3 s hr h0 hl ha hb
  rw [exec_modmul hr]
  exact finishNat_ok s rd (modmulValue_of_valid h0 hl ha hb) (Int.emod_nonneg _ h0.ne')

/-- Settles O28: both commands are ModPowCore, which is the power modulo `N`. -/
theorem modpowAndSignAreTheModularPower : Obligations.ModpowAndSignAreTheModularPower := by
  intro rd rs1 rs2 rs3 s i hr h0 hl ha he hi
  rw [exec_modpow_or_sign hr hi]
  exact finishNat_ok s rd (modpowValue_of_valid h0 hl ha he) (Int.emod_nonneg _ h0.ne')

/-! ## Operand errors (R113) -/

/-- Settles O29: the shared checks come first in each command, and only BRED has a check of ranges after them. -/
theorem barrettOperandErrorsInOrder : Obligations.BarrettOperandErrorsInOrder := by
  intro rd rs1 rs2 rs3 s
  refine ⟨fun hr => ?_, fun hr => ?_⟩
  · obtain ⟨hzero, hneg, hcap⟩ := exec_modulusErrors (exec_mu rd hr) (muValue_eq _)
    exact ⟨hzero, fun h => hneg h.ne (.inl h), fun h => hcap h le_rfl le_rfl⟩
  · obtain ⟨hzero, hneg, hcap⟩ := exec_modulusErrors (exec_bred hr rd) (bredValue_eq _ _ _)
    refine ⟨hzero, hneg, hcap, fun h0 hx hmu hl hrange => ?_, ?_⟩
    · rw [exec_bred hr]
      exact finishNat_error s rd (bredValue_out_of_range h0 hl hx hmu hrange)
    · rintro i (rfl | hi)
      · exact exec_modulusErrors (exec_modmul hr rd) (modmulValue_eq _ _ _)
      · exact exec_modulusErrors (exec_modpow_or_sign hr hi) (modpowValue_eq _ _ _)

end Sys2Proof.Machine

/-! PROOF. The commands over Euclid's loops: GCD, EXTGCD with the trace of R95, and MODINV (R94-R99). -/

namespace Sys2Proof.Machine

/-! ## The commands over Euclid's loops -/

theorem gcdValue_eq (a b : Int) :
    gcdValue a b = if a < 0 ∨ b < 0 then .error .domain else .ok (euclidCore a.toNat b.toNat) := by
  simp only [gcdValue, raiseIf_bind, decide_eq_true_eq]
  rfl

theorem extgcdValue_eq (a b : Int) :
    extgcdValue a b = if a < 0 ∨ b < 0 then .error .domain else .ok (extEuclidCore a.toNat b.toNat) := by
  simp only [extgcdValue, raiseIf_bind, decide_eq_true_eq]
  rfl

theorem modinvValue_eq (e n : Int) : modinvValue e n =
    if n = 0 then .error .divZero else if n < 0 ∨ e < 0 then .error .domain else modInvCore e.toNat n.toNat := by
  simp only [modinvValue, raiseIf_bind, decide_eq_true_eq]

section
variable {s : State} {rs1 rs2 : Reg} (hr : s.readable [rs1, rs2] = true)
include hr

theorem exec_gcd (rd : Reg) : exec (.gcd rd rs1 rs2) s = finishNat s rd (gcdValue (s.sval rs1) (s.sval rs2)) := by
  rw [exec, execGcd, withSources_of_readable hr, finishNat]

theorem exec_extgcd {rd rd2 rd3 : Reg} (h12 : rd ≠ rd2) (h13 : rd ≠ rd3) (h23 : rd2 ≠ rd3) :
    exec (.extgcd rd rs1 rs2 rd2 rd3) s = finish s ((extgcdValue (s.sval rs1) (s.sval rs2)).map fun v =>
      { writes := [(rd, enc v.1), (rd2, enc v.2.1), (rd3, enc v.2.2)] }) := by
  rw [exec, execExtgcd, if_neg (by simp [h12, h13, h23]), withSources_of_readable hr]

theorem exec_modinv (rd : Reg) : exec (.modinv rd rs1 rs2) s =
    finish s ((modinvValue (s.sval rs1) (s.sval rs2)).map fun v => oneWrite rd v) := by
  rw [exec, execModinv, withSources_of_readable hr]

end

theorem gcd_toNat {a b : Int} (ha : 0 ≤ a) (hb : 0 ≤ b) : Nat.gcd a.toNat b.toNat = Int.gcd a b := by
  rw [← Int.gcd_natCast_natCast, Int.toNat_of_nonneg ha, Int.toNat_of_nonneg hb]

theorem finish_error_failedTo (s : State) (e : ErrCode) :
    ∃ t, finish s (.error e) = .next t ∧ s.failedTo t (errCodeBits e) s.rng := ⟨_, rfl, rfl⟩

/-! ## GCD -/

/-- Settles O30: EuclidCore is the greatest common divisor, and the one check comes before it. -/
theorem gcdIsTheGreatestCommonDivisor : Obligations.GcdIsTheGreatestCommonDivisor := by
  intro rd rs1 rs2 s hr
  rw [exec_gcd hr, gcdValue_eq]
  constructor
  · intro h1 h2
    rw [if_neg (by omega), euclidCore_eq_gcd, gcd_toNat h1 h2]
    exact finishNat_ok s rd rfl (Int.natCast_nonneg _)
  · intro hneg
    exact finishNat_error s rd (if_pos hneg)

/-! ## EXTGCD -/

/-- A remainder of R95 with its coefficients of `a` and `b`. -/
abbrev EuclidRow := Int × Int × Int

/-- The row of a remainder `r` that the engine holds. -/
def euclidRow (r : Nat) (x y : Int) : EuclidRow := (r, x, y)

/-- One turn of R95 on two rows. -/
def euclidTurn (p : EuclidRow × EuclidRow) : EuclidRow × EuclidRow := (p.2, p.1 - (p.1.1 / p.2.1) • p.2)

theorem euclidTurn_euclidRow (r0 r1 : Nat) (s0 s1 t0 t1 : Int) :
    euclidTurn (euclidRow r0 s0 t0, euclidRow r1 s1 t1) = (euclidRow r1 s1 t1,
      euclidRow (r0 % r1) (s0 - (r0 / r1 : Nat) * s1) (t0 - (r0 / r1 : Nat) * t1)) := by
  have hmod : (r0 : Int) - r0 / r1 * r1 = r0 % r1 := by rw [Int.emod_def, Int.mul_comm]
  simp [euclidTurn, euclidRow, hmod]

/-- The loop's result is the row before the first remainder that is 0. -/
theorem extEuclidLoop_eq_iterate (fuel r0 r1 : Nat) (s0 s1 t0 t1 : Int) (h : r1 < fuel) :
    ∃ m, (∀ k, k < m → (euclidTurn^[k] (euclidRow r0 s0 t0, euclidRow r1 s1 t1)).2.1 ≠ 0) ∧
      (euclidTurn^[m] (euclidRow r0 s0 t0, euclidRow r1 s1 t1)).2.1 = 0 ∧
      (euclidTurn^[m] (euclidRow r0 s0 t0, euclidRow r1 s1 t1)).1 =
        euclidRow (extEuclidLoop fuel r0 r1 s0 s1 t0 t1).1 (extEuclidLoop fuel r0 r1 s0 s1 t0 t1).2.1
          (extEuclidLoop fuel r0 r1 s0 s1 t0 t1).2.2 := by
  induction fuel generalizing r0 r1 s0 s1 t0 t1 with
  | zero => omega
  | succ fuel ih =>
    unfold extEuclidLoop
    split
    next hz => exact ⟨0, fun k hk => absurd hk (by omega), Int.natCast_eq_zero.2 hz, rfl⟩
    next hz =>
      have hlt : r0 % r1 < r1 := Nat.mod_lt r0 (by omega)
      obtain ⟨m, hne, hend, hrow⟩ := ih r1 (r0 % r1) s1 (s0 - (r0 / r1 : Nat) * s1) t1 (t0 - (r0 / r1 : Nat) * t1)
        (by omega)
      rw [← euclidTurn_euclidRow] at hne hend hrow
      refine ⟨m + 1, fun k hk => ?_, hend, hrow⟩
      cases k with
      | zero => exact mt Int.natCast_eq_zero.1 hz
      | succ k => exact hne k (by omega)

/-- The remainders and coefficients of ExtEuclidCore's turns are a trace of R95, and its values are their last (R95). -/
theorem extEuclidCore_euclidTrace (a b : Nat) : ∃ (m : Nat) (r x y : Nat → Int), euclidTrace a b m r x y ∧
    r m = (extEuclidCore a b).1 ∧ x m = (extEuclidCore a b).2.1 ∧ y m = (extEuclidCore a b).2.2 := by
  obtain ⟨m, hne, hend, hrow⟩ := extEuclidLoop_eq_iterate (b + 1) a b 1 0 0 1 (by omega)
  set p := (euclidRow a 1 0, euclidRow b 0 1)
  have hnext (k : Nat) : (euclidTurn^[k + 1] p).1 = (euclidTurn^[k] p).2 := by rw [Function.iterate_succ_apply']; rfl
  have hturn (k : Nat) : (euclidTurn^[k + 2] p).1 = (euclidTurn^[k] p).1 -
      ((euclidTurn^[k] p).1.1 / (euclidTurn^[k + 1] p).1.1) • (euclidTurn^[k + 1] p).1 := by
    rw [hnext, hnext, Function.iterate_succ_apply']; rfl
  exact ⟨m, fun k => (euclidTurn^[k] p).1.1, fun k => (euclidTurn^[k] p).1.2.1, fun k => (euclidTurn^[k] p).1.2.2,
    ⟨rfl, rfl, rfl, rfl, rfl, rfl, fun k hk => ⟨(congrArg (·.1) (hnext k)).trans_ne (hne k hk), congrArg (·.1) (hturn k),
      congrArg (·.2.1) (hturn k), congrArg (·.2.2) (hturn k)⟩, (congrArg (·.1) (hnext m)).trans hend⟩,
    congrArg (·.1) hrow, congrArg (·.2.1) hrow, congrArg (·.2.2) hrow⟩

/-- The loop treats the coefficients of `a` and of `b` alike. -/
theorem extEuclidLoop_swap (fuel r0 r1 : Nat) (s0 s1 t0 t1 : Int) :
    (extEuclidLoop fuel r0 r1 s0 s1 t0 t1).2.2 = (extEuclidLoop fuel r0 r1 t0 t1 s0 s1).2.1 := by
  induction fuel generalizing r0 r1 s0 s1 t0 t1 with
  | zero => rfl
  | succ fuel ih =>
    unfold extEuclidLoop
    split
    · rfl
    · exact ih ..

/-- The coefficient of `b` is at most `a` (R95). -/
theorem extEuclidCore_second_coefficient_bound {a : Nat} (ha : 1 ≤ a) (b : Nat) : (extEuclidCore a b).2.2.natAbs ≤ a := by
  rw [extEuclidCore, extEuclidLoop_swap]
  exact extEuclidLoop_coefficient_bound (b + 1) a b 0 1 (-1) 1 0 (.inr rfl) (Nat.zero_le a) ha (by omega)

theorem extEuclidCore_zero_right (a : Nat) : extEuclidCore a 0 = (a, 1, 0) := rfl

theorem extEuclidCore_zero_left {b : Nat} (hb : b ≠ 0) : extEuclidCore 0 b = (b, 0, 1) := by
  obtain ⟨b, rfl⟩ := Nat.exists_eq_succ_of_ne_zero hb
  simp [extEuclidCore, extEuclidLoop]

/-- No value of ExtEuclidCore exceeds both operands, but for the coefficient 1 of an operand beside 0 (R95). -/
theorem extEuclidCore_bounds (a b : Nat) : (extEuclidCore a b).1 ≤ max (max a b) 1 ∧
    (extEuclidCore a b).2.1.natAbs ≤ max (max a b) 1 ∧ (extEuclidCore a b).2.2.natAbs ≤ max (max a b) 1 := by
  by_cases hb : b = 0
  · simp [hb, extEuclidCore_zero_right]
  by_cases ha : a = 0
  · simp [ha, extEuclidCore_zero_left hb]
  have hx := extEuclidCore_coefficient_bound a (b := b) (by omega)
  have hy := extEuclidCore_second_coefficient_bound (a := a) (by omega) b
  have hg := Nat.gcd_le_left b (m := a) (by omega)
  rw [extEuclidCore_fst]
  omega

/-- What ExtEuclidCore answers on two non-negative integers, in the terms of R95 and R97. -/
theorem extEuclidCore_spec {a b : Int} (ha : 0 ≤ a) (hb : 0 ≤ b) : ∃ (m : Nat) (r x y : Nat → Int),
    euclidTrace a b m r x y ∧
    ((extEuclidCore a.toNat b.toNat).1 : Int) = r m ∧ (extEuclidCore a.toNat b.toNat).2.1 = x m ∧
    (extEuclidCore a.toNat b.toNat).2.2 = y m ∧ r m = Int.gcd a b ∧ a * x m + b * y m = r m ∧
    |r m| ≤ max (max a b) 1 ∧ |x m| ≤ max (max a b) 1 ∧ |y m| ≤ max (max a b) 1 := by
  obtain ⟨a, rfl⟩ := Int.eq_ofNat_of_zero_le ha
  obtain ⟨b, rfl⟩ := Int.eq_ofNat_of_zero_le hb
  simp only [Int.toNat_natCast]
  obtain ⟨m, r, x, y, htrace, hrm, hxm, hym⟩ := extEuclidCore_euclidTrace a b
  have hgcd : r m = Int.gcd a b := by rw [hrm, extEuclidCore_fst, Int.gcd_natCast_natCast]
  have hcomb : a * x m + b * y m = r m := by rw [hrm, hxm, hym, extEuclidCore_combination]
  obtain ⟨hr, hx, hy⟩ := extEuclidCore_bounds a b
  rw [← hxm] at hx
  rw [← hym] at hy
  simp only [Int.abs_eq_natAbs]
  exact ⟨m, r, x, y, htrace, hrm.symm, hxm.symm, hym.symm, hgcd, hcomb, by omega, by omega, by omega⟩

/-- A number within the bound of R97 on the values of EXTGCD fits a register. -/
theorem fits_of_abs_le_max {u v : Big} {x : Int} (h : |x| ≤ max (max (sval u) (sval v)) 1) : fits x = true := by
  obtain ⟨-, hu⟩ := (fits_iff _).1 (fits_sval u)
  obtain ⟨-, hv⟩ := (fits_iff _).1 (fits_sval v)
  rw [Int.abs_eq_natAbs] at h
  rw [fits_iff]
  omega

/-- Settles O31: the values are the last of the trace, and the bound on them lets them fit a register. -/
theorem extgcdSatisfiesBezout : Obligations.ExtgcdSatisfiesBezout := by
  intro rd rd2 rd3 rs1 rs2 s hr h12 h13 h23
  rw [exec_extgcd hr h12 h13 h23, extgcdValue_eq]
  constructor
  · intro h1 h2
    obtain ⟨m, r, x, y, htrace, hrm, hxm, hym, hgcd, hcomb, hr, hx, hy⟩ := extEuclidCore_spec h1 h2
    obtain ⟨t, ht, hc⟩ := finish_writes s [(rd, enc (r m)), (rd2, enc (x m)), (rd3, enc (y m))] (by simp [h12, h13, h23])
    rw [if_neg (by omega), Except.map, hrm, hxm, hym]
    exact ⟨m, r, x, y, t, htrace, ht, hc, hgcd, hcomb, hx, hy, hc.sval_eq (by simp) (fits_of_abs_le_max hr),
      hc.sval_eq (by simp) (fits_of_abs_le_max hx), hc.sval_eq (by simp) (fits_of_abs_le_max hy)⟩
  · intro hneg
    rw [if_pos hneg]
    exact finish_error_failedTo s .domain

/-! ## MODINV -/

theorem modInvCore_one (e : Nat) : modInvCore e 1 = .ok 0 := by
  simp [modInvCore, extEuclidCore, extEuclidLoop, Nat.mod_one]

/-- A number coprime to a positive modulus has its inverse below it; modulo 1 that is 0 (R98). -/
theorem modInvCore_ok {e n : Nat} (hn : 1 ≤ n) (hg : Nat.gcd e n = 1) :
    ∃ d : Nat, modInvCore e n = .ok (d : Int) ∧ d < n ∧ e * d % n = 1 % n := by
  obtain rfl | h2 := hn.eq_or_lt
  · exact ⟨0, modInvCore_one e, by omega, by omega⟩
  · rw [Nat.mod_eq_of_lt h2]
    exact modInvCore_of_coprime h2 hg

theorem modInvCore_of_not_coprime {e n : Nat} (hg : Nat.gcd e n ≠ 1) : modInvCore e n = .error .noInv := by
  rw [modInvCore, extEuclidCore_fst, if_pos hg]

/-- Settles O32: the checks in their order, then the inverse of R98. -/
theorem modinvIsTheInverseOrAnError : Obligations.ModinvIsTheInverseOrAnError := by
  intro rd rs1 rs2 s hr
  rw [exec_modinv hr, modinvValue_eq]
  refine ⟨fun h1 h2 hg => ?_, fun h1 h2 hg => ?_, fun h0 => ?_, fun h => ?_⟩
  · obtain ⟨d, hd, hlt, hinv⟩ := modInvCore_ok (by omega) ((gcd_toNat h1 h2.le).trans hg)
    have hltN : (d : Int) < s.sval rs2 := by omega
    have hinvZ : s.sval rs1 * d % s.sval rs2 = 1 % s.sval rs2 := by
      rw [← Int.toNat_of_nonneg h1, ← Int.toNat_of_nonneg h2.le]
      exact_mod_cast hinv
    rw [if_neg (by omega), if_neg (by omega), hd]
    obtain ⟨t, ht, hc, hval⟩ := finish_oneWrite s rd
      (fits_of_nonneg_of_le (fits_sval (s.val rs2)) (Int.natCast_nonneg d) hltN.le)
    exact ⟨d, t, ht, hc, Int.natCast_nonneg d, hltN, hinvZ, hval⟩
  · rw [if_neg (by omega), if_neg (by omega), modInvCore_of_not_coprime (by rwa [gcd_toNat h1 h2.le])]
    exact finish_error_failedTo s .noInv
  · rw [if_pos h0]
    exact finish_error_failedTo s .divZero
  · rw [if_neg (by omega), if_pos (by omega)]
    exact finish_error_failedTo s .domain

end Sys2Proof.Machine

/-! PROOF. MRTEST's table, MRTEST on primes, and what GENPRIME does whatever the random words (R101-R105). -/

namespace Sys2Proof.Machine

set_option exponentiation.threshold 2000

/-! ## What a completion leaves, field by field -/

theorem State.completedTo.status_eq {s t : State} {ws : List (Reg × Big)} {st : Status} {g : Rng}
    (h : s.completedTo t ws st g) : t.status = st := by
  obtain ⟨-, -, ht⟩ := h
  rw [ht]

theorem State.completedTo.rng_eq {s t : State} {ws : List (Reg × Big)} {st : Status} {g : Rng}
    (h : s.completedTo t ws st g) : t.rng = g := by
  obtain ⟨-, -, ht⟩ := h
  rw [ht]

theorem State.completedTo.val_eq {s t : State} {ws : List (Reg × Big)} {st : Status} {g : Rng} {r : Reg} {u : Big}
    (h : s.completedTo t ws st g) (hm : (r, u) ∈ ws) : t.val r = u := by
  obtain ⟨hwritten, -⟩ := h
  rw [State.val, hwritten _ hm]

theorem State.failedTo.err_eq {s t : State} {c : BitVec 4} {g : Rng} (h : s.failedTo t c g) : t.status.err = true := by
  rw [h]; rfl

theorem State.failedTo.rng_eq {s t : State} {c : BitVec 4} {g : Rng} (h : s.failedTo t c g) : t.rng = g := by
  rw [h]

/-! ## The table of small and even candidates (R102) -/

/-- A candidate below 4 or even is decided without a random word. -/
theorem millerRabin_of_small_or_even {c : Int} (h : c ≤ 3 ∨ c % 2 = 0) (conf limit : Nat) (g : Rng) :
    millerRabin c conf limit g = (.ok (decide (c = 2 ∨ c = 3)), g) := by
  unfold millerRabin
  by_cases hp : c = 2 ∨ c = 3
  · rw [if_neg (by omega), if_neg (by omega), if_pos hp, decide_eq_true hp]
  rw [decide_eq_false hp]
  by_cases hneg : c < 0
  · rw [if_pos hneg]
  by_cases h01 : c = 0 ∨ c = 1
  · rw [if_neg hneg, if_pos h01]
  · rw [if_neg hneg, if_neg h01, if_neg hp, if_pos (by omega)]

/-- A verdict without an error is what MRTEST leaves in its destination and in RES (R103). -/
theorem exec_mrtest_of_verdict {rd rs1 : Reg} {s : State} {b : Bool} {g : Rng} (hr : s.readable [rs1] = true)
    (h : millerRabin (s.sval rs1) s.confidence.toNat s.retryLimit.toNat s.rng = (.ok b, g)) :
    ∃ t, exec (.mrtest rd rs1) s = .next t ∧
      s.completedTo t [(rd, if b then 1 else 0)] { s.status.doneOk with res := b } g := by
  rw [exec_mrtest hr, h]
  obtain ⟨t, ht, hc⟩ := finishDraw_ok s { writes := [(rd, enc (if b then 1 else 0))], res := some b } g (by simp)
  rw [completed_verdict, enc_verdict] at hc
  exact ⟨t, ht, hc⟩

/-- Settles O34: the table decides, and draws nothing. -/
theorem mrtestDecidesSmallAndEvenByTable : Obligations.MrtestDecidesSmallAndEvenByTable := by
  intro rd rs1 s hr h
  simpa using exec_mrtest_of_verdict (rd := rd) hr (millerRabin_of_small_or_even h _ _ _)

/-! ## A prime passes every round (93 G5) -/

/-- In a field, a power `x^(2^s)` that is 1 comes from a 1 or from a square root `-1` of 1. -/
theorem eq_one_or_pow_eq_neg_one {F : Type} [Field F] {x : F} {s : Nat} (h : x ^ 2 ^ s = 1) :
    x = 1 ∨ ∃ j, j < s ∧ x ^ 2 ^ j = -1 := by
  induction s with
  | zero => exact .inl (by simpa using h)
  | succ s ih =>
    rw [Nat.pow_succ, pow_mul, sq_eq_one_iff] at h
    obtain h1 | hneg := h
    · exact (ih h1).imp_right fun ⟨j, hj, he⟩ => ⟨j, by omega, he⟩
    · exact .inr ⟨s, by omega, hneg⟩

theorem mod_eq_of_natCast_zmod_eq {p u v : Nat} (hv : v < p) (h : (u : ZMod p) = v) : u % p = v := by
  rwa [ZMod.natCast_eq_natCast_iff', Nat.mod_eq_of_lt hv] at h

/-- Every witness in range lets a prime pass: by Fermat's theorem, and as 1 has no square roots but 1 and -1 (R102). -/
theorem roundPassed_of_prime {p a : Nat} (hp : p.Prime) (ha : witnessInRange p a) : roundPassed p a := by
  obtain ⟨ha2, hap⟩ := ha
  have := Fact.mk hp
  have hp2 := hp.two_le
  obtain ⟨hst, ht⟩ := tz_spec (v := p - 1) (by omega)
  generalize (p - 1) / 2 ^ tz (p - 1) = t at hst ht
  generalize tz (p - 1) = s at hst
  have hne : (a : ZMod p) ≠ 0 := by
    rw [Ne, ZMod.natCast_eq_zero_iff]
    exact Nat.not_dvd_of_pos_of_lt (by omega) hap
  have hfermat : ((a : ZMod p) ^ t) ^ 2 ^ s = 1 := by
    rw [← pow_mul, Nat.mul_comm, hst, ZMod.pow_card_sub_one_eq_one hne]
  refine ⟨(Nat.coprime_of_lt_prime (by omega) hap hp).symm, s, t, hst.symm, ht, ?_⟩
  obtain h1 | ⟨j, hj, hneg⟩ := eq_one_or_pow_eq_neg_one hfermat
  · exact .inl (mod_eq_of_natCast_zmod_eq (by omega) (by push_cast; exact h1))
  · refine .inr ⟨j, hj, mod_eq_of_natCast_zmod_eq (by omega) ?_⟩
    rw [Nat.cast_pow, Nat.mul_comm, pow_mul, hneg, Nat.cast_pred hp.pos, ZMod.natCast_self, zero_sub]

/-- No round of a prime ends the test with the verdict COMPOSITE. -/
theorem roundsRun_of_prime {p limit conf : Nat} (hp : p.Prime) {g g' : Rng} {v : Option Bool}
    (h : roundsRun p limit conf g v g') : v ≠ some false := by
  induction conf generalizing g with
  | zero => rw [h.1]; decide
  | succ conf ih =>
    obtain ⟨-, rfl⟩ | ⟨a, g1, ⟨m, -, -, hin, rfl, -⟩, ⟨-, hr⟩ | ⟨hfail, -⟩⟩ := h
    · exact nofun
    · exact ih hr
    · exact absurd (roundPassed_of_prime hp hin) hfail

/-! ## Every run has an end -/

theorem roundsRun_total {c : Nat} (hc : 0 < c) (limit conf : Nat) (g : Rng) :
    ∃ v g', roundsRun c limit conf g v g' := by
  induction conf generalizing g with
  | zero => exact ⟨_, _, rfl, rfl⟩
  | succ conf ih =>
    obtain ⟨a, g1, -, hf⟩ | ⟨g1, -, hn⟩ := witness_cases hc limit g
    · by_cases hp : roundPassed c a
      · obtain ⟨v, g', hr⟩ := ih g1
        exact ⟨v, g', .inr ⟨a, g1, hf, .inl ⟨hp, hr⟩⟩⟩
      · exact ⟨some false, g1, .inr ⟨a, g1, hf, .inr ⟨hp, rfl, rfl⟩⟩⟩
    · exact ⟨none, g1, .inl ⟨hn, rfl⟩⟩

theorem candidateTested_total (L conf limit : Nat) (g : Rng) : ∃ v g', candidateTested L conf limit g v g' := by
  by_cases h3 : candidateAt L g = 3
  · exact ⟨_, _, .inl ⟨h3, rfl, rfl⟩⟩
  · have hodd := candidateAt_odd L g
    obtain ⟨v, g', hr⟩ := roundsRun_total (c := candidateAt L g) (by omega) limit conf (g.skip (portWords L))
    exact ⟨v, g', .inr ⟨h3, hr⟩⟩

theorem primeSearched_total (L conf limit attempts : Nat) (g : Rng) :
    ∃ p g', primeSearched L conf limit attempts g p g' := by
  induction attempts generalizing g with
  | zero => exact ⟨_, _, rfl, rfl⟩
  | succ attempts ih =>
    obtain ⟨v, g1, ht⟩ := candidateTested_total L conf limit g
    match v, ht with
    | some true, ht => exact ⟨_, _, .inl ⟨ht, rfl⟩⟩
    | none, ht => exact ⟨_, _, .inr (.inl ⟨ht, rfl⟩)⟩
    | some false, ht =>
      obtain ⟨p, g', hs⟩ := ih g1
      exact ⟨p, g', .inr (.inr ⟨g1, ht, hs⟩)⟩

/-! ## MRTEST on a prime -/

/-- A completed test of the verdict PRIME shows it in RES and in the destination. -/
theorem State.completedTo.prime_shown {s t : State} {rd : Reg} {g : Rng}
    (h : s.completedTo t [(rd, 1)] { s.status.doneOk with res := true } g) : t.status.res = true ∧ t.val rd = 1 :=
  ⟨by rw [h.status_eq], h.val_eq List.mem_cons_self⟩

/-- Settles O36: 2 and 3 pass by the table, and no other prime has a round that fails. -/
theorem primeNeverTestsComposite : Obligations.PrimeNeverTestsComposite := by
  intro rd rs1 s t p hval hp hexec herr
  have hr : s.readable [rs1] = true := by
    by_contra hr
    rw [exec, execMrtest, withSources_of_unwritten (Bool.not_eq_true _ ▸ hr)] at hexec
    cases hexec
  have same {u : State} (hu : exec (.mrtest rd rs1) s = .next u) : u = t := Host.Outcome.next.inj (hu.symm.trans hexec)
  have hp2 := hp.two_le
  by_cases h3 : p ≤ 3
  · have h23 : s.sval rs1 = 2 ∨ s.sval rs1 = 3 := by omega
    obtain ⟨u, hu, hc⟩ := mrtestDecidesSmallAndEvenByTable rd rs1 s hr (.inl (by omega))
    obtain rfl := same hu
    rw [if_pos h23, decide_eq_true h23] at hc
    exact hc.prime_shown
  · have hodd : p % 2 = 1 := hp.eq_two_or_odd.resolve_left (by omega)
    obtain ⟨hrun, hcap⟩ := mrtestCompletesWithAVerdict rd rs1 s p hr hval (by omega) hodd
    by_cases hl : len (s.val rs1) ≤ 24
    · obtain ⟨v, g, hv⟩ := roundsRun_total (c := p) (by omega) s.retryLimit.toNat s.confidence.toNat s.rng
      obtain ⟨hverdict, htimeout⟩ := hrun hl g
      match v, hv with
      | some true, hv =>
        obtain ⟨u, hu, hc⟩ := hverdict true hv
        obtain rfl := same hu
        exact hc.prime_shown
      | some false, hv => exact absurd rfl (roundsRun_of_prime hp hv)
      | none, hv =>
        obtain ⟨u, hu, hf⟩ := htimeout hv
        obtain rfl := same hu
        simp [hf.err_eq] at herr
    · obtain ⟨u, hu, hf⟩ := hcap (by omega)
      obtain rfl := same hu
      simp [hf.err_eq] at herr

/-! ## The words that a prime search takes (R55) -/

theorem portWords_pos {L : Nat} (h : 1 ≤ L) : 1 ≤ portWords L := by
  unfold portWords
  omega

/-- Rounds only take words; those that end without a witness have tried the whole of RETRY_LIMIT (R101). -/
theorem skip_of_roundsRun {c limit conf : Nat} {g g' : Rng} {v : Option Bool} (h : roundsRun c limit conf g v g') :
    ∃ n, g' = g.skip n ∧ (v = none → limit ≤ n) := by
  induction conf generalizing g with
  | zero => exact ⟨0, h.2, by simp [h.1]⟩
  | succ conf ih =>
    obtain ⟨⟨-, rfl⟩, -⟩ | ⟨a, g1, ⟨m, -, -, -, -, rfl⟩, ⟨-, hr⟩ | ⟨-, rfl, rfl⟩⟩ := h
    · exact ⟨_, rfl, fun _ => Nat.le_mul_of_pos_right _ (portWords_pos (Nat.le_add_left ..))⟩
    · obtain ⟨n, rfl, hn⟩ := ih hr
      exact ⟨_, (skip_add ..).symm, fun hv => (hn hv).trans (Nat.le_add_left ..)⟩
    · exact ⟨_, rfl, nofun⟩

theorem skip_of_candidateTested {L conf limit : Nat} {g g' : Rng} {v : Option Bool}
    (h : candidateTested L conf limit g v g') : ∃ n, g' = g.skip n ∧ portWords L ≤ n ∧ (v = none → limit ≤ n) := by
  obtain ⟨-, rfl, rfl⟩ | ⟨-, hr⟩ := h
  · exact ⟨_, rfl, le_rfl, nofun⟩
  · obtain ⟨n, rfl, hn⟩ := skip_of_roundsRun hr
    exact ⟨_, (skip_add ..).symm, Nat.le_add_right .., fun hv => (hn hv).trans (Nat.le_add_left ..)⟩

/-- A search takes the words of the candidate it finds at least; without one, a word for each of its attempts at least
(R104). -/
theorem skip_of_primeSearched {L conf limit attempts : Nat} {g g' : Rng} {p : Option Nat} (hL : 1 ≤ L)
    (hle : attempts ≤ limit) (h : primeSearched L conf limit attempts g p g') :
    ∃ n, g' = g.skip n ∧ (p ≠ none → portWords L ≤ n) ∧ (p = none → attempts ≤ n) := by
  induction attempts generalizing g with
  | zero => exact ⟨0, h.2, fun hp => absurd h.1 hp, fun _ => le_rfl⟩
  | succ attempts ih =>
    obtain ⟨ht, rfl⟩ | ⟨ht, rfl⟩ | ⟨g1, ht, hs⟩ := h
    · obtain ⟨n, rfl, hn, -⟩ := skip_of_candidateTested ht
      exact ⟨n, rfl, fun _ => hn, nofun⟩
    · obtain ⟨n, rfl, -, hn⟩ := skip_of_candidateTested ht
      exact ⟨n, rfl, fun hp => absurd rfl hp, fun _ => hle.trans (hn rfl)⟩
    · obtain ⟨m, rfl, hm, -⟩ := skip_of_candidateTested ht
      obtain ⟨n, rfl, hsome, hnone⟩ := ih (by omega) hs
      have hpos := portWords_pos hL
      exact ⟨m + n, (skip_add ..).symm, fun _ => by omega, fun hp => by have := hnone hp; omega⟩

/-! ## GENPRIME whatever the random words -/

theorem genprimeValue_out_of_range {L : Nat} (h : L < 2 ∨ 768 < L) (conf limit : Nat) (g : Rng) :
    genprimeValue L conf limit g = (.error .domain, g) := if_pos h

theorem exec_genprime_out_of_range (rd : Reg) {s : State} (h : s.bitlen.toNat < 2 ∨ 768 < s.bitlen.toNat) :
    ∃ t, exec (.genprime rd) s = .next t ∧ s.failedTo t 3 s.rng := by
  rw [exec, execGenprime, genprimeValue_out_of_range h]
  exact finishDraw_error s .domain s.rng

/-- Settles O38: the search always ends, with a candidate or at RETRY_LIMIT. -/
theorem genprimeResultIsOddOfExactLength : Obligations.GenprimeResultIsOddOfExactLength := by
  intro rd s
  by_cases hL : s.bitlen.toNat < 2 ∨ 768 < s.bitlen.toNat
  · obtain ⟨t, ht, hf⟩ := exec_genprime_out_of_range rd hL
    exact ⟨t, 0, ht, hf.rng_eq, .inr (.inr ⟨hL, hf⟩)⟩
  obtain ⟨h2, h768⟩ : 2 ≤ s.bitlen.toNat ∧ s.bitlen.toNat ≤ 768 := by omega
  obtain ⟨p, g, hs⟩ := primeSearched_total s.bitlen.toNat s.confidence.toNat s.retryLimit.toNat s.retryLimit.toNat s.rng
  obtain ⟨hfound, htimeout⟩ := genprimeWritesAPrimeCandidate rd s g h2 h768
  obtain ⟨n, rfl, hsome, hnone⟩ := skip_of_primeSearched (by omega) le_rfl hs
  cases p with
  | none =>
    obtain ⟨t, ht, hf⟩ := htimeout hs
    exact ⟨t, n, ht, hf.rng_eq, .inr (.inl ⟨h2, h768, hf, hnone rfl⟩)⟩
  | some p =>
    obtain ⟨t, ht, hc⟩ := hfound p hs
    obtain ⟨g0, rfl⟩ := candidateAt_of_primeSearched hs
    have hodd := candidateAt_odd s.bitlen.toNat g0
    obtain ⟨hlo, hhi⟩ := candidateAt_bounds (L := s.bitlen.toNat) (by omega) g0
    have hval : t.sval rd = candidateAt s.bitlen.toNat g0 := by
      rw [State.sval, hc.val_eq List.mem_cons_self,
        sval_enc_natCast (hhi.trans (Nat.pow_lt_pow_right (by decide) (by omega)))]
    refine ⟨t, n, ht, hc.rng_eq, .inl ⟨h2, h768, by rw [hc.status_eq]; rfl, ?_, ?_, ?_, hsome nofun⟩⟩
    · omega
    · rw [hval]; exact_mod_cast hlo
    · rw [hval]; exact_mod_cast hhi

end Sys2Proof.Machine

/-! PROOF. KEYGEN whatever the random words, the verdict of VERIFY, and that a signature of SIGN passes it (R106-R110). -/

namespace Sys2Proof.Machine

set_option exponentiation.threshold 2000

/-! ## The search for a public exponent -/

theorem exponentSearched_total (lam eb attempts : Nat) (g : Rng) : ∃ e g', exponentSearched lam eb attempts g e g' := by
  induction attempts generalizing g with
  | zero => exact ⟨_, _, rfl, rfl⟩
  | succ attempts ih =>
    by_cases hg : Nat.gcd (sampleAt eb g) lam = 1
    · exact ⟨_, _, .inl ⟨hg, rfl, rfl⟩⟩
    · obtain ⟨e, g', hs⟩ := ih (g.skip (portWords eb))
      exact ⟨e, g', .inr ⟨hg, hs⟩⟩

/-- What a search for an exponent finds is a sample. -/
theorem sampleAt_of_exponentSearched {lam eb attempts e : Nat} {g g' : Rng}
    (h : exponentSearched lam eb attempts g (some e) g') : ∃ g0, e = sampleAt eb g0 := by
  induction attempts generalizing g with
  | zero => exact nomatch h.1
  | succ attempts ih =>
    obtain ⟨-, he, -⟩ | ⟨-, hs⟩ := h
    · exact ⟨g, Option.some.inj he⟩
    · exact ih hs

/-- The search takes the words of the sample it finds at least; without one, a word for each of its attempts at least. -/
theorem skip_of_exponentSearched {lam eb attempts : Nat} {g g' : Rng} {e : Option Nat} (heb : 1 ≤ eb)
    (h : exponentSearched lam eb attempts g e g') :
    ∃ n, g' = g.skip n ∧ (e ≠ none → portWords eb ≤ n) ∧ (e = none → attempts ≤ n) := by
  induction attempts generalizing g with
  | zero => exact ⟨0, h.2, fun he => absurd h.1 he, fun _ => le_rfl⟩
  | succ attempts ih =>
    obtain ⟨-, rfl, rfl⟩ | ⟨-, hs⟩ := h
    · exact ⟨_, rfl, fun _ => le_rfl, nofun⟩
    · obtain ⟨n, rfl, -, hnone⟩ := ih hs
      have hpos := portWords_pos heb
      exact ⟨_, (skip_add ..).symm, fun _ => Nat.le_add_right .., fun he => by have := hnone he; omega⟩

/-! ## KEYGEN whatever the random words -/

/-- What R106 says of the numbers of a key: two odd factors of `L` and `L - 1` bits, an exponent of one bit less than their
product has, and its inverse. -/
def keyNumbers (L p q e d : Nat) : Prop :=
  (2 ^ (L - 1) ≤ p ∧ p < 2 ^ L ∧ p % 2 = 1) ∧ (2 ^ (L - 2) ≤ q ∧ q < 2 ^ (L - 1) ∧ q % 2 = 1) ∧
    (2 ^ ((p * q).log2 - 1) ≤ e ∧ e < 2 ^ (p * q).log2) ∧ d < (p - 1) * (q - 1) ∧ e * d % ((p - 1) * (q - 1)) = 1

/-- Three searches that find something, and the inverse of the exponent found, give the numbers of a key. -/
theorem keyNumbers_of_searched {L conf limit p q e d : Nat} {g g1 g2 g3 : Rng} (h3 : 3 ≤ L)
    (hp : primeSearched L conf limit limit g (some p) g1) (hq : primeSearched (L - 1) conf limit limit g1 (some q) g2)
    (he : exponentSearched ((p - 1) * (q - 1)) (p * q).log2 limit g2 (some e) g3) (hlog : 1 ≤ (p * q).log2)
    (hlt : d < (p - 1) * (q - 1)) (hinv : e * d % ((p - 1) * (q - 1)) = 1) : keyNumbers L p q e d := by
  obtain ⟨gp, hcp⟩ := candidateAt_of_primeSearched hp
  obtain ⟨gq, hcq⟩ := candidateAt_of_primeSearched hq
  obtain ⟨ge, rfl⟩ := sampleAt_of_exponentSearched he
  obtain ⟨hplo, hphi⟩ := hcp ▸ candidateAt_bounds (L := L) (by omega) gp
  obtain ⟨hqlo, hqhi⟩ := hcq ▸ candidateAt_bounds (L := L - 1) (by omega) gq
  exact ⟨⟨hplo, hphi, hcp ▸ candidateAt_odd L gp⟩, ⟨hqlo, hqhi, hcq ▸ candidateAt_odd (L - 1) gq⟩,
    sampleAt_bounds hlog ge, hlt, hinv⟩

section
variable {L p q e d : Nat} (h : keyNumbers L p q e d)
include h

theorem keyNumbers.exponent_lt : e < p * q := by
  obtain ⟨-, -, ⟨-, he⟩, hlt, -⟩ := h
  have hne : p * q ≠ 0 := by
    intro h0
    have := Nat.mul_le_mul (Nat.sub_le p 1) (Nat.sub_le q 1)
    omega
  exact he.trans_le (Nat.log2_self_le hne)

theorem keyNumbers.inverse_lt : d < p * q := by
  obtain ⟨-, -, -, hlt, -⟩ := h
  exact hlt.trans_le (Nat.mul_le_mul (Nat.sub_le p 1) (Nat.sub_le q 1))

theorem keyNumbers.modulus_lt (hL : L ≤ 384) : p * q < 2 ^ 1599 := by
  obtain ⟨⟨-, hp, -⟩, ⟨-, hq, -⟩, -⟩ := h
  calc p * q < 2 ^ L * 2 ^ (L - 1) := Nat.mul_lt_mul'' hp hq
    _ = 2 ^ (L + (L - 1)) := (Nat.pow_add ..).symm
    _ ≤ 2 ^ 1599 := Nat.pow_le_pow_right (by decide) (by omega)

end

section
variable {rd rd2 rd3 : Reg} {s : State} (h12 : rd ≠ rd2) (h13 : rd ≠ rd3) (h23 : rd2 ≠ rd3)
include h12 h13 h23

theorem exec_keygen_out_of_range (h : s.bitlen.toNat < 3 ∨ 384 < s.bitlen.toNat) :
    ∃ t, exec (.keygen rd rd2 rd3) s = .next t ∧ s.failedTo t 3 s.rng := by
  rw [exec, execKeygen, if_neg (by simp [h12, h13, h23]), keygenValue, if_pos h]
  exact finishDraw_error s .domain s.rng

/-- In range one of the searches reaches RETRY_LIMIT, or all three find what makes a key (R106, R107). -/
theorem exec_keygen_in_range (h3 : 3 ≤ s.bitlen.toNat) (hL : s.bitlen.toNat ≤ 384) :
    ∃ (t : State) (n : Nat), exec (.keygen rd rd2 rd3) s = .next t ∧
      ((s.failedTo t 6 (s.rng.skip n) ∧ s.retryLimit.toNat ≤ n) ∨
        ∃ p q e d : Nat, keyNumbers s.bitlen.toNat p q e d ∧
          s.completedTo t [(rd, enc (p * q : Nat)), (rd2, enc e), (rd3, enc d)] s.status.doneOk (s.rng.skip n) ∧
          portWords s.bitlen.toNat + portWords (s.bitlen.toNat - 1) + portWords (p * q).log2 ≤ n) := by
  obtain ⟨hnoP, hfoundP⟩ := keygenWritesTheKeyOfItsWords rd rd2 rd3 s _ _ _ h12 h13 h23 rfl rfl rfl h3 hL
  obtain ⟨p, g1, hp⟩ := primeSearched_total s.bitlen.toNat s.confidence.toNat s.retryLimit.toNat s.retryLimit.toNat
    s.rng
  obtain ⟨np, hg1, hwordsP, htriesP⟩ := skip_of_primeSearched (by omega) le_rfl hp
  cases p with
  | none =>
    obtain ⟨t, ht, hf⟩ := hnoP g1 hp
    exact ⟨t, np, ht, .inl ⟨hg1 ▸ hf, htriesP rfl⟩⟩
  | some p =>
  obtain ⟨hnoQ, hfoundQ⟩ := hfoundP p g1 hp
  obtain ⟨q, g2, hq⟩ := primeSearched_total (s.bitlen.toNat - 1) s.confidence.toNat s.retryLimit.toNat s.retryLimit.toNat
    g1
  obtain ⟨nq, hg2, hwordsQ, htriesQ⟩ := skip_of_primeSearched (by omega) le_rfl hq
  rw [hg1, ← skip_add] at hg2
  cases q with
  | none =>
    obtain ⟨t, ht, hf⟩ := hnoQ g2 hq
    exact ⟨t, np + nq, ht, .inl ⟨hg2 ▸ hf, (htriesQ rfl).trans (Nat.le_add_left ..)⟩⟩
  | some q =>
  obtain ⟨hp4, hq2⟩ := lower_bounds_of_primeSearched h3 hp hq
  have hlog : 1 ≤ (p * q).log2 := (Nat.le_log2 (by positivity)).2 (Nat.mul_le_mul (show 1 ≤ p by omega) hq2)
  obtain ⟨e, g3, he⟩ := exponentSearched_total ((p - 1) * (q - 1)) (p * q).log2 s.retryLimit.toNat g2
  obtain ⟨ne, hg3, hwordsE, htriesE⟩ := skip_of_exponentSearched hlog he
  rw [hg2, ← skip_add] at hg3
  obtain ⟨hnoE, hfoundE⟩ := hfoundQ q g2 g3 hq
  cases e with
  | none =>
    obtain ⟨t, ht, hf⟩ := hnoE he
    exact ⟨t, np + nq + ne, ht, .inl ⟨hg3 ▸ hf, (htriesE rfl).trans (Nat.le_add_left ..)⟩⟩
  | some e =>
    obtain ⟨d, t, ht, hc, hlt, hinv⟩ := hfoundE e he
    exact ⟨t, np + nq + ne, ht, .inr ⟨p, q, e, d, keyNumbers_of_searched h3 hp hq he hlog hlt hinv, hg3 ▸ hc,
      Nat.add_le_add (Nat.add_le_add (hwordsP nofun) (hwordsQ nofun)) (hwordsE nofun)⟩⟩

end

theorem State.completedTo.sval_eq_natCast {s t : State} {ws : List (Reg × Big)} {st : Status} {g : Rng} {r : Reg}
    {v : Nat} (h : s.completedTo t ws st g) (hm : (r, enc v) ∈ ws) (hv : v < 2 ^ 1599) : t.sval r = v :=
  h.sval_eq hm ((fits_iff _).2 ⟨by omega, by exact_mod_cast hv⟩)

/-- Settles O40: each search ends, so the words make a key or reach RETRY_LIMIT. -/
theorem keygenResultIsAKeyPair : Obligations.KeygenResultIsAKeyPair := by
  intro rd rd2 rd3 s h12 h13 h23
  by_cases hrange : s.bitlen.toNat < 3 ∨ 384 < s.bitlen.toNat
  · obtain ⟨t, ht, hf⟩ := exec_keygen_out_of_range h12 h13 h23 hrange
    exact ⟨t, 0, ht, hf.rng_eq, fun _ _ => by omega, fun _ _ => by omega, fun _ => hf⟩
  obtain ⟨h3, hL⟩ : 3 ≤ s.bitlen.toNat ∧ s.bitlen.toNat ≤ 384 := by omega
  obtain ⟨t, n, ht, ⟨hf, hn⟩ | ⟨p, q, e, d, hkey, hc, hn⟩⟩ := exec_keygen_in_range h12 h13 h23 h3 hL
  · exact ⟨t, n, ht, hf.rng_eq, fun _ _ herr => by simp [hf.err_eq] at herr, fun _ _ _ => ⟨hf, hn⟩,
      fun h => absurd h hrange⟩
  · have hfit := hkey.modulus_lt hL
    have hval := hc.sval_eq_natCast (r := rd) (by simp) hfit
    have hval2 := hc.sval_eq_natCast (r := rd2) (by simp) (hkey.exponent_lt.trans hfit)
    have hval3 := hc.sval_eq_natCast (r := rd3) (by simp) (hkey.inverse_lt.trans hfit)
    have heN := hkey.exponent_lt
    obtain ⟨⟨hp1, hp2, hp3⟩, ⟨hq1, hq2, hq3⟩, ⟨he1, he2⟩, hlt, hinv⟩ := hkey
    exact ⟨t, n, ht, hc.rng_eq,
      fun _ _ _ => ⟨p, q, e, d, hval, hval2, hval3, hp1, hp2, hq1, hq2, hp3, hq3, he1, he2, heN, hlt, hinv, hn⟩,
      fun _ _ herr => by simp [hc.status_eq, Status.doneOk] at herr, fun h => absurd h hrange⟩

/-! ## VERIFY -/

/-- The signature, exponent, modulus and digest on which VERIFY gives 1 (R109). -/
def acceptsSignature (sig e n h : Big) : Prop :=
  0 < sval n ∧ len n ≤ 24 ∧ 0 ≤ sval e ∧ 0 ≤ sval sig ∧ sval sig < sval n ∧
    sval sig ^ (sval e).toNat % sval n = sval h

/-- The checks come before the power, which has no error on a valid modulus (R109). -/
theorem verifyValue_eq {sig e n h : Big} {b : Bool} (hb : b = true ↔ acceptsSignature sig e n h) :
    verifyValue sig e n h = .ok b := by
  rw [acceptsSignature] at hb
  rw [verifyValue, Config.kMax]
  by_cases hbad : sval n ≤ 0 ∨ 24 < len n ∨ sval e < 0 ∨ sval sig < 0 ∨ sval sig ≥ sval n
  · have hfalse : b = false := Bool.eq_false_iff.2 fun htrue => by have := hb.1 htrue; omega
    rw [if_pos hbad, hfalse]
  · obtain ⟨hn, hl, he, hsig, hlt⟩ : 0 < sval n ∧ len n ≤ 24 ∧ 0 ≤ sval e ∧ 0 ≤ sval sig ∧ sval sig < sval n := by
      omega
    have hpow : (((sval sig).toNat ^ (sval e).toNat % (sval n).toNat : Nat) : Int) =
        sval sig ^ (sval e).toNat % sval n := by
      rw [Int.natCast_emod, Int.natCast_pow, Int.toNat_of_nonneg hsig, Int.toNat_of_nonneg hn.le]
    have hverdict : decide (sval sig ^ (sval e).toNat % sval n = sval h) = b := by
      rw [Bool.eq_iff_iff, hb, decide_eq_true_eq]
      simp only [hn, hl, he, hsig, hlt, true_and]
    rw [if_neg hbad, modPowCore_eq (by omega) (toNat_sval_lt n), ← hverdict, ← hpow]
    rfl

/-- Settles O41: VERIFY completes with the verdict of its checks and its power. -/
theorem verifyGivesTheVerdictWithoutError : Obligations.VerifyGivesTheVerdictWithoutError := by
  intro rd rs1 rs2 rs3 rs4 s b hr hb
  have hv : verifyValue (s.val rs1) (s.val rs2) (s.val rs3) (s.val rs4) = .ok b := verifyValue_eq hb
  rw [exec, execVerify, withSources_of_readable hr, hv, ← completed_verdict s.status [(rd, if b then 1 else 0)],
    ← enc_verdict]
  exact ⟨_, rfl, completedTo_commit s s.rng _ (List.nodup_singleton rd)⟩

/-! ## A signature of SIGN passes VERIFY (93 G6) -/

/-- RSA: with `e * d = 1` modulo `(p-1)(q-1)`, raising to `d` and then to `e` gives every number back modulo `p * q`, by
Fermat's theorem for each prime (R110). -/
theorem pow_pow_modEq_self {p q e d : Nat} (hp : p.Prime) (hq : q.Prime) (hne : p ≠ q)
    (h : e * d ≡ 1 [MOD (p - 1) * (q - 1)]) (a : Int) : (a ^ d) ^ e ≡ a [ZMOD (p * q : Nat)] := by
  have hp2 := hp.two_le
  have hq2 := hq.two_le
  rw [Nat.mul_comm e d] at h
  have hpos : 0 < d * e := by
    refine Nat.pos_of_ne_zero fun h0 => ?_
    rw [h0] at h
    obtain ⟨hp1, hq1⟩ := mul_eq_one.1 (Nat.dvd_one.1 (Nat.modEq_zero_iff_dvd.1 h.symm))
    omega
  have hdvd : (p - 1) * (q - 1) ∣ d * e - 1 := (Nat.modEq_iff_dvd' hpos).1 h.symm
  have hmod {r : Nat} (hr : r.Prime) (hd : r - 1 ∣ d * e - 1) : a ^ (d * e) ≡ a [ZMOD r] := by
    simpa using Int.ModEq.pow_eq_pow hr hd hpos Nat.one_pos a
  have hcop : (p : Int).natAbs.Coprime (q : Int).natAbs := (Nat.coprime_primes hp hq).2 hne
  rw [← pow_mul, Nat.cast_mul]
  exact (Int.modEq_and_modEq_iff_modEq_mul hcop).1
    ⟨hmod hp ((Nat.dvd_mul_right ..).trans hdvd), hmod hq ((Nat.dvd_mul_left ..).trans hdvd)⟩

/-- A digest below the modulus comes back when its signature is raised to the public exponent (R110). -/
theorem signature_pow_eq_digest {p q : Nat} {h d e : Int} (hp : p.Prime) (hq : q.Prime) (hne : p ≠ q) (hh : 0 ≤ h)
    (hlt : h < (p * q : Nat)) (hd : 0 ≤ d) (he : 0 ≤ e)
    (hkey : e * d % ((p - 1) * (q - 1) : Nat) = 1 % ((p - 1) * (q - 1) : Nat)) :
    (h ^ d.toNat % (p * q : Nat)) ^ e.toNat % (p * q : Nat) = h := by
  have hinv : e.toNat * d.toNat ≡ 1 [MOD (p - 1) * (q - 1)] := by
    rw [← Int.toNat_of_nonneg he, ← Int.toNat_of_nonneg hd] at hkey
    exact Int.natCast_modEq_iff.1 (by exact_mod_cast hkey)
  calc (h ^ d.toNat % (p * q : Nat)) ^ e.toNat % (p * q : Nat)
      = (h ^ d.toNat) ^ e.toNat % (p * q : Nat) := ((Int.mod_modEq _ _).pow _).eq
    _ = h % (p * q : Nat) := (pow_pow_modEq_self hp hq hne hinv h).eq
    _ = h := Int.emod_eq_of_lt hh hlt

theorem State.completedTo.reg_other {s t : State} {r q : Reg} {u : Big} {st : Status} {g : Rng}
    (h : s.completedTo t [(r, u)] st g) (hq : r ≠ q) : t.reg q = s.reg q := by
  obtain ⟨-, hother, -⟩ := h
  exact hother q (by simpa using hq.symm)

/-- A command keeps written what was written, and writes the whole of its destination (R22). -/
theorem State.completedTo.written_eq {s t : State} {r q : Reg} {u : Big} {st : Status} {g : Rng}
    (h : s.completedTo t [(r, u)] st g) (hq : q = r ∨ (s.reg q).written = BitVec.allOnes 50) :
    (t.reg q).written = BitVec.allOnes 50 := by
  by_cases hqr : q = r
  · obtain ⟨hwritten, -⟩ := h
    rw [hqr, hwritten _ List.mem_cons_self]
  · rw [h.reg_other (Ne.symm hqr), hq.resolve_left hqr]

/-- Settles O42: the signature is below `n`, and its power is the digest again. -/
theorem signedDigestVerifies : Obligations.SignedDigestVerifies := by
  intro sig h d e n res s p q hr hsh hse hsn hp hq hpq hn hl hh0 hhn hd he hkey
  have hn0 : 0 < s.sval n := hh0.trans_lt hhn
  have hw := (readable_iff s _).1 hr
  have hsignable : s.readable [h, d, n] = true := (readable_iff s _).2 fun r hmem =>
    hw r ((by simp : [h, d, n] ⊆ [h, d, e, n]) hmem)
  obtain ⟨t, ht, hc⟩ := modpowAndSignAreTheModularPower sig h d n s _ hsignable hn0 hl hh0 hd (.inr rfl)
  have hv0 : 0 ≤ s.sval h ^ (s.sval d).toNat % s.sval n := Int.emod_nonneg _ hn0.ne'
  have hvn : s.sval h ^ (s.sval d).toNat % s.sval n < s.sval n := Int.emod_lt_of_pos _ hn0
  have hsig : Machine.sval (t.val sig) = s.sval h ^ (s.sval d).toNat % s.sval n :=
    hc.sval_eq List.mem_cons_self (fits_of_nonneg_of_le (fits_sval _) hv0 hvn.le)
  have hval {r : Reg} (hsr : sig ≠ r) : t.val r = s.val r := by rw [State.val, hc.reg_other hsr, State.val]
  have hpow : (s.sval h ^ (s.sval d).toNat % s.sval n) ^ (s.sval e).toNat % s.sval n = s.sval h := by
    rw [hn] at hhn ⊢
    exact signature_pow_eq_digest hp hq hpq hh0 hhn hd he hkey
  have hverifiable : t.readable [sig, e, n, h] = true := (readable_iff t _).2 fun r hmem =>
    hc.written_eq ((List.mem_cons.1 hmem).imp_right fun hread => hw r ((by simp : [e, n, h] ⊆ [h, d, e, n]) hread))
  have haccept : acceptsSignature (t.val sig) (t.val e) (t.val n) (t.val h) := by
    rw [acceptsSignature, hsig, hval hse, hval hsn, hval hsh]
    exact ⟨hn0, hl, he, hv0, hvn, hpow⟩
  obtain ⟨u, hu, hcu⟩ := verifyGivesTheVerdictWithoutError res sig e n h t true hverifiable (iff_of_true rfl haccept)
  exact ⟨t, u, ht, hu, by rw [hcu.status_eq]; rfl, by rw [hcu.status_eq], hcu.val_eq List.mem_cons_self⟩

end Sys2Proof.Machine

/-! PROOF. The interrupt request: the level IE and DONE, which only a completion raises (R116, R117). -/

namespace Sys2Proof.Machine

/-! ## Completions -/

/-- A completion, with or without an error, sets DONE and leaves IE: irq is IE (R116). -/
theorem irq_of_completion {s t : State} {g : Rng}
    (h : (∃ r, t = (s.setRng g).commit r) ∨ ∃ e, t = (s.setRng g).raise e) : t.irq = s.ie := by
  obtain ⟨r, rfl⟩ | ⟨e, rfl⟩ := h
  · rw [State.commit_eq]
    exact Bool.and_true _
  · exact Bool.and_true _

theorem exec_irq {i : Instr} {s t : State} (h : exec i s = .next t) : t.irq = s.ie := by
  obtain ⟨g, -, hc⟩ := exec_next h
  exact irq_of_completion (hc.imp_left fun ⟨r, _, _, ht⟩ => ⟨r, ht⟩)

theorem runWord_irq {c : Word} {s t : State} (h : runWord c s = .next t) : t.irq = s.ie := by
  obtain ⟨g, hc⟩ := runWord_next h
  exact irq_of_completion hc

/-! ## DONE -/

theorem irq_of_not_done {s : State} (h : s.status.done = false) : s.irq = false := by
  rw [State.irq, h, Bool.and_false]

/-- No host write raises DONE. -/
theorem stored_not_done {s t : State} {l : PortLoc} {v : Word} (hd : s.status.done = false) (h : Stored s l v t) :
    t.status.done = false := by
  cases h with
  | ignored => exact hd
  | refused => exact hd
  | softReset => rfl
  | storedIe => exact hd
  | cleared => exact Bool.and_eq_false_iff.2 (.inl hd)
  | accepted => rfl
  | operand _ _ ht => rw [ht]; exact hd

/-- A step that raises DONE is a completion of a busy engine. -/
theorem step_raises_done {s t : State} (h : step s = .next t) (hs : s.status.done = false)
    (ht : t.status.done = true) :
    s.status.busy = true ∧ (s.agenda = [] ∨ ∃ rest, s.agenda = .engineComplete :: rest) := by
  cases step_next h with
  | observed => cases hs.symm.trans ht
  | drew => cases hs.symm.trans ht
  | completed rest _ hb ha => exact ⟨hb, ha.imp_right fun ha => ⟨rest, ha⟩⟩
  | reset => cases ht
  | wrote off v rest _ _ hw => cases (stored_not_done (s := { s with agenda := rest }) hs hw).symm.trans ht

/-! ## Host writes -/

theorem statusWrite_not_done {s t : State} {v : Word} (hv : v.getLsbD 1 = true)
    (h : hostWrite 0x008 4 v s = .next t) : t.status.done = false := by
  cases h
  show (s.status.done && !v.getLsbD 1) = false
  rw [hv, Bool.not_true, Bool.and_false]

theorem cmdWrite_not_done {s t : State} {c : Word} (hb : s.status.busy = false)
    (h : hostWrite 0x00C 4 c s = .next t) : t.status.done = false := by
  have hstart : s.startCmd c = .next t := (unlessBusy_idle hb _).symm.trans h
  obtain ⟨-, hs⟩ | ⟨-, hs⟩ := startCmd_cases s c
  · cases hs.symm.trans hstart
    rfl
  · cases hs.symm.trans hstart

theorem ctrlWrite_next {s t : State} {v : Word} (h : hostWrite 0x004 4 v s = .next t) : t = s.writeCtrl v :=
  (Host.Outcome.next.inj h).symm

/-- Settles O54: a completion alone sets DONE, and each of the clears leaves DONE or IE at 0. -/
theorem interruptFollowsEnableAndDone : Obligations.InterruptFollowsEnableAndDone := by
  intro s t
  refine ⟨Bool.and_eq_true_iff, step_raises_done, fun h hb ha => ?_, fun i h => exec_irq h,
    fun v hv h => irq_of_not_done (statusWrite_not_done hv h),
    fun c hb h => irq_of_not_done (cmdWrite_not_done hb h), fun v hv h => ?_, fun v h1 h0 h => ?_, rfl⟩
  · obtain ⟨rest, hrun⟩ := step_runs hb ha
    have ht := hrun.symm.trans h
    exact ⟨(runWord_idle ht).2.1, runWord_irq (s := { s with agenda := rest }) ht⟩
  · rw [ctrlWrite_next h, State.writeCtrl, if_pos hv]
    rfl
  · rw [ctrlWrite_next h, State.writeCtrl, if_neg (by rw [h1]; decide), h0]
    exact ⟨Bool.false_and _, rfl⟩

end Sys2Proof.Machine

/-! PROOF. The errors of each command, and the random words that an error leaves taken (R111-R113). -/

namespace Sys2Proof.Machine

/-! ## The errors of the values -/

theorem divMod_error {a b : Int} {e : ErrCode} (h : divMod a b = .error e) : e ∈ [ErrCode.divZero, .domain] := by
  unfold divMod at h
  split at h
  · cases h; decide
  split at h
  · cases h
  split at h
  · cases h; decide
  · cases h

/-- BarrettCore's one error is that two corrections did not suffice (R87). -/
theorem barrettCore_error {x n mu k : Nat} {e : ErrCode} (hn : 0 < n) (h : barrettCore x n mu k = .error e) :
    e = .domain := by
  rw [barrettCore_eq _ _ _ _ hn] at h
  split at h
  · cases h
  · exact (Except.error.inj h).symm

/-- The shared checks of the Barrett unit add three errors to those found on a positive modulus. -/
theorem modulusChecked_error {n : Big} {a b : Int} {v : Except ErrCode Nat} {e : ErrCode}
    (hv : 0 < sval n → v = .error e → e ∈ [ErrCode.divZero, .domain, .cap]) (h : modulusChecked n a b v = .error e) :
    e ∈ [ErrCode.divZero, .domain, .cap] := by
  unfold modulusChecked at h
  split at h
  · cases h; decide
  split at h
  · cases h; decide
  split at h
  · cases h; decide
  · exact hv (by omega) h

theorem muValue_error {n : Big} {e : ErrCode} (h : muValue n = .error e) : e ∈ [ErrCode.divZero, .domain, .cap] := by
  rw [muValue_eq] at h
  refine modulusChecked_error (fun _ hv => ?_) h
  cases hv

theorem bredValue_error {x n mu : Big} {e : ErrCode} (h : bredValue x n mu = .error e) :
    e ∈ [ErrCode.divZero, .domain, .cap] := by
  rw [bredValue_eq] at h
  refine modulusChecked_error (fun h0 hv => ?_) h
  split at hv
  · cases hv; decide
  · rw [barrettCore_error (by omega) hv]; decide

theorem modmulValue_error {a b n : Big} {e : ErrCode} (h : modmulValue a b n = .error e) :
    e ∈ [ErrCode.divZero, .domain, .cap] := by
  rw [modmulValue_eq] at h
  refine modulusChecked_error (fun h0 hv => ?_) h
  rw [barrettCore_error (by omega) hv]; decide

/-- On a positive modulus ModPowCore has no error: what is left are the checks (R92, R93). -/
theorem modpowValue_error {a b n : Big} {e : ErrCode} (h : modpowValue a b n = .error e) :
    e ∈ [ErrCode.divZero, .domain, .cap] := by
  rw [modpowValue_eq] at h
  refine modulusChecked_error (fun h0 hv => ?_) h
  rw [modPowCore_eq (by omega) (toNat_sval_lt n)] at hv
  cases hv

theorem gcdValue_error {a b : Int} {e : ErrCode} (h : gcdValue a b = .error e) : e ∈ [ErrCode.domain] := by
  rw [gcdValue_eq] at h
  split at h
  · cases h; decide
  · cases h

theorem extgcdValue_error {a b : Int} {e : ErrCode} (h : extgcdValue a b = .error e) : e ∈ [ErrCode.domain] := by
  rw [extgcdValue_eq] at h
  split at h
  · cases h; decide
  · cases h

theorem modInvCore_error {a n : Nat} {e : ErrCode} (h : modInvCore a n = .error e) : e = .noInv := by
  unfold modInvCore at h
  dsimp only at h
  split at h
  · exact (Except.error.inj h).symm
  · cases h

theorem modinvValue_error {a n : Int} {e : ErrCode} (h : modinvValue a n = .error e) :
    e ∈ [ErrCode.divZero, .domain, .noInv] := by
  rw [modinvValue_eq] at h
  split at h
  · cases h; decide
  split at h
  · cases h; decide
  · rw [modInvCore_error h]; decide

/-- VERIFY answers malformed input with a verdict, not with an error (R109). -/
theorem verifyValue_ne_error {sig e n h : Big} {c : ErrCode} : verifyValue sig e n h ≠ .error c := by
  classical
  rw [verifyValue_eq (b := decide (acceptsSignature sig e n h)) decide_eq_true_iff]
  exact nofun

/-! ## Ending with a listed error -/

/-- `t` is `s` after the command `i` ended with the error `e`, which R111 lists for it, with `n` random words taken: for an
ETIMEOUT a word for each try at least, for any other error none (R112). -/
structure State.endedWith (s : State) (i : Instr) (t : State) (e : ErrCode) (n : Nat) : Prop where
  listed  : e ∈ i.mayRaise
  failed  : s.failedTo t (errCodeBits e) (s.rng.skip n)
  tries   : e = .timeout → s.retryLimit.toNat ≤ n
  noWords : e ≠ .timeout → n = 0

/-- An outcome of the command `i` that is an error is one that R111 lists for it. -/
def raisesListed (i : Instr) (s : State) (o : Host.Outcome State Fault Refusal) : Prop :=
  ∀ t, o = .next t → t.status.err = true → ∃ e n, s.endedWith i t e n

/-- Only commands that draw can reach RETRY_LIMIT (R55, R111). -/
theorem draws_of_timeout_listed {i : Instr} (h : ErrCode.timeout ∈ i.mayRaise) : i.draws = true := by
  cases i with
  | mrtest rd rs1 => rfl
  | genprime rd => rfl
  | keygen rd rd2 rd3 => rfl
  | _ => simp [Instr.mayRaise] at h

section
variable {i : Instr} {s : State}

theorem raisesListed_of_ok {o : Host.Outcome State Fault Refusal} (h : ∃ t, o = .next t ∧ t.status.err = false) :
    raisesListed i s o := by
  obtain ⟨u, rfl, hu⟩ := h
  intro t ht herr
  cases ht
  cases hu.symm.trans herr

theorem raisesListed_of_completed {o : Host.Outcome State Fault Refusal} {ws : List (Reg × Big)} {st : Status} {g : Rng}
    (hst : st.err = false) (h : ∃ t, o = .next t ∧ s.completedTo t ws st g) : raisesListed i s o := by
  obtain ⟨t, ht, hc⟩ := h
  exact raisesListed_of_ok ⟨t, ht, by rw [hc.status_eq, hst]⟩

/-- An error that comes before every draw. -/
theorem raisesListed_of_early_error {o : Host.Outcome State Fault Refusal} {e : ErrCode} (hl : e ∈ i.mayRaise)
    (he : e ≠ .timeout) (h : ∃ t, o = .next t ∧ s.failedTo t (errCodeBits e) s.rng) : raisesListed i s o := by
  obtain ⟨u, rfl, hu⟩ := h
  intro t ht _
  cases ht
  exact ⟨e, 0, hl, hu, fun h => absurd h he, fun _ => rfl⟩

/-- A search that has reached RETRY_LIMIT. -/
theorem raisesListed_of_timeout {o : Host.Outcome State Fault Refusal} {n : Nat} (hl : ErrCode.timeout ∈ i.mayRaise)
    (hn : s.retryLimit.toNat ≤ n)
    (h : ∃ t, o = .next t ∧ s.failedTo t (errCodeBits .timeout) (s.rng.skip n)) : raisesListed i s o := by
  obtain ⟨u, rfl, hu⟩ := h
  intro t ht _
  cases ht
  exact ⟨.timeout, n, hl, hu, fun _ => hn, fun h => absurd rfl h⟩

/-- A fault on unwritten sources is no error (R115). -/
theorem raisesListed_withSources {rs : List Reg} {k : State → Host.Outcome State Fault Refusal}
    (h : raisesListed i s (k s)) : raisesListed i s (withSources rs s k) := by
  cases hr : s.readable rs with
  | true => rw [withSources_of_readable hr]; exact h
  | false => rw [withSources_of_unwritten hr]; exact nofun

/-- A command on sources that has no error at all. -/
theorem raisesListed_result {rs : List Reg} (r : State → Result) :
    raisesListed i s (withSources rs s fun s => finish s (.ok (r s))) :=
  raisesListed_withSources (raisesListed_of_ok ⟨_, rfl, rfl⟩)

/-- A command on sources that draws no word has the errors of its value. -/
theorem raisesListed_value {α : Type} {rs : List Reg} {v : State → Except ErrCode α} {f : α → Result}
    (hd : i.draws = false) (h : ∀ e, v s = .error e → e ∈ i.mayRaise) :
    raisesListed i s (withSources rs s fun s => finish s ((v s).map f)) := by
  refine raisesListed_withSources ?_
  cases hv : v s with
  | ok a => exact raisesListed_of_ok ⟨_, rfl, rfl⟩
  | error e =>
    have hl := h e hv
    refine raisesListed_of_early_error hl ?_ (finish_error_failedTo s e)
    rintro rfl
    cases hd.symm.trans (draws_of_timeout_listed hl)

end

/-! ## The commands that draw -/

theorem raisesListed_randbits (rd : Reg) (s : State) : raisesListed (.randbits rd) s (exec (.randbits rd) s) := by
  obtain ⟨hin, hout⟩ := randbitsWritesExactlyLBits rd s
  by_cases h : s.bitlen.toNat = 0 ∨ 1600 ≤ s.bitlen.toNat
  · exact raisesListed_of_early_error (e := .domain) List.mem_cons_self (by decide) (hout h)
  · obtain ⟨v, t, ht, hc, -⟩ := hin (by omega) (by omega)
    exact raisesListed_of_completed rfl ⟨t, ht, hc⟩

/-- MRTEST finds ECAP before its rounds and ETIMEOUT in them. -/
theorem raisesListed_mrtest {rd rs1 : Reg} {s : State} (hr : s.readable [rs1] = true) :
    raisesListed (.mrtest rd rs1) s (exec (.mrtest rd rs1) s) := by
  by_cases htable : s.sval rs1 ≤ 3 ∨ s.sval rs1 % 2 = 0
  · exact raisesListed_of_completed rfl (mrtestDecidesSmallAndEvenByTable rd rs1 s hr htable)
  obtain ⟨c, hc⟩ := Int.eq_ofNat_of_zero_le (a := s.sval rs1) (by omega)
  obtain ⟨hrun, hcap⟩ := mrtestCompletesWithAVerdict rd rs1 s c hr hc (by omega) (by omega)
  by_cases hl : len (s.val rs1) ≤ 24
  · obtain ⟨v, g, hv⟩ := roundsRun_total (c := c) (by omega) s.retryLimit.toNat s.confidence.toNat s.rng
    obtain ⟨hverdict, htimeout⟩ := hrun hl g
    obtain ⟨n, rfl, hn⟩ := skip_of_roundsRun hv
    cases v with
    | some b => exact raisesListed_of_completed rfl (hverdict b hv)
    | none => exact raisesListed_of_timeout (List.mem_cons_of_mem _ List.mem_cons_self) (hn rfl) (htimeout hv)
  · exact raisesListed_of_early_error (e := .cap) List.mem_cons_self (by decide) (hcap (by omega))

theorem raisesListed_genprime (rd : Reg) (s : State) : raisesListed (.genprime rd) s (exec (.genprime rd) s) := by
  obtain ⟨t, n, ht, -, ⟨-, -, hok, -⟩ | ⟨-, -, hf, hn⟩ | ⟨-, hf⟩⟩ := genprimeResultIsOddOfExactLength rd s
  · exact raisesListed_of_ok ⟨t, ht, hok⟩
  · exact raisesListed_of_timeout (List.mem_cons_of_mem _ List.mem_cons_self) hn ⟨t, ht, hf⟩
  · exact raisesListed_of_early_error (e := .domain) List.mem_cons_self (by decide) ⟨t, ht, hf⟩

theorem raisesListed_keygen {rd rd2 rd3 : Reg} (h12 : rd ≠ rd2) (h13 : rd ≠ rd3) (h23 : rd2 ≠ rd3) (s : State) :
    raisesListed (.keygen rd rd2 rd3) s (exec (.keygen rd rd2 rd3) s) := by
  by_cases hrange : s.bitlen.toNat < 3 ∨ 384 < s.bitlen.toNat
  · exact raisesListed_of_early_error (e := .domain) List.mem_cons_self (by decide)
      (exec_keygen_out_of_range h12 h13 h23 hrange)
  obtain ⟨h3, hL⟩ : 3 ≤ s.bitlen.toNat ∧ s.bitlen.toNat ≤ 384 := by omega
  obtain ⟨t, n, ht, ⟨hf, hn⟩ | ⟨p, q, e, d, -, hc, -⟩⟩ := exec_keygen_in_range h12 h13 h23 h3 hL
  · exact raisesListed_of_timeout (List.mem_cons_of_mem _ List.mem_cons_self) hn ⟨t, ht, hf⟩
  · exact raisesListed_of_completed rfl ⟨t, ht, hc⟩

/-! ## Every command -/

/-- A well-formed command ends with no error but those that R111 lists for it. -/
theorem exec_raisesListed (i : Instr) (s : State) (hw : i.wellFormed = true) : raisesListed i s (exec i s) := by
  cases i with
  | nop => exact raisesListed_of_ok ⟨_, rfl, rfl⟩
  | ldi rd => exact raisesListed_of_ok ⟨_, rfl, rfl⟩
  | mov rd rs1 => unfold exec execMov; exact raisesListed_result _
  | add rd rs1 rs2 => unfold exec execAdd; exact raisesListed_result _
  | sub rd rs1 rs2 => unfold exec execSub; exact raisesListed_result _
  | neg rd rs1 => unfold exec execNeg; exact raisesListed_result _
  | cmp rs1 rs2 => unfold exec execCmp; exact raisesListed_result _
  | shl rd rs1 shamt => unfold exec execShl; exact raisesListed_result _
  | shr rd rs1 shamt => unfold exec execShr; exact raisesListed_result _
  | mul rd rs1 rs2 => unfold exec execMul; exact raisesListed_result _
  | div rd rs1 rs2 => unfold exec execDiv; exact raisesListed_value rfl fun _ => divMod_error
  | rem rd rs1 rs2 => unfold exec execRem; exact raisesListed_value rfl fun _ => divMod_error
  | divrem rd rs1 rs2 rd2 =>
    have hn : rd ≠ rd2 := by simpa [Instr.wellFormed, Instr.dests] using hw
    simp only [exec, execDivrem, if_neg hn]
    exact raisesListed_value rfl fun _ => divMod_error
  | mu rd rs1 => unfold exec execMu; exact raisesListed_value rfl fun _ => muValue_error
  | bred rd rs1 rs2 rs3 => unfold exec execBred; exact raisesListed_value rfl fun _ => bredValue_error
  | modmul rd rs1 rs2 rs3 => unfold exec execModmul; exact raisesListed_value rfl fun _ => modmulValue_error
  | modpow rd rs1 rs2 rs3 => unfold exec execModpow; exact raisesListed_value rfl fun _ => modpowValue_error
  | gcd rd rs1 rs2 => unfold exec execGcd; exact raisesListed_value rfl fun _ => gcdValue_error
  | extgcd rd rs1 rs2 rd2 rd3 =>
    have hn : ¬ (rd = rd2 ∨ rd = rd3 ∨ rd2 = rd3) :=
      distinct_of_nodup (by simpa [Instr.wellFormed, Instr.dests] using hw)
    simp only [exec, execExtgcd, if_neg hn]
    exact raisesListed_value rfl fun _ => extgcdValue_error
  | modinv rd rs1 rs2 => unfold exec execModinv; exact raisesListed_value rfl fun _ => modinvValue_error
  | randbits rd => exact raisesListed_randbits rd s
  | mrtest rd rs1 =>
    cases hr : s.readable [rs1] with
    | true => exact raisesListed_mrtest hr
    | false => rw [exec_unwritten (.mrtest rd rs1) s hw hr]; exact nofun
  | genprime rd => exact raisesListed_genprime rd s
  | keygen rd rd2 rd3 =>
    obtain ⟨⟨h12, h13⟩, h23⟩ : (rd ≠ rd2 ∧ rd ≠ rd3) ∧ rd2 ≠ rd3 := by
      simpa [Instr.wellFormed, Instr.dests] using hw
    exact raisesListed_keygen h12 h13 h23 s
  | sign rd rs1 rs2 rs3 => unfold exec execSign; exact raisesListed_value rfl fun _ => modpowValue_error
  | verify rd rs1 rs2 rs3 rs4 =>
    unfold exec execVerify
    exact raisesListed_value rfl fun _ h => absurd h verifyValue_ne_error

/-- Settles O12: by the errors that each command's value can have. -/
theorem eachCommandRaisesOnlyItsErrors : Obligations.EachCommandRaisesOnlyItsErrors := by
  refine ⟨fun i s t hw h herr => ?_, rfl, rfl, rfl, rfl, rfl, rfl⟩
  obtain ⟨e, n, hl, hf, -⟩ := exec_raisesListed i s hw t h herr
  exact ⟨e, hl, by rw [hf]; rfl⟩

/-! ## What an error leaves -/

/-- The command in progress needs the words that its completion takes. -/
theorem wordsNeeded_of_failed {i : Instr} {s t : State} {c : BitVec 4} {n : Nat} (hd : decode s.latched = .ok i)
    (h : exec i s = .next t) (hf : s.failedTo t c (s.rng.skip n)) : wordsNeeded s = n := by
  rw [wordsNeeded_of_next ((runWord_ok hd s).trans h), hf.rng_eq, skip_pos, Nat.add_sub_cancel_left]

/-- Settles O9: equal destinations raise EILLEGAL before any draw, and a well-formed command ends with a listed error. -/
theorem errorChangesOnlyStatusAndRandomPort : Obligations.ErrorChangesOnlyStatusAndRandomPort := by
  intro i s t h herr
  obtain ⟨e, n, hf, htries, hnone⟩ : ∃ e n, s.failedTo t (errCodeBits e) (s.rng.skip n) ∧
      (e = .timeout → i.draws = true ∧ s.retryLimit.toNat ≤ n) ∧ (e ≠ .timeout → n = 0) := by
    cases hw : i.wellFormed with
    | false =>
      cases (exec_illFormed i s hw).symm.trans h
      exact ⟨.illegal, 0, rfl, nofun, fun _ => rfl⟩
    | true =>
      obtain ⟨e, n, hl, hf, htries, hnone⟩ := exec_raisesListed i s hw t h herr
      exact ⟨e, n, hf, fun he => ⟨draws_of_timeout_listed (he ▸ hl), htries he⟩, hnone⟩
  exact ⟨e, n, hf, htries, hnone, fun hd hle => hle.trans_eq (wordsNeeded_of_failed hd h hf)⟩

end Sys2Proof.Machine
